-- ==== Sys2Proof/Word.lean ====
section
/-! DEFINITION. The words the rasterizer works on: bytes, 32-bit words and 24-bit colours (00_scope R7, R13). -/

namespace Sys2Proof

/-- One byte: the only width the engine reads or writes in memory (20_memory R79). -/
abbrev Byte := BitVec 8

/-- One 32-bit word: the width of a CSR, of a physical address and of a command (10_state R23, 30_encoding R95). -/
abbrev Word := BitVec 32

/-- A colour: a triple of 8-bit channels (00_scope R13). -/
structure RGB where
  r : Byte
  g : Byte
  b : Byte
deriving DecidableEq, Repr, Inhabited

/-- The colour 0x000000. -/
def RGB.black : RGB := ⟨0, 0, 0⟩

end Sys2Proof
end

