-- ==== Sys2Proof/Config.lean ====
section
/-! DEFINITION. What the spec leaves open: the ROM parameters of 00_scope R8 and the free values of
93_implementation_defined. Every constant but the last two is opaque, so no proof can see its value. -/

namespace Sys2Proof.Config

/-- The NTSC colour-standard ROM (00_scope R8, 93 item I1). Log 5. -/
opaque ntscRgb : Byte → RGB

/-- The PAL colour-standard ROM (00_scope R8, 93 item I1). Log 5. -/
opaque palRgb : Byte → RGB

/-- The internal-order character map ROM (00_scope R8, 93 item I2). Log 5. -/
opaque cmapInternal : Byte → Byte

/-- The ATASCII-order character map ROM (00_scope R8, 93 item I2). Log 5. -/
opaque cmapAtascii : Byte → Byte

/-- FREE VALUE (93 items U5, U9, U10): the byte that draw `n` leaves at an address whose contents are UNSPECIFIED.
Logs 9, 10, 12, 13. -/
opaque freeByte : (draw address : Nat) → Byte

/-- FREE VALUE (93 item U4): the byte an engine read of the CSR aperture returns, for each draw, each occurrence of
the read within the command, and each address. Logs 9, 11, 22. -/
opaque apertureByte : (draw occurrence address : Nat) → Byte

/-- FREE VALUE (93 items U1, U2, U3, U4): the word that draw `n` leaves in, or returns from, the register at a CSR
offset. Logs 9, 11, 14, 15, 16. -/
opaque freeWord : (draw offset : Nat) → Word

/-- FREE CHOICE (93 items U8, U13): whether the byte at an address still has its old value. Logs 9, 14, 15. -/
opaque keepsOld : (draw address : Nat) → Bool

/-- FREE CHOICE (93 items U9, U12): which of the values that a byte held during the command an engine read of it returns,
where the host wrote the byte while the command ran. Logs 9, 12. -/
opaque heldPick : (draw occurrence address : Nat) → Nat

/-- FREE CHOICE (93 item U7): which of the failing addresses ERR_ADDR reports. Logs 9, 10. -/
opaque failingPick : (draw : Nat) → Nat

/-- FREE VALUE (93 item U6): JM_HITS where it is UNSPECIFIED, before its reduction to 0..JM_COUNT. Logs 9, 10. -/
opaque freeHits : (draw : Nat) → Nat

/-- FREE VALUE (93 item U14): how many host actions fit into the run of the command accepted at a draw. Logs 3, 9. -/
opaque commandTime : (draw : Nat) → Nat

/-- DESIGN CHOICE (log 8): what a memory byte that nothing has written reads as. -/
def unwrittenByte : Byte := 0x00

/-- DESIGN CHOICE (log 4): the aperture address P_CSR_BASE that `State.reset` takes. -/
def resetCsrBase : Word := 0x80000000

end Sys2Proof.Config
end

