-- ==== Sys2Proof/Syntax.lean ====
section
/-! DEFINITION. The command set RASTER v1.0: one constructor per row of spec/opcode_table.json (30_encoding R97..R100). -/

namespace Sys2Proof

/-- A command. The operands are the immediates of the command word; every other operand is a CSR (10_state R20). -/
inductive Instr where
  /-- NOP (40_utilities R116). -/
  | nop
  /-- PALBUILD.DIRECT (41_palette R128). -/
  | palbuildDirect
  /-- PALBUILD.ANTIC (41_palette R129). -/
  | palbuildAntic
  /-- PALBUILD.GTIA9 (41_palette R130). -/
  | palbuildGtia9
  /-- PALBUILD.GTIA11 (41_palette R131). -/
  | palbuildGtia11
  /-- RENDER.BW1 (43_bitmap_renderers R159). -/
  | renderBw1
  /-- RENDER.BPP2 (43_bitmap_renderers R160). -/
  | renderBpp2
  /-- RENDER.BPP4 (43_bitmap_renderers R161). -/
  | renderBpp4
  /-- RENDER.ANTIC_B (43_bitmap_renderers R162). -/
  | renderAnticB
  /-- RENDER.ANTIC_C (43_bitmap_renderers R163). -/
  | renderAnticC
  /-- RENDER.ANTIC_D (43_bitmap_renderers R164). -/
  | renderAnticD
  /-- RENDER.ANTIC_E (43_bitmap_renderers R165). -/
  | renderAnticE
  /-- RENDER.A2_HIRES (43_bitmap_renderers R166). -/
  | renderA2Hires
  /-- RENDER.A2_HIRES_SCREEN (43_bitmap_renderers R167). -/
  | renderA2HiresScreen
  /-- RENDER.A2_ARTIFACT (43_bitmap_renderers R169). -/
  | renderA2Artifact
  /-- RENDER.GTIA9 (43_bitmap_renderers R171). -/
  | renderGtia9
  /-- RENDER.GTIA10 (43_bitmap_renderers R172). -/
  | renderGtia10
  /-- RENDER.GTIA11 (43_bitmap_renderers R173). -/
  | renderGtia11
  /-- RENDER.BPL_LE N: `n` is ARG0, the bitplane count (43_bitmap_renderers R174, 30_encoding R101). -/
  | renderBplLe (n : Byte)
  /-- RENDER.BPL_BE N (43_bitmap_renderers R175). -/
  | renderBplBe (n : Byte)
  /-- RENDER.BPL_IL_LE N (43_bitmap_renderers R176). -/
  | renderBplIlLe (n : Byte)
  /-- RENDER.BPL_IL_BE N (43_bitmap_renderers R177). -/
  | renderBplIlBe (n : Byte)
  /-- RENDER.JUMPMAN (43_bitmap_renderers R178). -/
  | renderJumpman
  /-- RENDER.MEMMAP (43_bitmap_renderers R179). -/
  | renderMemmap
  /-- RENDER.HEATMAP (43_bitmap_renderers R180). -/
  | renderHeatmap
  /-- BAKE.GR0 (42_font_baker R141). -/
  | bakeGr0
  /-- BAKE.ANTIC4 (42_font_baker R142). -/
  | bakeAntic4
  /-- BAKE.GR12_UPPER (42_font_baker R143). -/
  | bakeGr12Upper
  /-- BAKE.GR12_LOWER (42_font_baker R144). -/
  | bakeGr12Lower
  /-- BAKE.APPLE (42_font_baker R145). -/
  | bakeApple
  /-- FRENDER (44_font_renderer R190). -/
  | frender
  /-- ISCALE sh, sw: ARG0 and ARG1 (40_utilities R117, 30_encoding R102). -/
  | iscale (sh sw : Byte)
  /-- IWSCALE sw: ARG1 (40_utilities R118). -/
  | iwscale (sw : Byte)
  /-- HARVEST (46_jumpman R205). -/
  | harvest
deriving DecidableEq, Repr, Inhabited

end Sys2Proof
end

