-- ==== Sys2Proof/WellFormed.lean ====
section
/-! DEFINITION. Which terms of `Instr` are commands: those whose immediates are in the range the encoding admits. -/

namespace Sys2Proof

/-- A legal bitplane count is 1, 2, 3 or 4 (30_encoding R101). -/
def legalPlanes (n : Byte) : Bool := decide (1 ≤ n.toNat) && decide (n.toNat ≤ 4)

/-- The check on a command's immediates. Only the four bitplane renderers restrict one (30_encoding R101); the scale
immediates take every value 0..255 (30_encoding R102). -/
def Instr.wellFormed : Instr → Bool
  | .renderBplLe n => legalPlanes n
  | .renderBplBe n => legalPlanes n
  | .renderBplIlLe n => legalPlanes n
  | .renderBplIlBe n => legalPlanes n
  | .nop => true
  | .palbuildDirect => true
  | .palbuildAntic => true
  | .palbuildGtia9 => true
  | .palbuildGtia11 => true
  | .renderBw1 => true
  | .renderBpp2 => true
  | .renderBpp4 => true
  | .renderAnticB => true
  | .renderAnticC => true
  | .renderAnticD => true
  | .renderAnticE => true
  | .renderA2Hires => true
  | .renderA2HiresScreen => true
  | .renderA2Artifact => true
  | .renderGtia9 => true
  | .renderGtia10 => true
  | .renderGtia11 => true
  | .renderJumpman => true
  | .renderMemmap => true
  | .renderHeatmap => true
  | .bakeGr0 => true
  | .bakeAntic4 => true
  | .bakeGr12Upper => true
  | .bakeGr12Lower => true
  | .bakeApple => true
  | .frender => true
  | .iscale _ _ => true
  | .iwscale _ => true
  | .harvest => true

end Sys2Proof
end

