-- ==== Sys2Proof/Decode.lean ====
section
/-! DEFINITION. The decoder of 30_encoding R110 and the encoder of R95..R100. The command word is a CSR value, not
memory (R112), so the decoder reads one 32-bit word and no bytes. -/

namespace Sys2Proof

/-- Why a command word is no command (30_encoding R103, R104, R105). -/
inductive DecodeError where
  /-- OP in 0x08..0xFF (R104). -/
  | badOpcode
  /-- RENDER with SUB >= 0x14, or BAKE with SUB >= 0x05 (R105). -/
  | rendererNotFound
  /-- A reserved field is nonzero, PALBUILD SUB >= 4, or N outside 1..4 (R101, R103). -/
  | reservedField
deriving DecidableEq, Repr

/-- The OP field, bits [7:0] (30_encoding R95). -/
def opField (w : Word) : Byte := w.extractLsb' 0 8

/-- The SUB field, bits [15:8] (30_encoding R95). -/
def subField (w : Word) : Byte := w.extractLsb' 8 8

/-- The ARG0 field, bits [23:16] (30_encoding R95). -/
def arg0Field (w : Word) : Byte := w.extractLsb' 16 8

/-- The ARG1 field, bits [31:24] (30_encoding R95). -/
def arg1Field (w : Word) : Byte := w.extractLsb' 24 8

/-- The PALBUILD source of SUB (30_encoding R100); SUB above 3 is RESERVED_FIELD (R103). -/
def decodePalbuild (sub : Byte) : Except DecodeError Instr :=
  match sub.toNat with
  | 0 => .ok .palbuildDirect
  | 1 => .ok .palbuildAntic
  | 2 => .ok .palbuildGtia9
  | 3 => .ok .palbuildGtia11
  | _ => .error .reservedField

/-- A bitplane renderer with its count ARG0 (30_encoding R101). -/
def decodePlanes (mk : Byte → Instr) (n : Byte) : Except DecodeError Instr :=
  if legalPlanes n then .ok (mk n) else .error .reservedField

/-- A renderer whose ARG0 must be 0 (30_encoding R101). -/
def decodePlain (i : Instr) (arg0 : Byte) : Except DecodeError Instr :=
  if arg0 = 0 then .ok i else .error .reservedField

/-- The renderer of SUB (30_encoding R98). -/
def decodeRender (sub arg0 : Byte) : Except DecodeError Instr :=
  match sub.toNat with
  | 0x00 => decodePlain .renderBw1 arg0
  | 0x01 => decodePlain .renderBpp2 arg0
  | 0x02 => decodePlain .renderBpp4 arg0
  | 0x03 => decodePlain .renderAnticB arg0
  | 0x04 => decodePlain .renderAnticC arg0
  | 0x05 => decodePlain .renderAnticD arg0
  | 0x06 => decodePlain .renderAnticE arg0
  | 0x07 => decodePlain .renderA2Hires arg0
  | 0x08 => decodePlain .renderA2HiresScreen arg0
  | 0x09 => decodePlain .renderA2Artifact arg0
  | 0x0A => decodePlain .renderGtia9 arg0
  | 0x0B => decodePlain .renderGtia10 arg0
  | 0x0C => decodePlain .renderGtia11 arg0
  | 0x0D => decodePlanes .renderBplLe arg0
  | 0x0E => decodePlanes .renderBplBe arg0
  | 0x0F => decodePlanes .renderBplIlLe arg0
  | 0x10 => decodePlanes .renderBplIlBe arg0
  | 0x11 => decodePlain .renderJumpman arg0
  | 0x12 => decodePlain .renderMemmap arg0
  | 0x13 => decodePlain .renderHeatmap arg0
  | _ => .error .rendererNotFound

/-- The bake mode of SUB (30_encoding R99). -/
def decodeBake (sub : Byte) : Except DecodeError Instr :=
  match sub.toNat with
  | 0 => .ok .bakeGr0
  | 1 => .ok .bakeAntic4
  | 2 => .ok .bakeGr12Upper
  | 3 => .ok .bakeGr12Lower
  | 4 => .ok .bakeApple
  | _ => .error .rendererNotFound

/-- A command of format Z: SUB, ARG0 and ARG1 are reserved (30_encoding R96, R103). -/
def decodeZ (i : Instr) (sub arg0 arg1 : Byte) : Except DecodeError Instr :=
  if sub = 0 ∧ arg0 = 0 ∧ arg1 = 0 then .ok i else .error .reservedField

/-- The decoder: the first failing test decides the error, in the order of 30_encoding R110. -/
def decode (w : Word) : Except DecodeError Instr :=
  let op := opField w
  let sub := subField w
  let arg0 := arg0Field w
  let arg1 := arg1Field w
  if 0x08 ≤ op.toNat then .error .badOpcode
  else if op = 0x02 ∧ 0x14 ≤ sub.toNat then .error .rendererNotFound
  else if op = 0x03 ∧ 0x05 ≤ sub.toNat then .error .rendererNotFound
  else match op.toNat with
    | 0x00 => decodeZ .nop sub arg0 arg1
    | 0x01 => if arg0 = 0 ∧ arg1 = 0 then decodePalbuild sub else .error .reservedField
    | 0x02 => if arg1 = 0 then decodeRender sub arg0 else .error .reservedField
    | 0x03 => if arg0 = 0 ∧ arg1 = 0 then decodeBake sub else .error .reservedField
    | 0x04 => decodeZ .frender sub arg0 arg1
    | 0x05 => if sub = 0 then .ok (.iscale arg0 arg1) else .error .reservedField
    | 0x06 => if sub = 0 ∧ arg0 = 0 then .ok (.iwscale arg1) else .error .reservedField
    | 0x07 => decodeZ .harvest sub arg0 arg1
    | _ => .error .badOpcode

/-- The four fields of a command's word: OP, SUB, ARG0, ARG1 (30_encoding R97..R102). -/
def Instr.fields : Instr → Byte × Byte × Byte × Byte
  | .nop => (0x00, 0, 0, 0)
  | .palbuildDirect => (0x01, 0x00, 0, 0)
  | .palbuildAntic => (0x01, 0x01, 0, 0)
  | .palbuildGtia9 => (0x01, 0x02, 0, 0)
  | .palbuildGtia11 => (0x01, 0x03, 0, 0)
  | .renderBw1 => (0x02, 0x00, 0, 0)
  | .renderBpp2 => (0x02, 0x01, 0, 0)
  | .renderBpp4 => (0x02, 0x02, 0, 0)
  | .renderAnticB => (0x02, 0x03, 0, 0)
  | .renderAnticC => (0x02, 0x04, 0, 0)
  | .renderAnticD => (0x02, 0x05, 0, 0)
  | .renderAnticE => (0x02, 0x06, 0, 0)
  | .renderA2Hires => (0x02, 0x07, 0, 0)
  | .renderA2HiresScreen => (0x02, 0x08, 0, 0)
  | .renderA2Artifact => (0x02, 0x09, 0, 0)
  | .renderGtia9 => (0x02, 0x0A, 0, 0)
  | .renderGtia10 => (0x02, 0x0B, 0, 0)
  | .renderGtia11 => (0x02, 0x0C, 0, 0)
  | .renderBplLe n => (0x02, 0x0D, n, 0)
  | .renderBplBe n => (0x02, 0x0E, n, 0)
  | .renderBplIlLe n => (0x02, 0x0F, n, 0)
  | .renderBplIlBe n => (0x02, 0x10, n, 0)
  | .renderJumpman => (0x02, 0x11, 0, 0)
  | .renderMemmap => (0x02, 0x12, 0, 0)
  | .renderHeatmap => (0x02, 0x13, 0, 0)
  | .bakeGr0 => (0x03, 0x00, 0, 0)
  | .bakeAntic4 => (0x03, 0x01, 0, 0)
  | .bakeGr12Upper => (0x03, 0x02, 0, 0)
  | .bakeGr12Lower => (0x03, 0x03, 0, 0)
  | .bakeApple => (0x03, 0x04, 0, 0)
  | .frender => (0x04, 0, 0, 0)
  | .iscale sh sw => (0x05, 0, sh, sw)
  | .iwscale sw => (0x06, 0, 0, sw)
  | .harvest => (0x07, 0, 0, 0)

/-- The word of four fields: ARG1 in [31:24], ARG0 in [23:16], SUB in [15:8], OP in [7:0] (30_encoding R95). -/
def wordOfFields (f : Byte × Byte × Byte × Byte) : Word := f.2.2.2 ++ f.2.2.1 ++ f.2.1 ++ f.1

/-- The encoder: the command word of a command. -/
def encode (i : Instr) : Word := wordOfFields i.fields

/-- What the decoder reads from a table word of `nbits` bits; every bit above them is 0 (30_encoding R107: one word). -/
def decodeTableWord (nbits w : Nat) : Option Instr :=
  match decode (BitVec.ofNat 32 (w % 2 ^ nbits)) with
  | .ok i => some i
  | .error _ => none

end Sys2Proof
end

