-- ==== Sys2Proof/Machine/State.lean ====
section
/-! DEFINITION. The machine's state, whole and as plain data: every register, table, flag and memory byte that 10_state
and 20_memory give the block, the platform parameters of 00_scope R8, and the host's side of the bus. -/

namespace Sys2Proof.Machine

/-- The engine phase, seen as STATUS.BUSY (10_state R22). -/
inductive Phase where
  | idle
  | run
deriving DecidableEq, Repr, Inhabited

/-- The error codes 1..9 that STATUS.ERRCODE reports (60_exceptions R212). -/
inductive ErrCode where
  | badOpcode
  | rendererNotFound
  | reservedField
  | scale
  | geometry
  | noFont
  | range
  | overlap
  | bus
deriving DecidableEq, Repr, Inhabited

/-- The colour standard PAL_CTRL.CSTD (10_state R39). -/
inductive ColourStandard where
  | ntsc
  | pal
deriving DecidableEq, Repr, Inhabited

/-- The five style classes, exactly one per pixel (45_style_composer R199). -/
inductive StyleClass where
  | normal
  | highlight
  | matched
  | comment
  | data
deriving DecidableEq, Repr, Inhabited

/-- The STATUS bits besides BUSY (10_state R27). `errCode = none` is ERRCODE 0. -/
structure Status where
  done : Bool
  err : Bool
  wign : Bool
  errCode : Option ErrCode
deriving DecidableEq, Repr, Inhabited

/-- IRQ_EN (10_state R28). -/
structure IrqEnable where
  doneIe : Bool
  errIe : Bool
deriving DecidableEq, Repr, Inhabited

/-- FONT_STATE (10_state R31). -/
structure FontState where
  valid : Bool
  cw7 : Bool
  bmode : BitVec 3
deriving DecidableEq, Repr, Inhabited

/-- The CSRs with storage (10_state R23..R53), field by field; reserved bits store nothing (R56). -/
structure Csrs where
  status : Status
  irqEn : IrqEnable
  lastCmd : Word
  errAddr : Word
  font : FontState
  jmHits : BitVec 16
  dataBase : Word
  styleBase : Word
  dataLen : Word
  count : Word
  bpr : BitVec 16
  numRows : BitVec 16
  scaleW : Byte
  scaleH : Byte
  zoom : Byte
  outBase : Word
  nreg : BitVec 9
  cstd : ColourStandard
  highlightBg : RGB
  matchBg : RGB
  commentBg : RGB
  background : RGB
  dataBg : RGB
  emptyBg : RGB
  antic : Vector Byte 9
  fontBase : Word
  fontLen : Word
  bakeBase : Word
  reverse : Bool
  hasBlink : Bool
  glyphs256 : Bool
  cmapAtascii : Bool
  frame : Bool
  srcBase : Word
  srcW : BitVec 16
  srcH : BitVec 16
  hx : Byte
  hy : Byte
  jmList : Word
  jmCount : BitVec 16
deriving DecidableEq, Repr, Inhabited

/-- A table indexed by a byte: 256 entries (10_state R60..R63). -/
abbrev Table (α : Type) := Vector α 256

/-- The table whose entry k is `f k`. -/
def Table.ofFn {α : Type} (f : Nat → α) : Table α := ⟨⟨(List.range 256).map f⟩, by simp⟩

/-- The palette set PS: five banks of 256 colours, one per style class (10_state R61). -/
structure PaletteSet where
  normal : Table RGB
  highlight : Table RGB
  matched : Table RGB
  comment : Table RGB
  data : Table RGB
deriving DecidableEq, Repr, Inhabited

/-- Memory: the bytes that differ from `Config.unwrittenByte`, addresses strictly rising (20_memory R75). -/
abbrev Memory := List Host.Cell

/-- A range of addresses whose engine reads or writes return a bus error: one piece of P_BUS_ERROR (00_scope R8). -/
structure BusRange where
  base : Nat
  len : Nat
  onRead : Bool
  onWrite : Bool
deriving DecidableEq, Repr, Inhabited

/-- The open parameters of 00_scope R8, fixed by the platform; no step changes them (logs 4 and 5). -/
structure Platform where
  csrBase : Word
  busErrors : List BusRange
  ntscRgb : Table RGB
  palRgb : Table RGB
  cmapInternal : Table Byte
  cmapAtascii : Table Byte
deriving DecidableEq, Repr, Inhabited

/-- The size of a host access to the aperture (10_state R58). -/
inductive AccessSize where
  | byte
  | half
  | word
  /-- Any size above 32 bits: no CSR answers it, so a write needs no value and a read returns 0. -/
  | wide
deriving DecidableEq, Repr, Inhabited

/-- One action of the host on its bus (30_encoding R109, 60_exceptions R229, R230). -/
inductive HostAction where
  /-- A write of `v` at aperture offset `off` (WCSR when the size is a word). -/
  | writeCsr (off : BitVec 13) (size : AccessSize) (v : Word)
  /-- A read at aperture offset `off` (RCSR when the size is a word). -/
  | readCsr (off : BitVec 13) (size : AccessSize)
  /-- One byte of WMEM. -/
  | writeMem (a : Word) (v : Byte)
  /-- A read of one memory byte. -/
  | readMem (a : Word)
  /-- WAIT: poll STATUS until BUSY is 0. -/
  | wait
  /-- Power off and on: a power-on reset (60_exceptions R229). -/
  | powerCycle
deriving DecidableEq, Repr, Inhabited

/-- The state of the machine. -/
structure State where
  /-- The engine phase (10_state R22). -/
  phase : Phase
  /-- The CSRs (10_state R23). While `phase = run`, LAST_CMD is the accepted command word (R65). -/
  csr : Csrs
  /-- CREG[0..255] (10_state R54). -/
  creg : Table RGB
  /-- PS[0..4][0..255] (10_state R55). -/
  ps : PaletteSet
  /-- The physical memory (20_memory R75). -/
  mem : Memory
  /-- The open parameters (00_scope R8). -/
  platform : Platform
  /-- MODEL's own (log 2): the host's pending actions, first to arrive first (70_reset R241). -/
  hostQ : List HostAction
  /-- MODEL's own (log 20): what the host's last read returned. -/
  readData : Word
  /-- MODEL's own (log 3): how many host actions still fit before the running command ends (93 item U14). -/
  runFor : Nat
  /-- MODEL's own (log 12): the bytes of the running command's read regions that the host wrote while it runs, each with
  the value it held before that write, the latest write first (20_memory R86). -/
  inTouched : List Host.Cell
  /-- MODEL's own (log 13): the addresses of the running command's write region that the host wrote (70_reset R240). -/
  outTouched : List Nat
  /-- MODEL's own (log 9): the number of the next free draw. -/
  draws : Nat
deriving DecidableEq, Repr, Inhabited

/-- Why the machine stops. The spec gives this machine no stop: every error is an end of the current command
(60_exceptions R211), and every accepted command ends (70_reset R249). -/
inductive Fault where
  /-- An access to an address outside 0 .. 2^32 - 1 (20_memory R75). No path of the model raises it: host addresses are
  32 bits wide, and an engine access lies in a region that the range check has passed (R77). Safe. -/
  | outsideAddressSpace
deriving DecidableEq, Repr

/-- Why the model gives a command no meaning. -/
inductive Refusal where
  /-- Raised by an arm of `exec` whose command has no meaning yet. No arm raises it: every row of the opcode table has
  its meaning. Safe. -/
  | notModelled (mnemonic : String)
deriving DecidableEq, Repr

/-- Every CSR at its reset value (10_state R68). -/
def Csrs.reset : Csrs where
  status := { done := false, err := false, wign := false, errCode := none }
  irqEn := { doneIe := false, errIe := false }
  lastCmd := 0
  errAddr := 0
  font := { valid := false, cw7 := false, bmode := 0 }
  jmHits := 0
  dataBase := 0
  styleBase := 0
  dataLen := 0
  count := 0
  bpr := 0
  numRows := 0
  scaleW := 1
  scaleH := 1
  zoom := 1
  outBase := 0
  nreg := 2
  cstd := .ntsc
  highlightBg := .black
  matchBg := .black
  commentBg := .black
  background := .black
  dataBg := .black
  emptyBg := .black
  antic := Vector.replicate 9 0
  fontBase := 0
  fontLen := 0
  bakeBase := 0
  reverse := false
  hasBlink := false
  glyphs256 := false
  cmapAtascii := false
  frame := false
  srcBase := 0
  srcW := 0
  srcH := 0
  hx := 0
  hy := 0
  jmList := 0
  jmCount := 0

/-- The palette set with every entry black. -/
def PaletteSet.black : PaletteSet where
  normal := Vector.replicate 256 .black
  highlight := Vector.replicate 256 .black
  matched := Vector.replicate 256 .black
  comment := Vector.replicate 256 .black
  data := Vector.replicate 256 .black

/-- The platform of `State.reset`. The aperture address and the empty list of bus errors are DESIGN CHOICES (log 4);
the ROMs are opaque (log 5). -/
def Platform.atReset : Platform where
  csrBase := Config.resetCsrBase
  busErrors := []
  ntscRgb := Table.ofFn fun k => Config.ntscRgb (BitVec.ofNat 8 k)
  palRgb := Table.ofFn fun k => Config.palRgb (BitVec.ofNat 8 k)
  cmapInternal := Table.ofFn fun k => Config.cmapInternal (BitVec.ofNat 8 k)
  cmapAtascii := Table.ofFn fun k => Config.cmapAtascii (BitVec.ofNat 8 k)

/-- The machine right after a power-on reset (10_state R68, 70_reset R233). CREG and PS are UNSPECIFIED there and
black here: DESIGN CHOICE (logs 6 and 7). Memory lists nothing (log 8) and the host has no action pending (log 2). -/
def State.reset : State where
  phase := .idle
  csr := Csrs.reset
  creg := Vector.replicate 256 .black
  ps := PaletteSet.black
  mem := []
  platform := Platform.atReset
  hostQ := []
  readData := 0
  runFor := 0
  inTouched := []
  outTouched := []
  draws := 0

end Sys2Proof.Machine
end

