-- ==== Sys2Proof/Machine/Csr.lean ====
section
/-! DEFINITION. The CSR map (10_state R23): which register stands at an offset, and how each configuration register is
read and written. Phase rules (R57) are in HostPort.lean. -/

namespace Sys2Proof.Machine

/-- The word `0x00RRGGBB` of a colour (00_scope R13). -/
def packRgb (c : RGB) : Word := 0#8 ++ c.r ++ c.g ++ c.b

/-- The colour of a word's bits [23:0] (00_scope R13). -/
def unpackRgb (w : Word) : RGB := ⟨w.extractLsb' 16 8, w.extractLsb' 8 8, w.extractLsb' 0 8⟩

/-- One bit as a word's bit 0. -/
def bitWord (b : Bool) : Word := if b then 1 else 0

/-- Entry `i` of a table (00_scope R10). -/
def Table.get {α : Type} (t : Table α) (i : Byte) : α := t[i.toNat]'i.isLt

/-- The table with entry `i` replaced (00_scope R10). -/
def Table.put {α : Type} (t : Table α) (i : Byte) (v : α) : Table α := t.set i.toNat v i.isLt

/-- The bank of PS that a style class names (10_state R61). -/
def PaletteSet.bank (p : PaletteSet) : StyleClass → Table RGB
  | .normal => p.normal
  | .highlight => p.highlight
  | .matched => p.matched
  | .comment => p.comment
  | .data => p.data

/-- The bank number of a style class: 0 normal, 1 highlight, 2 match, 3 comment, 4 data (10_state R61). -/
def StyleClass.index : StyleClass → Nat
  | .normal => 0
  | .highlight => 1
  | .matched => 2
  | .comment => 3
  | .data => 4

/-- The style class of a bank number (10_state R61). -/
def StyleClass.ofIndex : Nat → StyleClass
  | 0 => .normal
  | 1 => .highlight
  | 2 => .matched
  | 3 => .comment
  | _ => .data

/-- The palette set whose entry k of class c is `f c k`. -/
def PaletteSet.ofFn (f : StyleClass → Nat → RGB) : PaletteSet where
  normal := Table.ofFn (f .normal)
  highlight := Table.ofFn (f .highlight)
  matched := Table.ofFn (f .matched)
  comment := Table.ofFn (f .comment)
  data := Table.ofFn (f .data)

/-- The configuration registers, offsets 0x020..0x088 (10_state R23). -/
inductive ConfigReg where
  | dataBase | styleBase | dataLen | count | geom | scale | outBase | palCtrl
  | highlightBg | matchBg | commentBg | background | dataBg | emptyBg
  | anticPm | anticPf | anticBk
  | fontBase | fontLen | bakeBase | fontCtrl | fontSel
  | srcBase | srcDim | jmOffs | jmList | jmCount
deriving DecidableEq, Repr, Inhabited

/-- The aperture offset of a configuration register (10_state R23). -/
def ConfigReg.offset : ConfigReg → Nat
  | .dataBase => 0x020
  | .styleBase => 0x024
  | .dataLen => 0x028
  | .count => 0x02C
  | .geom => 0x030
  | .scale => 0x034
  | .outBase => 0x038
  | .palCtrl => 0x03C
  | .highlightBg => 0x040
  | .matchBg => 0x044
  | .commentBg => 0x048
  | .background => 0x04C
  | .dataBg => 0x050
  | .emptyBg => 0x054
  | .anticPm => 0x058
  | .anticPf => 0x05C
  | .anticBk => 0x060
  | .fontBase => 0x064
  | .fontLen => 0x068
  | .bakeBase => 0x06C
  | .fontCtrl => 0x070
  | .fontSel => 0x074
  | .srcBase => 0x078
  | .srcDim => 0x07C
  | .jmOffs => 0x080
  | .jmList => 0x084
  | .jmCount => 0x088

/-- Every configuration register. -/
def ConfigReg.all : List ConfigReg :=
  [.dataBase, .styleBase, .dataLen, .count, .geom, .scale, .outBase, .palCtrl,
   .highlightBg, .matchBg, .commentBg, .background, .dataBg, .emptyBg,
   .anticPm, .anticPf, .anticBk, .fontBase, .fontLen, .bakeBase, .fontCtrl, .fontSel,
   .srcBase, .srcDim, .jmOffs, .jmList, .jmCount]

/-- Whether an accepted write of the register clears FONT_STATE.VALID (10_state R47). -/
def ConfigReg.clearsFont : ConfigReg → Bool
  | .palCtrl | .highlightBg | .matchBg | .commentBg | .background | .dataBg => true
  | .anticPm | .anticPf | .anticBk => true
  | .fontBase | .fontLen | .bakeBase | .fontCtrl => true
  | .emptyBg | .fontSel | .scale | .geom | .count | .dataBase | .styleBase | .dataLen | .outBase => false
  | .srcBase | .srcDim | .jmOffs | .jmList | .jmCount => false

/-- The value a read of a configuration register returns; reserved bits read 0 (10_state R32..R52, R56). -/
def readConfig (c : Csrs) : ConfigReg → Word
  | .dataBase => c.dataBase
  | .styleBase => c.styleBase
  | .dataLen => c.dataLen
  | .count => c.count
  | .geom => c.numRows ++ c.bpr
  | .scale => 0#8 ++ c.zoom ++ c.scaleH ++ c.scaleW
  | .outBase => c.outBase
  | .palCtrl => (match c.cstd with | .ntsc => 0x00000000 | .pal => 0x00010000) ||| c.nreg.setWidth 32
  | .highlightBg => packRgb c.highlightBg
  | .matchBg => packRgb c.matchBg
  | .commentBg => packRgb c.commentBg
  | .background => packRgb c.background
  | .dataBg => packRgb c.dataBg
  | .emptyBg => packRgb c.emptyBg
  | .anticPm => c.antic[3] ++ c.antic[2] ++ c.antic[1] ++ c.antic[0]
  | .anticPf => c.antic[7] ++ c.antic[6] ++ c.antic[5] ++ c.antic[4]
  | .anticBk => c.antic[8].setWidth 32
  | .fontBase => c.fontBase
  | .fontLen => c.fontLen
  | .bakeBase => c.bakeBase
  | .fontCtrl => bitWord c.reverse ||| bitWord c.hasBlink <<< 1 ||| bitWord c.glyphs256 <<< 2
  | .fontSel => bitWord c.cmapAtascii ||| bitWord c.frame <<< 1
  | .srcBase => c.srcBase
  | .srcDim => c.srcH ++ c.srcW
  | .jmOffs => (c.hy ++ c.hx).setWidth 32
  | .jmList => c.jmList
  | .jmCount => c.jmCount.setWidth 32

/-- NREG after a PAL_CTRL write: bits [8:0] if they are 1..256, else unchanged (10_state R39). -/
def nregWrite (old : BitVec 9) (v : Word) : BitVec 9 :=
  let n : BitVec 9 := v.extractLsb' 0 9
  if 1 ≤ n.toNat ∧ n.toNat ≤ 256 then n else old

/-- The CSRs after an accepted write of `v` to a configuration register; writes to reserved bits are ignored
(10_state R32..R52, R56). FONT_STATE is not touched here (R47 is in HostPort.lean). -/
def writeConfig (c : Csrs) (v : Word) : ConfigReg → Csrs
  | .dataBase => { c with dataBase := v }
  | .styleBase => { c with styleBase := v }
  | .dataLen => { c with dataLen := v }
  | .count => { c with count := v }
  | .geom => { c with bpr := v.extractLsb' 0 16, numRows := v.extractLsb' 16 16 }
  | .scale => { c with scaleW := v.extractLsb' 0 8, scaleH := v.extractLsb' 8 8, zoom := v.extractLsb' 16 8 }
  | .outBase => { c with outBase := v }
  | .palCtrl => { c with nreg := nregWrite c.nreg v, cstd := if v.getLsbD 16 then .pal else .ntsc }
  | .highlightBg => { c with highlightBg := unpackRgb v }
  | .matchBg => { c with matchBg := unpackRgb v }
  | .commentBg => { c with commentBg := unpackRgb v }
  | .background => { c with background := unpackRgb v }
  | .dataBg => { c with dataBg := unpackRgb v }
  | .emptyBg => { c with emptyBg := unpackRgb v }
  | .anticPm =>
    { c with antic := ((c.antic.set 0 (v.extractLsb' 0 8)).set 1 (v.extractLsb' 8 8)).set 2 (v.extractLsb' 16 8)
        |>.set 3 (v.extractLsb' 24 8) }
  | .anticPf =>
    { c with antic := ((c.antic.set 4 (v.extractLsb' 0 8)).set 5 (v.extractLsb' 8 8)).set 6 (v.extractLsb' 16 8)
        |>.set 7 (v.extractLsb' 24 8) }
  | .anticBk => { c with antic := c.antic.set 8 (v.extractLsb' 0 8) }
  | .fontBase => { c with fontBase := v }
  | .fontLen => { c with fontLen := v }
  | .bakeBase => { c with bakeBase := v }
  | .fontCtrl => { c with reverse := v.getLsbD 0, hasBlink := v.getLsbD 1, glyphs256 := v.getLsbD 2 }
  | .fontSel => { c with cmapAtascii := v.getLsbD 0, frame := v.getLsbD 1 }
  | .srcBase => { c with srcBase := v }
  | .srcDim => { c with srcW := v.extractLsb' 0 16, srcH := v.extractLsb' 16 16 }
  | .jmOffs => { c with hx := v.extractLsb' 0 8, hy := v.extractLsb' 8 8 }
  | .jmList => { c with jmList := v }
  | .jmCount => { c with jmCount := v.extractLsb' 0 16 }

/-- What stands at an aligned aperture offset (10_state R23). -/
inductive CsrAt where
  | id | ctrl | cmd | status | irqEn | lastCmd | errAddr | fontState
  | config (r : ConfigReg)
  | jmHits
  | creg (k : Byte)
  | ps (c : StyleClass) (k : Byte)
  | reserved
deriving DecidableEq, Repr, Inhabited

/-- The register at offset `off`, a multiple of 4 (10_state R23, R54, R55, R56). -/
def csrAt (off : Nat) : CsrAt :=
  if off = 0x000 then .id
  else if off = 0x004 then .ctrl
  else if off = 0x008 then .cmd
  else if off = 0x00C then .status
  else if off = 0x010 then .irqEn
  else if off = 0x014 then .lastCmd
  else if off = 0x018 then .errAddr
  else if off = 0x01C then .fontState
  else if off = 0x08C then .jmHits
  else if 0x400 ≤ off ∧ off < 0x800 then .creg (BitVec.ofNat 8 ((off - 0x400) / 4))
  else if 0x800 ≤ off ∧ off < 0x1C00 then
    .ps (StyleClass.ofIndex ((off - 0x800) / 0x400)) (BitVec.ofNat 8 ((off - 0x800) % 0x400 / 4))
  else match ConfigReg.all.find? (fun r => r.offset = off) with
    | some r => .config r
    | none => .reserved

/-- The CSRs with every field drawn from words by offset, each field legal (93 item U4: "the model draws a new state
for every CSR the access could reach"). NREG keeps its legal range (10_state R39). -/
def csrsOfWords (f : Nat → Word) : Csrs :=
  let c := ConfigReg.all.foldl (fun c r => writeConfig c (f r.offset) r) Csrs.reset
  { c with
    status := { done := false, err := false, wign := (f 0x00C).getLsbD 3, errCode := none }
    irqEn := { doneIe := (f 0x010).getLsbD 0, errIe := (f 0x010).getLsbD 1 }
    lastCmd := f 0x014
    errAddr := f 0x018
    font := { valid := (f 0x01C).getLsbD 0, cw7 := (f 0x01C).getLsbD 1, bmode := (f 0x01C).extractLsb' 4 3 }
    jmHits := (f 0x08C).extractLsb' 0 16 }

/-- A palette set of free values: draw `n` of the PS window (93 item U2). -/
def freePalettes (n : Nat) : PaletteSet :=
  PaletteSet.ofFn fun c k => unpackRgb (Config.freeWord n (0x800 + 0x400 * c.index + 4 * k))

/-- A CREG of free values: draw `n` of the CREG window (93 item U1). -/
def freeCreg (n : Nat) : Table RGB := Table.ofFn fun k => unpackRgb (Config.freeWord n (0x400 + 4 * k))

end Sys2Proof.Machine
end

