-- ==== Sys2Proof/Machine/Ops.lean ====
section
/-! DEFINITION. The shared operations: memory, engine accesses, the region checks, the end of a command (success, and
the error response of 60_exceptions R213, the analogue of taking an exception), and a command as checks plus work. -/

namespace Sys2Proof.Machine

/-! ## Memory (20_memory) -/

/-- The byte at an address (20_memory R79). -/
def Memory.read (m : Memory) (a : Nat) : Byte :=
  match m with
  | [] => Config.unwrittenByte
  | (b, v) :: rest => if a = b then v else Memory.read rest a

/-- Memory with one byte written, in canonical form again if it was in it (20_memory R79). -/
def Memory.write (m : Memory) (a : Nat) (v : Byte) : Memory :=
  match m with
  | [] => if v = Config.unwrittenByte then [] else [(a, v)]
  | (b, w) :: rest =>
    if a < b then (if v = Config.unwrittenByte then (b, w) :: rest else (a, v) :: (b, w) :: rest)
    else if a = b then (if v = Config.unwrittenByte then rest else (a, v) :: rest)
    else (b, w) :: Memory.write rest a v

/-- The cells that list the bytes `f 0, .., f (len - 1)` from `base` on. -/
def Memory.segment (base len : Nat) (f : Nat → Byte) : List Host.Cell :=
  (List.range len).filterMap fun k =>
    let v := f k
    if v = Config.unwrittenByte then none else some (base + k, v)

/-- Memory with the bytes `f 0, .., f (len - 1)` written from `base` on. The order of a command's writes is not
observable (20_memory R88), so the region is written at once. -/
def Memory.fill (m : Memory) (base len : Nat) (f : Nat → Byte) : Memory :=
  if len = 0 then m
  else m.filter (fun c => c.1 < base) ++ Memory.segment base len f ++ m.filter (fun c => base + len ≤ c.1)

/-- The canonical form: addresses strictly rising and inside the 32-bit space (20_memory R75), no byte listed that an
unlisted address reads as. -/
abbrev Memory.wf (m : Memory) : Prop :=
  m.Pairwise (fun c d => c.1 < d.1) ∧ ∀ c ∈ m, c.2 ≠ Config.unwrittenByte ∧ c.1 < 2 ^ 32

/-! ## Regions (20_memory R76..R78) -/

/-- A span of memory that a command may touch (20_memory R76). -/
structure Region where
  base : Nat
  len : Nat
deriving DecidableEq, Repr, Inhabited

/-- The region of no byte. -/
def Region.empty : Region := ⟨0, 0⟩

/-- In range: `base + len ≤ 2^32`, without wrap-around (20_memory R77). -/
def Region.inRange (r : Region) : Bool := decide (r.base + r.len ≤ 2 ^ 32)

/-- Two regions overlap (20_memory R78). -/
def Region.overlaps (r q : Region) : Bool :=
  decide (0 < r.len) && decide (0 < q.len) && decide (r.base < q.base + q.len) && decide (q.base < r.base + r.len)

/-- Whether an address lies in the region. -/
def Region.has (r : Region) (a : Nat) : Bool := decide (r.base ≤ a) && decide (a < r.base + r.len)

/-- The addresses of a region, rising. -/
def Region.addrs (r : Region) : List Nat := (List.range r.len).map (r.base + ·)

/-! ## Engine accesses -/

/-- The direction of an engine access (60_exceptions R216). -/
inductive Dir where
  | read
  | write
deriving DecidableEq, Repr, Inhabited

/-- The platform predicate P_BUS_ERROR (00_scope R8, 60_exceptions R216). -/
def State.busError (s : State) (d : Dir) (a : Nat) : Bool :=
  s.platform.busErrors.any fun r =>
    (match d with | .read => r.onRead | .write => r.onWrite) && decide (r.base ≤ a) && decide (a < r.base + r.len)

/-- Whether an address lies in the CSR aperture `[P_CSR_BASE, P_CSR_BASE + 0x2000)` (20_memory R75). -/
def State.inAperture (s : State) (a : Nat) : Bool :=
  decide (s.platform.csrBase.toNat ≤ a) && decide (a < s.platform.csrBase.toNat + 0x2000)

/-- The values that an input byte held before the host's writes of it during the running command, the latest first
(20_memory R86, log 12). -/
def State.heldBefore (s : State) (a : Nat) : List Byte := (s.inTouched.filter (·.1 == a)).map (·.2)

/-- `MemRead8(a)` (00_scope R11). In the CSR aperture it returns a free value, a new one for each occurrence of the
read (20_memory R75, 93 item U4; logs 11 and 22). A byte that the host wrote during the command is read with any of the
values it held, a free choice for each occurrence (R86: the engine may read it more than once and in any order; log 12). -/
def State.engineRead (s : State) (occurrence a : Nat) : Byte :=
  if s.inAperture a then Config.apertureByte s.draws occurrence a
  else
    match s.heldBefore a with
    | [] => s.mem.read a
    | old => (s.mem.read a :: old).getD (Config.heldPick s.draws occurrence a % (old.length + 1)) 0

/-- Every CSR, CREG and PS after an engine write into the aperture: free values (93 item U4, log 11). -/
def State.scrambleCsrs (s : State) : State :=
  { s with
    csr := csrsOfWords (Config.freeWord s.draws)
    creg := freeCreg s.draws
    ps := freePalettes s.draws }

/-! ## The end of a command -/

/-- The engine back in IDLE (10_state R22); nothing of the command's progress persists (R65). -/
def State.toIdle (s : State) : State :=
  { s with phase := .idle, runFor := 0, inTouched := [], outTouched := [] }

/-- "end command with success": DONE is set and BUSY cleared as one event (70_reset R248 step 3). -/
def endSuccess (s : State) : State :=
  { s.toIdle with
    csr := { s.csr with status := { s.csr.status with done := true, err := false, errCode := none } } }

/-- The error response, the analogue of taking an exception (60_exceptions R213): ERR, ERRCODE and, for BUS, ERR_ADDR
are recorded, BUSY is cleared, and nothing else is saved. -/
def takeError (e : ErrCode) (failing : Option Nat) (s : State) : State :=
  { s.toIdle with
    csr := { s.csr with
      status := { s.csr.status with done := false, err := true, errCode := some e }
      errAddr := (match failing with | some a => BitVec.ofNat 32 a | none => s.csr.errAddr) } }

/-- The clear of an error, the analogue of returning from an exception (60_exceptions R217): a write of 1 to STATUS.ERR
clears ERR and ERRCODE. ERR_ADDR survives it. -/
def clearError (c : Csrs) : Csrs := { c with status := { c.status with err := false, errCode := none } }

/-! ## A command as checks plus work -/

/-- What a command does once its checks have passed (60_exceptions R214): the addresses it reads and writes, its read
and write regions (20_memory R76), the byte it leaves at each offset of the write region, and the PS, FONT_STATE and
JM_HITS it sets at its end (70_reset R248). -/
structure Work where
  reads : List Nat
  writes : List Nat
  readRegions : List Region
  out : Region
  byteAt : Nat → Byte
  ps : Option PaletteSet
  font : Option FontState
  hits : Option Nat

/-- The work of a command that touches no memory and sets no table. -/
def Work.none : Work where
  reads := []
  writes := []
  readRegions := []
  out := Region.empty
  byteAt := fun _ => 0
  ps := Option.none
  font := Option.none
  hits := Option.none

/-- A command: the first check that fails, and the work if none does. -/
structure Plan where
  error : Option ErrCode
  work : Work

/-- The first check that holds, in the order listed (60_exceptions R214). -/
def firstError : List (Bool × ErrCode) → Option ErrCode
  | [] => none
  | (failed, e) :: rest => if failed then some e else firstError rest

/-- The addresses at which the command's accesses return a bus error (60_exceptions R216). -/
def Work.failing (w : Work) (s : State) : List Nat :=
  w.reads.filter (s.busError .read) ++ w.writes.filter (s.busError .write)

/-- Whether the byte at an address is UNSPECIFIED at the command's end: every byte of the write region if an access fails
(60_exceptions R216), a byte that the host wrote during the command (70_reset R240, log 13), and every byte that the
command writes if the host wrote one of its inputs (20_memory R86, log 12). -/
def Work.unspecified (w : Work) (s : State) (failed : Bool) (a : Nat) : Bool :=
  failed || s.outTouched.contains a || (!s.inTouched.isEmpty && w.writes.contains a)

/-- The byte that stands at offset `k` of the write region at the command's end; `failed` says that an access failed. A
byte of the CSR aperture is no memory (20_memory R75). -/
def Work.finalByte (w : Work) (s : State) (failed : Bool) (k : Nat) : Byte :=
  let a := w.out.base + k
  if s.inAperture a then s.mem.read a
  else if w.unspecified s failed a then Config.freeByte s.draws a
  else w.byteAt k

/-- The byte at offset `k` of the write region that the running command would leave. Where an access of it fails, every
such byte is the free value of a BUS end (60_exceptions R216). -/
def Work.pendingByte (w : Work) (s : State) (k : Nat) : Byte := w.finalByte s (!(w.failing s).isEmpty) k

/-- Whether the command writes into the CSR aperture. A write that the platform fails has no effect (60_exceptions R216),
there as elsewhere: DESIGN CHOICE between R216 and 20_memory R75 (log 11). A write that does not fail itself counts also
where it waits for a read that fails, such as HARVEST's write of a plane byte whose own read fails (20_memory R91), although
R216 ends the command before it: DESIGN CHOICE (log 11). -/
def Work.writesCsrs (w : Work) (s : State) : Bool := w.writes.any fun a => s.inAperture a && !s.busError .write a

/-- The command's writes to memory, and to the CSRs where one of them falls in the aperture and does not fail (93 item
U4). Where another access of the command fails, such a write may come before it or never (20_memory R88), or only never
where the failing access is a read that feeds it, and the CSRs are drawn in each case: DESIGN CHOICE (log 11). -/
def Work.store (w : Work) (s : State) (failed : Bool) : State :=
  let t := { s with mem := s.mem.fill w.out.base w.out.len (w.finalByte s failed) }
  if w.writesCsrs s then t.scrambleCsrs else t

/-- JM_HITS where it is UNSPECIFIED: a free value in 0..JM_COUNT (46_jumpman R207, 93 item U6). -/
def State.unspecifiedHits (s : State) : Nat := Config.freeHits s.draws % (s.csr.jmCount.toNat + 1)

/-- The PS, FONT_STATE and JM_HITS that a command sets at its end (70_reset R248 step 2). -/
def publish (ps : Option PaletteSet) (font : Option FontState) (hits : Option Nat) (s : State) : State :=
  { s with
    ps := ps.getD s.ps
    csr := { s.csr with
      font := font.getD s.csr.font
      jmHits := (match hits with | some n => BitVec.ofNat 16 n | none => s.csr.jmHits) } }

/-- FONT_STATE of a BAKE that ends with BUS: VALID 0, the rest as it stands (42_font_baker R148, 60_exceptions R216). -/
def invalidFont (s : State) : FontState := { s.csr.font with valid := false }

/-- The command's work, as one step (70_reset R247), then its end (R248): success, or BUS when an access fails
(60_exceptions R216). A BAKE that ends with BUS leaves VALID 0 also where it drew the CSRs through the aperture, since
R148 and R216 say so of every BAKE; CW7 and BMODE are then as drawn: DESIGN CHOICE (log 11). -/
def Work.complete (w : Work) (s : State) : State :=
  match w.failing s with
  | [] => endSuccess (publish w.ps w.font w.hits (w.store s false))
  | a :: rest =>
    let reported := (a :: rest).getD (Config.failingPick s.draws % (rest.length + 1)) a
    let t := w.store s true
    takeError .bus (some reported)
      (publish w.ps (w.font.map fun _ => invalidFont t) (w.hits.map fun _ => s.unspecifiedHits) t)

/-- Run a command: a failed check ends it with its code and nothing done (60_exceptions R215), else it does its work. -/
def runPlan (p : Plan) (s : State) : Host.Outcome State Fault Refusal :=
  match p.error with
  | some e => .next (takeError e none s)
  | none => .next (p.work.complete s)

/-! ## Acceptance effects of a command itself -/

/-- FONT_STATE.VALID cleared, the other fields kept (10_state R47, 42_font_baker R148). -/
def clearFontValid (s : State) : State :=
  { s with csr := { s.csr with font := { s.csr.font with valid := false } } }

/-- JM_HITS cleared (10_state R53). -/
def clearHits (s : State) : State := { s with csr := { s.csr with jmHits := 0 } }

end Sys2Proof.Machine
end

