-- ==== Sys2Proof/Machine/Operands.lean ====
section
/-! DEFINITION. The operand forms every command shares: the buffer operands of the CSRs, the guarded byte reads, an image
in memory, the integer scale and the bit-reverse table. -/

namespace Sys2Proof.Machine

/-- The effective count `cnt = min(COUNT, DATA_LEN)` (43_bitmap_renderers R154). -/
def effectiveCount (c : Csrs) : Nat := min c.count.toNat c.dataLen.toNat

/-- The data region (20_memory R76). -/
def dataRegion (c : Csrs) : Region := ⟨c.dataBase.toNat, effectiveCount c⟩

/-- The style region (20_memory R76). -/
def styleRegion (c : Csrs) : Region := ⟨c.styleBase.toNat, effectiveCount c⟩

/-- The output region of a `w` x `h` image (20_memory R76). -/
def outRegion (c : Csrs) (w h : Nat) : Region := ⟨c.outBase.toNat, 3 * w * h⟩

/-- The guarded data read `D(i)` (43_bitmap_renderers R155). -/
def dataByte (s : State) (occurrence i : Nat) : Byte :=
  if i < effectiveCount s.csr then s.engineRead occurrence (s.csr.dataBase.toNat + i) else 0

/-- The guarded style read `S(i)` (43_bitmap_renderers R155). -/
def styleByte (s : State) (occurrence i : Nat) : Byte :=
  if i < effectiveCount s.csr then s.engineRead occurrence (s.csr.styleBase.toNat + i) else 0

/-- The addresses that guarded reads of the given indices access (43_bitmap_renderers R155). -/
def guardedAddrs (c : Csrs) (base : Nat) (indices : List Nat) : List Nat :=
  (indices.filter (fun i => decide (i < effectiveCount c))).map (base + ·)

/-- Channel 0 R, 1 G, 2 B of a colour: the order of a pixel's bytes (20_memory R80). -/
def channel (c : RGB) : Nat → Byte
  | 0 => c.r
  | 1 => c.g
  | _ => c.b

/-- An image: the colour at row y, column x (00_scope R14). -/
abbrev Image := Nat → Nat → RGB

/-- Byte `k` of the row-major form of an image of width `w` (00_scope R14, 20_memory R80). -/
def imageByte (w : Nat) (img : Image) (k : Nat) : Byte := channel (img (k / 3 / w) (k / 3 % w)) (k % 3)

/-- `Scale(pre, sh, sw)`: nearest-neighbour upscale by sh vertically and sw horizontally (40_utilities R114). -/
def scaleImage (pre : Image) (sh sw : Nat) : Image := fun y x => pre (y / sh) (x / sw)

/-- `WScale(pre, sw)`: the width-only scale (40_utilities R115). -/
def widthScale (pre : Image) (sw : Nat) : Image := scaleImage pre 1 sw

/-- Bit `i` of a byte, as 0 or 1 (00_scope R9). -/
def bitOf (b : Byte) (i : Nat) : Byte := (b >>> i) &&& 1

/-- `BITREV[b]`: bit i moves to bit 7 - i (40_utilities R113). -/
def bitReverse (b : Byte) : Byte :=
  (List.range 8).foldl (fun acc i => acc ||| bitOf b i <<< (7 - i)) 0

/-- `STD(i)`: the colour-standard ROM that PAL_CTRL.CSTD selects (10_state R62). -/
def standardColour (s : State) (i : Byte) : RGB :=
  match s.csr.cstd with
  | .ntsc => Table.get s.platform.ntscRgb i
  | .pal => Table.get s.platform.palRgb i

/-- `CMAP_T[FONT_SEL.CMAP][v]`: the character map that FONT_SEL.CMAP selects (10_state R63, 44_font_renderer R192). -/
def mapCharacter (s : State) (v : Byte) : Byte :=
  if s.csr.cmapAtascii then Table.get s.platform.cmapAtascii v else Table.get s.platform.cmapInternal v

/-- `ANTIC[k]` (10_state R59). -/
def anticByte (c : Csrs) (k : Fin 9) : Byte := c.antic[k]

end Sys2Proof.Machine
end

