-- ==== Sys2Proof/Machine/Palette.lean ====
section
/-! DEFINITION. The palette set and the PALBUILD commands (41_palette), and the style class (45_style_composer). -/

namespace Sys2Proof.Machine

/-- A palette source (41_palette R124). -/
inductive PaletteSource where
  | direct
  | antic
  | gtia9
  | gtia11
deriving DecidableEq, Repr, Inhabited

/-- One channel of the 50/50 blend: the average rounded down (41_palette R125). -/
def blendChannel (a b : Byte) : Byte := BitVec.ofNat 8 ((a.toNat + b.toNat) / 2)

/-- `Blend(a, b)` (41_palette R125). -/
def blend (a b : RGB) : RGB := ⟨blendChannel a.r b.r, blendChannel a.g b.g, blendChannel a.b b.b⟩

/-- `clamp8` of an integer: into 0..255 (00_scope R9). -/
def clamp8 (v : Int) : Byte := BitVec.ofNat 8 (max 0 (min 255 v)).toNat

/-- One channel of the dim: `clamp8(a - (w - d))` on signed integers (41_palette R126). -/
def dimChannel (a w d : Byte) : Byte := clamp8 ((a.toNat : Int) - ((w.toNat : Int) - (d.toNat : Int)))

/-- `Dim(a, w, d)` (41_palette R126). -/
def dim (a w d : RGB) : RGB := ⟨dimChannel a.r w.r d.r, dimChannel a.g w.g d.g, dimChannel a.b w.b d.b⟩

/-- The entry count N of a source, N_eff of a command that uses it (41_palette R124, R132). -/
def sourceCount (c : Csrs) : PaletteSource → Nat
  | .direct => c.nreg.toNat
  | .antic => 9
  | .gtia9 => 16
  | .gtia11 => 16

/-- Entry k of the normal palette n of a source, for k below its count (41_palette R124, R128..R131). -/
def sourceColour (s : State) (src : PaletteSource) (k : Nat) : RGB :=
  match src with
  | .direct => Table.get s.creg (BitVec.ofNat 8 k)
  | .antic => standardColour s (anticByte s.csr (Fin.ofNat 9 k))
  | .gtia9 => standardColour s ((anticByte s.csr 8 &&& 0xF0) ||| BitVec.ofNat 8 k)
  | .gtia11 => standardColour s ((BitVec.ofNat 8 k <<< 4) ||| (anticByte s.csr 8 &&& 0x0F))

/-- The bank-c version of a normal colour (41_palette R124). -/
def styledColour (c : Csrs) (n : RGB) : StyleClass → RGB
  | .normal => n
  | .highlight => blend n c.highlightBg
  | .matched => blend n c.matchBg
  | .comment => blend n c.commentBg
  | .data => dim n c.background c.dataBg

/-- `BuildPalettes(src)`: the five banks of PS; entries at or above the count are 0 (41_palette R124). -/
def buildPalettes (s : State) (src : PaletteSource) : PaletteSet :=
  PaletteSet.ofFn fun c k => if k < sourceCount s.csr src then styledColour s.csr (sourceColour s src k) c else .black

/-- `Pal(c, k) = PS[c][k < N ? k : 0]`: the silent clamp of a colour index (41_palette R127). -/
def paletteEntry (p : PaletteSet) (n : Nat) (c : StyleClass) (k : Byte) : RGB :=
  Table.get (p.bank c) (if k.toNat < n then k else 0)

/-- The style class of a style byte: highlight, then match, then comment, then data, then normal (45_style_composer
R198, R199). -/
def styleClass (b : Byte) : StyleClass :=
  if b &&& 0x80 = 0x80 then .highlight
  else if b &&& 0x40 = 0x40 then .matched
  else if b &&& 0x20 = 0x20 then .comment
  else if b &&& 0x10 = 0x10 then .data
  else .normal

/-- The common body of the PALBUILD commands: no check, PS rebuilt, no memory access (41_palette R128..R131). -/
def palbuildPlan (src : PaletteSource) (s : State) : Plan :=
  { error := none, work := { Work.none with ps := some (buildPalettes s src) } }

/-- PALBUILD.DIRECT as checks and work (41_palette R128). -/
def planPalbuildDirect (s : State) : Plan := palbuildPlan .direct s

/-- PALBUILD.ANTIC as checks and work (41_palette R129). -/
def planPalbuildAntic (s : State) : Plan := palbuildPlan .antic s

/-- PALBUILD.GTIA9 as checks and work (41_palette R130). -/
def planPalbuildGtia9 (s : State) : Plan := palbuildPlan .gtia9 s

/-- PALBUILD.GTIA11 as checks and work (41_palette R131). -/
def planPalbuildGtia11 (s : State) : Plan := palbuildPlan .gtia11 s

/-- PALBUILD.DIRECT (41_palette R128). -/
def execPalbuildDirect (s : State) : Host.Outcome State Fault Refusal := runPlan (planPalbuildDirect s) s

/-- PALBUILD.ANTIC (41_palette R129). -/
def execPalbuildAntic (s : State) : Host.Outcome State Fault Refusal := runPlan (planPalbuildAntic s) s

/-- PALBUILD.GTIA9 (41_palette R130). -/
def execPalbuildGtia9 (s : State) : Host.Outcome State Fault Refusal := runPlan (planPalbuildGtia9 s) s

/-- PALBUILD.GTIA11 (41_palette R131). -/
def execPalbuildGtia11 (s : State) : Host.Outcome State Fault Refusal := runPlan (planPalbuildGtia11 s) s

end Sys2Proof.Machine
end

