-- ==== Sys2Proof/Machine/Bake.lean ====
section
/-! DEFINITION. The font baker: the five BAKE commands (42_font_baker). -/

namespace Sys2Proof.Machine

/-! ## The common procedure -/

/-- A bake mode: its SUB code, cell width, palette source, number of source glyphs, the source glyph of a slot, and the
pixel of a slot as a function of the class's palette, the frame, the slot, the column and the glyph row byte
(42_font_baker R137). -/
structure BakeMode where
  code : BitVec 3
  cell7 : Bool
  source : PaletteSource
  glyphs : Nat
  glyphOf : (slot : Nat) → Nat
  pixel : (pal : Byte → RGB) → (frame slot col : Nat) → (row : Byte) → RGB

/-- The cell width CW: 7 for Apple ][ text, else 8 (42_font_baker R137, R149). -/
def cellWidth (cell7 : Bool) : Nat := if cell7 then 7 else 8

/-- `T(CW) = 61440 * CW`, the bytes of the baked tables (42_font_baker R138). -/
def bakedSize (cw : Nat) : Nat := 5 * 2 * 256 * 8 * cw * 3

/-- `BakeAddr(c, f, s, r, u) - BAKE_BASE` (42_font_baker R138). -/
def bakeOffset (cw cls frame slot row col : Nat) : Nat := 3 * ((((cls * 2 + frame) * 256 + slot) * 8 + row) * cw + col)

/-- The baked-table region (20_memory R76). -/
def bakedRegion (c : Csrs) (cw : Nat) : Region := ⟨c.bakeBase.toNat, bakedSize cw⟩

/-- The bytes of the glyph blob that are read at most: `min(FONT_LEN, E)` with E = 8 * glyphs (42_font_baker R139). -/
def blobLength (c : Csrs) (glyphs : Nat) : Nat := min c.fontLen.toNat (8 * glyphs)

/-- The glyph blob region (20_memory R76). -/
def blobRegion (c : Csrs) (glyphs : Nat) : Region := ⟨c.fontBase.toNat, blobLength c glyphs⟩

/-- `FB(i)`: byte i of the glyph blob, 0 past its end (42_font_baker R139). -/
def blobByte (s : State) (glyphs occurrence i : Nat) : Byte :=
  if i < blobLength s.csr glyphs then s.engineRead occurrence (s.csr.fontBase.toNat + i) else 0

/-- The baked pixel at class, frame, slot, row and column (42_font_baker R137). `occurrence` is the pixel's number. -/
def bakePixel (m : BakeMode) (s : State) (p : PaletteSet) (n occurrence : Nat) (cls : StyleClass)
    (frame slot row col : Nat) : RGB :=
  m.pixel (paletteEntry p n cls) frame slot col (blobByte s m.glyphs occurrence (8 * m.glyphOf slot + row))

/-- Byte `k` of the baked tables: the inverse of `bakeOffset` names its class, frame, slot, row and column
(42_font_baker R138). -/
def bakedByte (m : BakeMode) (s : State) (p : PaletteSet) (n k : Nat) : Byte :=
  let cw := cellWidth m.cell7
  let q := k / 3
  let row := q / cw
  let slot := row / 8
  let frame := slot / 256
  channel (bakePixel m s p n q (StyleClass.ofIndex (frame / 2)) (frame % 2) (slot % 256) (row % 8) (q % cw)) (k % 3)

/-- The addresses of the glyph blob that a BAKE reads (42_font_baker R139, 20_memory R76). -/
def blobReads (m : BakeMode) (c : Csrs) : List Nat :=
  (List.range (256 * 8)).filterMap fun q =>
    let i := 8 * m.glyphOf (q / 8) + q % 8
    if i < blobLength c m.glyphs then some (c.fontBase.toNat + i) else none

/-- FONT_STATE after a BAKE that succeeds (42_font_baker R148). -/
def BakeMode.fontState (m : BakeMode) : FontState := { valid := true, cw7 := m.cell7, bmode := m.code }

/-- BAKE with a mode: RANGE, then OVERLAP, then the palettes and the tables (42_font_baker R137). -/
def bakePlan (m : BakeMode) (s : State) : Plan :=
  let c := s.csr
  let font := blobRegion c m.glyphs
  let out := bakedRegion c (cellWidth m.cell7)
  let p := buildPalettes s m.source
  let n := sourceCount c m.source
  { error := firstError
      [ (!font.inRange || !out.inRange, .range),
        (out.overlaps font, .overlap) ]
    work :=
      { Work.none with
        reads := blobReads m c
        writes := out.addrs
        readRegions := [font]
        out := out
        byteAt := bakedByte m s p n
        ps := some p
        font := some m.fontState } }

/-! ## The modes -/

/-- Entry `4 + q` of the class's palette: playfield q (42_font_baker R140). -/
def playfield (pal : Byte → RGB) (q : Nat) : RGB := pal (BitVec.ofNat 8 (4 + q))

/-- BAKE.GR0: foreground pf1, background pf2, slots 128..255 inverse, REVERSE complements (42_font_baker R141, R146). -/
def modeBakeGr0 (c : Csrs) : BakeMode where
  code := 0
  cell7 := false
  source := .antic
  glyphs := 128
  glyphOf := fun slot => slot % 128
  pixel := fun pal _ slot col row =>
    let inverse := decide (128 ≤ slot) ^^ c.reverse
    if (decide (bitOf row (7 - col) = 1) ^^ inverse) then playfield pal 1 else playfield pal 2

/-- BAKE.ANTIC4: four two-bit pixels doubled to 8; pair 3 is pf2, or pf3 in the inverse half (42_font_baker R142, R146). -/
def modeBakeAntic4 (c : Csrs) : BakeMode where
  code := 1
  cell7 := false
  source := .antic
  glyphs := 128
  glyphOf := fun slot => slot % 128
  pixel := fun pal _ slot col row =>
    let inverse := decide (128 ≤ slot) ^^ c.reverse
    let narrow : Image := fun _ x =>
      match ((row >>> (6 - 2 * x)) &&& 3).toNat with
      | 0 => pal 8
      | 1 => playfield pal 0
      | 2 => playfield pal 1
      | _ => if inverse then playfield pal 3 else playfield pal 2
    widthScale narrow 2 0 col

/-- The pixel of the GR.1/GR.2 modes: band slot / 64 selects the playfield colour, REVERSE swaps it with the background
(42_font_baker R143). -/
def gr12Pixel (c : Csrs) (pal : Byte → RGB) (slot col : Nat) (row : Byte) : RGB :=
  if (decide (bitOf row (7 - col) = 1) ^^ c.reverse) then playfield pal (slot / 64) else pal 8

/-- BAKE.GR12_UPPER: source glyphs 0..63 (42_font_baker R143). -/
def modeBakeGr12Upper (c : Csrs) : BakeMode where
  code := 2
  cell7 := false
  source := .antic
  glyphs := 128
  glyphOf := fun slot => slot % 64
  pixel := fun pal _ slot col row => gr12Pixel c pal slot col row

/-- BAKE.GR12_LOWER: source glyphs 64..127 (42_font_baker R144). -/
def modeBakeGr12Lower (c : Csrs) : BakeMode where
  code := 3
  cell7 := false
  source := .antic
  glyphs := 128
  glyphOf := fun slot => slot % 64 + 64
  pixel := fun pal _ slot col row => gr12Pixel c pal slot col row

/-- Whether an Apple ][ slot is inverse before REVERSE: slots 0..63, and blinking slots 64..127 in frame 0
(42_font_baker R145, R147). -/
def appleInverse (c : Csrs) (frame slot : Nat) : Bool :=
  if c.glyphs256 then false
  else if slot < 64 then true
  else if slot < 128 ∧ c.hasBlink then decide (frame = 0)
  else false

/-- BAKE.APPLE: 7 wide, bit-reversed rows, registers 0 off and 1 on (42_font_baker R145, R140). -/
def modeBakeApple (c : Csrs) : BakeMode where
  code := 4
  cell7 := true
  source := .direct
  glyphs := if c.glyphs256 then 256 else 128
  glyphOf := fun slot => if c.glyphs256 then slot else slot % 128
  pixel := fun pal frame slot col row =>
    let inverse := appleInverse c frame slot ^^ c.reverse
    if (decide (bitOf (bitReverse row) (7 - col) = 1) ^^ inverse) then pal 1 else pal 0

/-! ## The commands -/

/-- BAKE.GR0 as checks and work. -/
def planBakeGr0 (s : State) : Plan := bakePlan (modeBakeGr0 s.csr) s
/-- BAKE.ANTIC4 as checks and work. -/
def planBakeAntic4 (s : State) : Plan := bakePlan (modeBakeAntic4 s.csr) s
/-- BAKE.GR12_UPPER as checks and work. -/
def planBakeGr12Upper (s : State) : Plan := bakePlan (modeBakeGr12Upper s.csr) s
/-- BAKE.GR12_LOWER as checks and work. -/
def planBakeGr12Lower (s : State) : Plan := bakePlan (modeBakeGr12Lower s.csr) s
/-- BAKE.APPLE as checks and work. -/
def planBakeApple (s : State) : Plan := bakePlan (modeBakeApple s.csr) s

/-- BAKE.GR0 (42_font_baker R141); FONT_STATE.VALID is 0 from its acceptance on (R137). -/
def execBakeGr0 (s : State) : Host.Outcome State Fault Refusal := runPlan (planBakeGr0 s) (clearFontValid s)
/-- BAKE.ANTIC4 (42_font_baker R142, R137). -/
def execBakeAntic4 (s : State) : Host.Outcome State Fault Refusal := runPlan (planBakeAntic4 s) (clearFontValid s)
/-- BAKE.GR12_UPPER (42_font_baker R143, R137). -/
def execBakeGr12Upper (s : State) : Host.Outcome State Fault Refusal :=
  runPlan (planBakeGr12Upper s) (clearFontValid s)
/-- BAKE.GR12_LOWER (42_font_baker R144, R137). -/
def execBakeGr12Lower (s : State) : Host.Outcome State Fault Refusal :=
  runPlan (planBakeGr12Lower s) (clearFontValid s)
/-- BAKE.APPLE (42_font_baker R145, R137). -/
def execBakeApple (s : State) : Host.Outcome State Fault Refusal := runPlan (planBakeApple s) (clearFontValid s)

end Sys2Proof.Machine
end

