-- ==== Sys2Proof/Machine/Flags.lean ====
section
/-! DEFINITION. The flags: STATUS as a word and its write-1-to-clear, WIGN, IRQ_EN, FONT_STATE as a word, and the
interrupt line (10_state R27, R28, R31, R57, R66, R67). -/

namespace Sys2Proof.Machine

/-- The ERRCODE value of an error (60_exceptions R212). -/
def ErrCode.value : ErrCode → BitVec 4
  | .badOpcode => 1
  | .rendererNotFound => 2
  | .reservedField => 3
  | .scale => 4
  | .geometry => 5
  | .noFont => 6
  | .range => 7
  | .overlap => 8
  | .bus => 9

/-- The ERRCODE field: 0 when no error is recorded (60_exceptions R212). -/
def errCodeField (e : Option ErrCode) : BitVec 4 :=
  match e with
  | some e => e.value
  | none => 0

/-- STATUS.BUSY (10_state R22). -/
def State.busy (s : State) : Bool := s.phase == .run

/-- The STATUS word: BUSY [0], DONE [1], ERR [2], WIGN [3], ERRCODE [11:8], the rest 0 (10_state R27). -/
def statusWord (s : State) : Word :=
  bitWord s.busy ||| bitWord s.csr.status.done <<< 1 ||| bitWord s.csr.status.err <<< 2
    ||| bitWord s.csr.status.wign <<< 3 ||| (errCodeField s.csr.status.errCode).setWidth 32 <<< 8

/-- A STATUS write: a 1 in DONE, ERR or WIGN clears it, and clearing ERR clears ERRCODE (10_state R27, 60_exceptions
R217, R219). -/
def writeStatus (c : Csrs) (v : Word) : Csrs :=
  let c := if v.getLsbD 1 then { c with status := { c.status with done := false } } else c
  let c := if v.getLsbD 2 then clearError c else c
  if v.getLsbD 3 then { c with status := { c.status with wign := false } } else c

/-- A write ignored because the engine is busy (10_state R57). -/
def setWign (s : State) : State := { s with csr := { s.csr with status := { s.csr.status with wign := true } } }

/-- The IRQ_EN word (10_state R28). -/
def irqEnWord (c : Csrs) : Word := bitWord c.irqEn.doneIe ||| bitWord c.irqEn.errIe <<< 1

/-- An IRQ_EN write (10_state R28). -/
def writeIrqEn (c : Csrs) (v : Word) : Csrs := { c with irqEn := { doneIe := v.getLsbD 0, errIe := v.getLsbD 1 } }

/-- The FONT_STATE word: VALID [0], CW7 [1], BMODE [6:4] (10_state R31). -/
def fontStateWord (c : Csrs) : Word :=
  bitWord c.font.valid ||| bitWord c.font.cw7 <<< 1 ||| c.font.bmode.setWidth 32 <<< 4

/-- The level-sensitive interrupt line (10_state R66, 60_exceptions R221). -/
def irqLine (s : State) : Bool :=
  (s.csr.status.done && s.csr.irqEn.doneIe) || (s.csr.status.err && s.csr.irqEn.errIe)

end Sys2Proof.Machine
end

