-- ==== Sys2Proof/Machine/FontRender.lean ====
section
/-! DEFINITION. FRENDER: a text screen from the baked tables (44_font_renderer R190..R193). -/

namespace Sys2Proof.Machine

/-- Where the pixel of a content cell stands in the baked tables (44_font_renderer R190): the slot of the data byte through
the character map, the class of the style byte, the frame FONT_SEL.FRAME, row r and column u of the cell. -/
def glyphPixelAddr (s : State) (cw : Nat) (dataVal styleVal : Byte) (r u : Nat) : Nat :=
  s.csr.bakeBase.toNat +
    bakeOffset cw (styleClass styleVal).index s.csr.frame.toNat (mapCharacter s dataVal).toNat r u

/-- The cell byte and the style byte of a content cell, as output pixel `occurrence` reads them (44_font_renderer R190). -/
def cellBytes (s : State) (occurrence i : Nat) : Byte × Byte :=
  (s.engineRead (2 * occurrence) (s.csr.dataBase.toNat + i), s.engineRead (2 * occurrence + 1) (s.csr.styleBase.toNat + i))

/-- The colour of a pre-scale pixel: BACKGROUND for a cell at or past cnt (44_font_renderer R191), else the baked glyph
pixel (R190). -/
def fontPixel (s : State) (cw occurrence y x : Nat) : RGB :=
  let i := y / 8 * s.csr.bpr.toNat + x / cw
  if effectiveCount s.csr ≤ i then s.csr.background
  else
    let b := cellBytes s occurrence i
    let a := glyphPixelAddr s cw b.1 b.2 (y % 8) (x % cw)
    ⟨s.engineRead (2 * occurrence) a, s.engineRead (2 * occurrence) (a + 1), s.engineRead (2 * occurrence) (a + 2)⟩

/-- The addresses that output pixel `occurrence` reads for pre-scale pixel (y, x): the cell's data and style bytes, and,
unless one of the two returns a bus error, the three bytes of the baked pixel (44_font_renderer R190; log 21). -/
def fontPixelReads (s : State) (cw occurrence y x : Nat) : List Nat :=
  let i := y / 8 * s.csr.bpr.toNat + x / cw
  if effectiveCount s.csr ≤ i then []
  else
    let d := s.csr.dataBase.toNat + i
    let t := s.csr.styleBase.toNat + i
    let b := cellBytes s occurrence i
    let a := glyphPixelAddr s cw b.1 b.2 (y % 8) (x % cw)
    if s.busError .read d || s.busError .read t then [d, t] else [d, t, a, a + 1, a + 2]

/-- FRENDER as checks and work: SCALE, NO_FONT, RANGE, OVERLAP, then the scaled image (44_font_renderer R190). -/
def planFrender (s : State) : Plan :=
  let c := s.csr
  let sh := c.zoom.toNat * c.scaleH.toNat
  let sw := c.zoom.toNat * c.scaleW.toNat
  let cw := cellWidth c.font.cw7
  let w := c.bpr.toNat * cw * sw
  let h := c.numRows.toNat * 8 * sh
  let out := outRegion c w h
  let baked := bakedRegion c cw
  { error := firstError
      [ (decide (c.zoom = 0) || decide (c.scaleH = 0) || decide (c.scaleW = 0), .scale),
        (!c.font.valid, .noFont),
        (!(dataRegion c).inRange || !(styleRegion c).inRange || !baked.inRange || !out.inRange, .range),
        (out.overlaps (dataRegion c) || out.overlaps (styleRegion c) || out.overlaps baked, .overlap) ]
    work :=
      { Work.none with
        reads := (List.range (w * h)).flatMap fun q => fontPixelReads s cw q (q / w / sh) (q % w / sw)
        writes := out.addrs
        readRegions := [dataRegion c, styleRegion c, baked]
        out := out
        byteAt := imageByte w fun y x => scaleImage (fontPixel s cw (y * w + x)) sh sw y x } }

/-- FRENDER (44_font_renderer R190). -/
def execFrender (s : State) : Host.Outcome State Fault Refusal := runPlan (planFrender s) s

end Sys2Proof.Machine
end

