-- ==== Sys2Proof/Machine/Harvest.lean ====
section
/-! DEFINITION. HARVEST: the Jumpman peanut overlay (46_jumpman R204..R207). -/

namespace Sys2Proof.Machine

/-- The harvest-grid predicate `Invalid(x, y)` (46_jumpman R204). -/
def invalidCell (hx hy x y : Nat) : Bool :=
  decide ((x + 0x30 + hx) % 32 < 7) || decide ((2 * y + 0x20 + hy) % 32 < 5)

/-- A peanut record: cell (x, y), playfield pixel (px, py) (46_jumpman R206). -/
structure Peanut where
  x : Byte
  y : Byte
  px : Byte
  py : Byte
deriving DecidableEq, Repr, Inhabited

/-- The address of record n (46_jumpman R206). -/
def peanutAddr (c : Csrs) (n : Nat) : Nat := c.jmList.toNat + 4 * n

/-- The four addresses of record n (46_jumpman R206). -/
def peanutAddrs (c : Csrs) (n : Nat) : List Nat :=
  [peanutAddr c n, peanutAddr c n + 1, peanutAddr c n + 2, peanutAddr c n + 3]

/-- Record n of the peanut list (46_jumpman R206). -/
def peanut (s : State) (n : Nat) : Peanut where
  x := s.engineRead n (peanutAddr s.csr n)
  y := s.engineRead n (peanutAddr s.csr n + 1)
  px := s.engineRead n (peanutAddr s.csr n + 2)
  py := s.engineRead n (peanutAddr s.csr n + 3)

/-- Whether a record is marked: its pixel lies in the plane and its cell is invalid (46_jumpman R205). -/
def peanutHits (c : Csrs) (r : Peanut) : Bool :=
  decide (r.px.toNat < c.bpr.toNat) && decide (r.py.toNat < c.numRows.toNat)
    && invalidCell c.hx.toNat c.hy.toNat r.x.toNat r.y.toNat

/-- The offset of a record's pixel in the style plane (46_jumpman R205). -/
def peanutOffset (c : Csrs) (r : Peanut) : Nat := r.py.toNat * c.bpr.toNat + r.px.toNat

/-- The records that are marked, by number (46_jumpman R205). -/
def hitRecords (s : State) : List Nat := (List.range s.csr.jmCount.toNat).filter fun n => peanutHits s.csr (peanut s n)

/-- The style plane (20_memory R76). -/
def planeRegion (c : Csrs) : Region := ⟨c.styleBase.toNat, c.bpr.toNat * c.numRows.toNat⟩

/-- The peanut list (20_memory R76). -/
def listRegion (c : Csrs) : Region := ⟨c.jmList.toNat, 4 * c.jmCount.toNat⟩

/-- The style byte at offset k of the plane after HARVEST: the comment bit is set if a marked record names it, every
other bit is kept (46_jumpman R205). -/
def harvestByte (s : State) (k : Nat) : Byte :=
  let old := s.mem.read (s.csr.styleBase.toNat + k)
  if (hitRecords s).any (fun n => peanutOffset s.csr (peanut s n) == k) then old ||| 0x20 else old

/-- The records that reach their marking access: marked, and none of the four record reads returns a bus error (log 21). -/
def markingRecords (s : State) : List Nat :=
  (hitRecords s).filter fun n => !(peanutAddrs s.csr n).any (s.busError .read)

/-- The style-plane addresses that HARVEST reads and writes (46_jumpman R205). -/
def markedAddrs (s : State) : List Nat :=
  (markingRecords s).map fun n => s.csr.styleBase.toNat + peanutOffset s.csr (peanut s n)

/-- HARVEST as checks and work: RANGE, OVERLAP, then the marking (46_jumpman R205). -/
def planHarvest (s : State) : Plan :=
  let c := s.csr
  let plane := planeRegion c
  let list := listRegion c
  { error := firstError
      [ (!plane.inRange || !list.inRange, .range),
        (plane.overlaps list, .overlap) ]
    work :=
      { Work.none with
        reads := (List.range c.jmCount.toNat).flatMap (peanutAddrs c) ++ markedAddrs s
        writes := markedAddrs s
        readRegions := [plane, list]
        out := plane
        byteAt := harvestByte s
        hits := some (hitRecords s).length } }

/-- HARVEST (46_jumpman R205); JM_HITS is 0 from its acceptance on. -/
def execHarvest (s : State) : Host.Outcome State Fault Refusal := runPlan (planHarvest s) (clearHits s)

end Sys2Proof.Machine
end

