-- ==== Sys2Proof/Machine/Render.lean ====
section
/-! DEFINITION. The twenty bitmap renderers (43_bitmap_renderers). Each gives its own mode: width, checks, palette source
and Unpack; the rest is the common procedure of R153. -/

namespace Sys2Proof.Machine

/-! ## The common procedure -/

/-- What Unpack says of one pre-scale pixel: its own byte index j, the data bytes its colour index is computed from, the
style bytes that are ORed into its style, and the colour index as a function of those data bytes (43_bitmap_renderers R153). -/
structure Unpacked where
  own : Nat
  dataIdx : List Nat
  styleIdx : List Nat
  colour : List Byte → Byte

/-- A pixel whose colour and style come from its own byte alone. -/
def Unpacked.single (j : Nat) (colour : Byte → Byte) : Unpacked where
  own := j
  dataIdx := [j]
  styleIdx := [j]
  colour := fun bytes => colour (bytes.headD 0)

/-- A renderer: palette source, whether ModeCheck passes, pre-scale width W0, and Unpack (43_bitmap_renderers R153, R156). -/
structure RenderMode where
  source : PaletteSource
  geometryOk : Bool
  width : Nat
  unpack : (y x : Nat) → Unpacked

/-- The colour of a pre-scale pixel with palette set `p` and count `n` (43_bitmap_renderers R153). `occurrence` is the
output pixel that reads (log 22). -/
def renderPixel (m : RenderMode) (s : State) (p : PaletteSet) (n occurrence y x : Nat) : RGB :=
  let u := m.unpack y x
  if effectiveCount s.csr ≤ u.own then s.csr.emptyBg
  else
    let k := u.colour (u.dataIdx.map (dataByte s (2 * occurrence)))
    let style := (u.styleIdx.map (styleByte s (2 * occurrence + 1))).foldl (· ||| ·) 0
    paletteEntry p n (styleClass style) k

/-- The addresses one pre-scale pixel reads (43_bitmap_renderers R155). -/
def pixelReads (c : Csrs) (u : Unpacked) : List Nat :=
  guardedAddrs c c.dataBase.toNat u.dataIdx ++ guardedAddrs c c.styleBase.toNat u.styleIdx

/-- RENDER with a mode: the checks of R157 in order, then the palettes and the scaled image (43_bitmap_renderers R153). -/
def renderPlan (m : RenderMode) (s : State) : Plan :=
  let c := s.csr
  let sw := c.scaleW.toNat
  let sh := c.scaleH.toNat
  let h0 := c.numRows.toNat
  let w := m.width * sw
  let h := h0 * sh
  let out := outRegion c w h
  let p := buildPalettes s m.source
  let n := sourceCount c m.source
  { error := firstError
      [ (decide (sw = 0) || decide (sh = 0), .scale),
        (!m.geometryOk, .geometry),
        (!(dataRegion c).inRange || !(styleRegion c).inRange || !out.inRange, .range),
        (out.overlaps (dataRegion c) || out.overlaps (styleRegion c), .overlap) ]
    work :=
      { Work.none with
        reads := (List.range (h0 * m.width)).flatMap fun q => pixelReads c (m.unpack (q / m.width) (q % m.width))
        writes := out.addrs
        readRegions := [dataRegion c, styleRegion c]
        out := out
        byteAt := imageByte w fun y x => scaleImage (renderPixel m s p n (y * w + x)) sh sw y x
        ps := some p } }

/-! ## The modes -/

/-- Bit per pixel, most significant bit leftmost (43_bitmap_renderers R159). -/
def oneBit (b : Byte) (x : Nat) : Byte := bitOf b (7 - x % 8)

/-- Two bits per pixel, most significant pair leftmost (43_bitmap_renderers R160). -/
def twoBits (b : Byte) (x : Nat) : Byte := (b >>> (6 - 2 * (x % 4))) &&& 3

/-- Four bits per pixel, high nibble leftmost (43_bitmap_renderers R161). -/
def nibble (b : Byte) (x : Nat) : Byte := if x % 2 = 0 then b >>> 4 else b &&& 0x0F

/-- Seven pixels per byte, bit 0 leftmost, bit 7 not shown (43_bitmap_renderers R166). -/
def sevenBit (b : Byte) (x : Nat) : Byte := bitOf (bitReverse b) (7 - x % 7)

/-- The register of a mode B or C pixel: 0 the background, 1 playfield 0 (43_bitmap_renderers R162). -/
def anticOneBitRegister (v : Byte) : Byte := if v = 0 then 8 else 4

/-- The register of a mode D or E pixel: `[8, 4, 5, 6]` (43_bitmap_renderers R164). -/
def anticTwoBitRegister (v : Byte) : Byte := if v = 0 then 8 else v + 3

/-- RENDER.BW1 (43_bitmap_renderers R159). -/
def modeBw1 (bpr : Nat) : RenderMode where
  source := .direct
  geometryOk := true
  width := 8 * bpr
  unpack := fun y x => .single (y * bpr + x / 8) fun b => oneBit b x

/-- RENDER.BPP2 (43_bitmap_renderers R160). -/
def modeBpp2 (bpr : Nat) : RenderMode where
  source := .direct
  geometryOk := true
  width := 4 * bpr
  unpack := fun y x => .single (y * bpr + x / 4) fun b => twoBits b x

/-- RENDER.BPP4 (43_bitmap_renderers R161). -/
def modeBpp4 (bpr : Nat) : RenderMode where
  source := .direct
  geometryOk := true
  width := 2 * bpr
  unpack := fun y x => .single (y * bpr + x / 2) fun b => nibble b x

/-- RENDER.ANTIC_B (43_bitmap_renderers R162). -/
def modeAnticB (bpr : Nat) : RenderMode where
  source := .antic
  geometryOk := true
  width := 8 * bpr
  unpack := fun y x => .single (y * bpr + x / 8) fun b => anticOneBitRegister (oneBit b x)

/-- RENDER.ANTIC_C: the Unpack of mode B (43_bitmap_renderers R163). -/
def modeAnticC (bpr : Nat) : RenderMode where
  source := .antic
  geometryOk := true
  width := 8 * bpr
  unpack := fun y x => .single (y * bpr + x / 8) fun b => anticOneBitRegister (oneBit b x)

/-- RENDER.ANTIC_D (43_bitmap_renderers R164). -/
def modeAnticD (bpr : Nat) : RenderMode where
  source := .antic
  geometryOk := true
  width := 4 * bpr
  unpack := fun y x => .single (y * bpr + x / 4) fun b => anticTwoBitRegister (twoBits b x)

/-- RENDER.ANTIC_E: the Unpack of mode D (43_bitmap_renderers R165). -/
def modeAnticE (bpr : Nat) : RenderMode where
  source := .antic
  geometryOk := true
  width := 4 * bpr
  unpack := fun y x => .single (y * bpr + x / 4) fun b => anticTwoBitRegister (twoBits b x)

/-- RENDER.A2_HIRES (43_bitmap_renderers R166). -/
def modeA2Hires (bpr : Nat) : RenderMode where
  source := .direct
  geometryOk := true
  width := 7 * bpr
  unpack := fun y x => .single (y * bpr + x / 7) fun b => sevenBit b x

/-- `RowOff(y)`: the offset of screen line y in an Apple ][ screen buffer (43_bitmap_renderers R168). -/
def screenRowOffset (y : Nat) : Nat :=
  let a := y / 64
  let d := y - 64 * a
  let b := d / 8
  let c := d - 8 * b
  1024 * c + 128 * b + 40 * a

/-- RENDER.A2_HIRES_SCREEN: the pixels of A2_HIRES on screen-order rows; BPR must be 40 and NUM_ROWS at most 192
(43_bitmap_renderers R167). -/
def modeA2HiresScreen (bpr rows : Nat) : RenderMode where
  source := .direct
  geometryOk := decide (bpr = 40) && decide (rows ≤ 192)
  width := 7 * bpr
  unpack := fun y x => .single (screenRowOffset y + x / 7) fun b => sevenBit b x

/-- `ArtColour(e, o, h)`: the colour index of an artifact sub-pair (43_bitmap_renderers R170). -/
def artifactColour (e o h : Byte) : Byte :=
  if e = 0 then (if o = 0 then 0 else if h = 0 then 3 else 5)
  else (if o = 0 then (if h = 0 then 2 else 4) else 1)

/-- Sub-bit i of a byte pair: bits 0..6 of the first byte, then bits 0..6 of the second (43_bitmap_renderers R169). -/
def artifactSubBit (b0 b1 : Byte) (i : Nat) : Byte := if i < 7 then bitOf b0 i else bitOf b1 (i - 7)

/-- The colour index of column u of a byte pair (43_bitmap_renderers R169). -/
def artifactIndex (b0 b1 : Byte) (u : Nat) : Byte :=
  let p := u / 2
  let h := if p ≤ 3 then bitOf b0 7 else bitOf b1 7
  artifactColour (artifactSubBit b0 b1 (2 * p)) (artifactSubBit b0 b1 (2 * p + 1)) h

/-- RENDER.A2_ARTIFACT: colour by aligned byte pair, style and emptiness by the pixel's own byte; a missing partner byte
is 0 (43_bitmap_renderers R169). -/
def modeA2Artifact (bpr : Nat) : RenderMode where
  source := .direct
  geometryOk := true
  width := 7 * bpr
  unpack := fun y x =>
    let rs := y * bpr
    let q := x / 14
    { own := rs + x / 7
      dataIdx := if 2 * q + 1 < bpr then [rs + 2 * q, rs + 2 * q + 1] else [rs + 2 * q]
      styleIdx := [rs + x / 7]
      colour := fun bytes => artifactIndex (bytes.getD 0 0) (bytes.getD 1 0) (x % 14) }

/-- RENDER.GTIA9 (43_bitmap_renderers R171). -/
def modeGtia9 (bpr : Nat) : RenderMode where
  source := .gtia9
  geometryOk := true
  width := 2 * bpr
  unpack := fun y x => .single (y * bpr + x / 2) fun b => nibble b x

/-- RENDER.GTIA10 (43_bitmap_renderers R172). -/
def modeGtia10 (bpr : Nat) : RenderMode where
  source := .antic
  geometryOk := true
  width := 2 * bpr
  unpack := fun y x => .single (y * bpr + x / 2) fun b => nibble b x

/-- RENDER.GTIA11 (43_bitmap_renderers R173). -/
def modeGtia11 (bpr : Nat) : RenderMode where
  source := .gtia11
  geometryOk := true
  width := 2 * bpr
  unpack := fun y x => .single (y * bpr + x / 2) fun b => nibble b x

/-- The colour index of a bitplane pixel in column t of its group: byte p of the group gives bit `weight p`
(43_bitmap_renderers R174, R175). -/
def planeIndex (weight : Nat → Nat) (t : Nat) (bytes : List Byte) : Byte :=
  ((bytes.zipIdx).map fun bp => bitOf bp.1 (7 - t) <<< weight bp.2).foldl (· ||| ·) 0

/-- A bitplane renderer with n planes: `byteIdx rs g p` is the index of byte p of group g of the row at rs; the pixel's
own byte is plane 0's, and its style the OR of the n styles (43_bitmap_renderers R174). -/
def modePlanes (n bpr : Nat) (byteIdx : (rs g p : Nat) → Nat) (weight : Nat → Nat) : RenderMode where
  source := .direct
  geometryOk := decide (bpr % n = 0)
  width := 8 * bpr / n
  unpack := fun y x =>
    let indices := (List.range n).map (byteIdx (y * bpr) (x / 8))
    { own := byteIdx (y * bpr) (x / 8) 0
      dataIdx := indices
      styleIdx := indices
      colour := planeIndex weight (x % 8) }

/-- RENDER.BPL_LE N: the planes of a group adjacent, plane p is bit p (43_bitmap_renderers R174). -/
def modeBplLe (n bpr : Nat) : RenderMode := modePlanes n bpr (fun rs g p => rs + g * n + p) (fun p => p)

/-- RENDER.BPL_BE N: the planes of a group adjacent, plane p is bit N-1-p (43_bitmap_renderers R175). -/
def modeBplBe (n bpr : Nat) : RenderMode := modePlanes n bpr (fun rs g p => rs + g * n + p) (fun p => n - 1 - p)

/-- RENDER.BPL_IL_LE N: plane p in the p-th of N strips of the row, plane p is bit p (43_bitmap_renderers R176). -/
def modeBplIlLe (n bpr : Nat) : RenderMode := modePlanes n bpr (fun rs g p => rs + p * (bpr / n) + g) (fun p => p)

/-- RENDER.BPL_IL_BE N: plane p in the p-th of N strips, plane p is bit N-1-p (43_bitmap_renderers R177). -/
def modeBplIlBe (n bpr : Nat) : RenderMode :=
  modePlanes n bpr (fun rs g p => rs + p * (bpr / n) + g) (fun p => n - 1 - p)

/-- RENDER.JUMPMAN: the byte is the colour index (43_bitmap_renderers R178). -/
def modeJumpman (bpr : Nat) : RenderMode where
  source := .direct
  geometryOk := true
  width := bpr
  unpack := fun y x => .single (y * bpr + x) fun b => b

/-- RENDER.MEMMAP: the byte is the colour index (43_bitmap_renderers R179). -/
def modeMemmap (bpr : Nat) : RenderMode where
  source := .direct
  geometryOk := true
  width := bpr
  unpack := fun y x => .single (y * bpr + x) fun b => b

/-- RENDER.HEATMAP: the byte is the colour index (43_bitmap_renderers R180). -/
def modeHeatmap (bpr : Nat) : RenderMode where
  source := .direct
  geometryOk := true
  width := bpr
  unpack := fun y x => .single (y * bpr + x) fun b => b

/-! ## The commands as checks and work -/

/-- GEOM.BPR as a number (10_state R36). -/
def bytesPerRow (s : State) : Nat := s.csr.bpr.toNat

/-- The plan of a bitplane renderer: N outside 1..4 is RESERVED_FIELD before any other check (30_encoding R101; the
decoder already refuses such a word, log 18). -/
def planesPlan (n : Byte) (m : RenderMode) (s : State) : Plan :=
  if legalPlanes n then renderPlan m s else { error := some .reservedField, work := Work.none }

/-- RENDER.BW1 as checks and work. -/
def planRenderBw1 (s : State) : Plan := renderPlan (modeBw1 (bytesPerRow s)) s
/-- RENDER.BPP2 as checks and work. -/
def planRenderBpp2 (s : State) : Plan := renderPlan (modeBpp2 (bytesPerRow s)) s
/-- RENDER.BPP4 as checks and work. -/
def planRenderBpp4 (s : State) : Plan := renderPlan (modeBpp4 (bytesPerRow s)) s
/-- RENDER.ANTIC_B as checks and work. -/
def planRenderAnticB (s : State) : Plan := renderPlan (modeAnticB (bytesPerRow s)) s
/-- RENDER.ANTIC_C as checks and work. -/
def planRenderAnticC (s : State) : Plan := renderPlan (modeAnticC (bytesPerRow s)) s
/-- RENDER.ANTIC_D as checks and work. -/
def planRenderAnticD (s : State) : Plan := renderPlan (modeAnticD (bytesPerRow s)) s
/-- RENDER.ANTIC_E as checks and work. -/
def planRenderAnticE (s : State) : Plan := renderPlan (modeAnticE (bytesPerRow s)) s
/-- RENDER.A2_HIRES as checks and work. -/
def planRenderA2Hires (s : State) : Plan := renderPlan (modeA2Hires (bytesPerRow s)) s
/-- RENDER.A2_HIRES_SCREEN as checks and work. -/
def planRenderA2HiresScreen (s : State) : Plan :=
  renderPlan (modeA2HiresScreen (bytesPerRow s) s.csr.numRows.toNat) s
/-- RENDER.A2_ARTIFACT as checks and work. -/
def planRenderA2Artifact (s : State) : Plan := renderPlan (modeA2Artifact (bytesPerRow s)) s
/-- RENDER.GTIA9 as checks and work. -/
def planRenderGtia9 (s : State) : Plan := renderPlan (modeGtia9 (bytesPerRow s)) s
/-- RENDER.GTIA10 as checks and work. -/
def planRenderGtia10 (s : State) : Plan := renderPlan (modeGtia10 (bytesPerRow s)) s
/-- RENDER.GTIA11 as checks and work. -/
def planRenderGtia11 (s : State) : Plan := renderPlan (modeGtia11 (bytesPerRow s)) s
/-- RENDER.BPL_LE N as checks and work. -/
def planRenderBplLe (n : Byte) (s : State) : Plan := planesPlan n (modeBplLe n.toNat (bytesPerRow s)) s
/-- RENDER.BPL_BE N as checks and work. -/
def planRenderBplBe (n : Byte) (s : State) : Plan := planesPlan n (modeBplBe n.toNat (bytesPerRow s)) s
/-- RENDER.BPL_IL_LE N as checks and work. -/
def planRenderBplIlLe (n : Byte) (s : State) : Plan := planesPlan n (modeBplIlLe n.toNat (bytesPerRow s)) s
/-- RENDER.BPL_IL_BE N as checks and work. -/
def planRenderBplIlBe (n : Byte) (s : State) : Plan := planesPlan n (modeBplIlBe n.toNat (bytesPerRow s)) s
/-- RENDER.JUMPMAN as checks and work. -/
def planRenderJumpman (s : State) : Plan := renderPlan (modeJumpman (bytesPerRow s)) s
/-- RENDER.MEMMAP as checks and work. -/
def planRenderMemmap (s : State) : Plan := renderPlan (modeMemmap (bytesPerRow s)) s
/-- RENDER.HEATMAP as checks and work. -/
def planRenderHeatmap (s : State) : Plan := renderPlan (modeHeatmap (bytesPerRow s)) s

/-! ## The meanings -/

/-- RENDER.BW1 (43_bitmap_renderers R159). -/
def execRenderBw1 (s : State) : Host.Outcome State Fault Refusal := runPlan (planRenderBw1 s) s
/-- RENDER.BPP2 (43_bitmap_renderers R160). -/
def execRenderBpp2 (s : State) : Host.Outcome State Fault Refusal := runPlan (planRenderBpp2 s) s
/-- RENDER.BPP4 (43_bitmap_renderers R161). -/
def execRenderBpp4 (s : State) : Host.Outcome State Fault Refusal := runPlan (planRenderBpp4 s) s
/-- RENDER.ANTIC_B (43_bitmap_renderers R162). -/
def execRenderAnticB (s : State) : Host.Outcome State Fault Refusal := runPlan (planRenderAnticB s) s
/-- RENDER.ANTIC_C (43_bitmap_renderers R163). -/
def execRenderAnticC (s : State) : Host.Outcome State Fault Refusal := runPlan (planRenderAnticC s) s
/-- RENDER.ANTIC_D (43_bitmap_renderers R164). -/
def execRenderAnticD (s : State) : Host.Outcome State Fault Refusal := runPlan (planRenderAnticD s) s
/-- RENDER.ANTIC_E (43_bitmap_renderers R165). -/
def execRenderAnticE (s : State) : Host.Outcome State Fault Refusal := runPlan (planRenderAnticE s) s
/-- RENDER.A2_HIRES (43_bitmap_renderers R166). -/
def execRenderA2Hires (s : State) : Host.Outcome State Fault Refusal := runPlan (planRenderA2Hires s) s
/-- RENDER.A2_HIRES_SCREEN (43_bitmap_renderers R167). -/
def execRenderA2HiresScreen (s : State) : Host.Outcome State Fault Refusal := runPlan (planRenderA2HiresScreen s) s
/-- RENDER.A2_ARTIFACT (43_bitmap_renderers R169). -/
def execRenderA2Artifact (s : State) : Host.Outcome State Fault Refusal := runPlan (planRenderA2Artifact s) s
/-- RENDER.GTIA9 (43_bitmap_renderers R171). -/
def execRenderGtia9 (s : State) : Host.Outcome State Fault Refusal := runPlan (planRenderGtia9 s) s
/-- RENDER.GTIA10 (43_bitmap_renderers R172). -/
def execRenderGtia10 (s : State) : Host.Outcome State Fault Refusal := runPlan (planRenderGtia10 s) s
/-- RENDER.GTIA11 (43_bitmap_renderers R173). -/
def execRenderGtia11 (s : State) : Host.Outcome State Fault Refusal := runPlan (planRenderGtia11 s) s
/-- RENDER.BPL_LE N (43_bitmap_renderers R174). -/
def execRenderBplLe (n : Byte) (s : State) : Host.Outcome State Fault Refusal := runPlan (planRenderBplLe n s) s
/-- RENDER.BPL_BE N (43_bitmap_renderers R175). -/
def execRenderBplBe (n : Byte) (s : State) : Host.Outcome State Fault Refusal := runPlan (planRenderBplBe n s) s
/-- RENDER.BPL_IL_LE N (43_bitmap_renderers R176). -/
def execRenderBplIlLe (n : Byte) (s : State) : Host.Outcome State Fault Refusal := runPlan (planRenderBplIlLe n s) s
/-- RENDER.BPL_IL_BE N (43_bitmap_renderers R177). -/
def execRenderBplIlBe (n : Byte) (s : State) : Host.Outcome State Fault Refusal := runPlan (planRenderBplIlBe n s) s
/-- RENDER.JUMPMAN (43_bitmap_renderers R178). -/
def execRenderJumpman (s : State) : Host.Outcome State Fault Refusal := runPlan (planRenderJumpman s) s
/-- RENDER.MEMMAP (43_bitmap_renderers R179). -/
def execRenderMemmap (s : State) : Host.Outcome State Fault Refusal := runPlan (planRenderMemmap s) s
/-- RENDER.HEATMAP (43_bitmap_renderers R180). -/
def execRenderHeatmap (s : State) : Host.Outcome State Fault Refusal := runPlan (planRenderHeatmap s) s

end Sys2Proof.Machine
end

