-- ==== Sys2Proof/Machine/Utilities.lean ====
section
/-! DEFINITION. NOP, ISCALE and IWSCALE (40_utilities R116..R118). -/

namespace Sys2Proof.Machine

/-- NOP as checks and work: none of either (40_utilities R116). -/
def planNop (_ : State) : Plan := { error := none, work := Work.none }

/-- NOP: DONE is set and nothing else changes (40_utilities R116). -/
def execNop (s : State) : Host.Outcome State Fault Refusal := runPlan (planNop s) s

/-- The source region of the scaler (20_memory R76). -/
def sourceRegion (c : Csrs) : Region := ⟨c.srcBase.toNat, 3 * c.srcW.toNat * c.srcH.toNat⟩

/-- The source image as the engine reads it; `occurrence` is the output pixel (40_utilities R117). -/
def sourcePixel (s : State) (occurrence y x : Nat) : RGB :=
  let a := s.csr.srcBase.toNat + 3 * (y * s.csr.srcW.toNat + x)
  ⟨s.engineRead occurrence a, s.engineRead occurrence (a + 1), s.engineRead occurrence (a + 2)⟩

/-- The scaler with factors sh and sw (40_utilities R117). The identity case comes after the range check, before the
overlap check, and makes no access. -/
def scalerPlan (sh sw : Nat) (s : State) : Plan :=
  let c := s.csr
  let w := c.srcW.toNat * sw
  let h := c.srcH.toNat * sh
  let src := sourceRegion c
  let out := outRegion c w h
  let identity := decide (sh = 1) && decide (sw = 1) && decide (c.outBase = c.srcBase)
  { error := firstError
      [ (decide (sh = 0) || decide (sw = 0), .scale),
        (!src.inRange || !out.inRange, .range),
        (!identity && out.overlaps src, .overlap) ]
    work :=
      if identity then Work.none
      else
        { Work.none with
          reads := src.addrs
          writes := out.addrs
          readRegions := [src]
          out := out
          byteAt := imageByte w fun y x => scaleImage (sourcePixel s (y * w + x)) sh sw y x } }

/-- ISCALE sh, sw as checks and work (40_utilities R117). -/
def planIscale (sh sw : Byte) (s : State) : Plan := scalerPlan sh.toNat sw.toNat s

/-- IWSCALE sw as checks and work: the vertical factor is 1 (40_utilities R118). -/
def planIwscale (sw : Byte) (s : State) : Plan := scalerPlan 1 sw.toNat s

/-- ISCALE sh, sw (40_utilities R117). -/
def execIscale (sh sw : Byte) (s : State) : Host.Outcome State Fault Refusal := runPlan (planIscale sh sw s) s

/-- IWSCALE sw (40_utilities R118). -/
def execIwscale (sw : Byte) (s : State) : Host.Outcome State Fault Refusal := runPlan (planIwscale sw s) s

end Sys2Proof.Machine
end

