-- ==== Sys2Proof/Machine/Commands.lean ====
section
/-! DEFINITION. The commands seen from the host: acceptance of a CMD write (10_state R26), and what the running command
would do, which in-flight reads, writes and resets need (20_memory R89, 70_reset R235). -/

namespace Sys2Proof.Machine

/-- The plan of each command: what `exec` runs. -/
def planOf (i : Instr) (s : State) : Plan :=
  match i with
  | .nop => planNop s
  | .palbuildDirect => planPalbuildDirect s
  | .palbuildAntic => planPalbuildAntic s
  | .palbuildGtia9 => planPalbuildGtia9 s
  | .palbuildGtia11 => planPalbuildGtia11 s
  | .renderBw1 => planRenderBw1 s
  | .renderBpp2 => planRenderBpp2 s
  | .renderBpp4 => planRenderBpp4 s
  | .renderAnticB => planRenderAnticB s
  | .renderAnticC => planRenderAnticC s
  | .renderAnticD => planRenderAnticD s
  | .renderAnticE => planRenderAnticE s
  | .renderA2Hires => planRenderA2Hires s
  | .renderA2HiresScreen => planRenderA2HiresScreen s
  | .renderA2Artifact => planRenderA2Artifact s
  | .renderGtia9 => planRenderGtia9 s
  | .renderGtia10 => planRenderGtia10 s
  | .renderGtia11 => planRenderGtia11 s
  | .renderBplLe n => planRenderBplLe n s
  | .renderBplBe n => planRenderBplBe n s
  | .renderBplIlLe n => planRenderBplIlLe n s
  | .renderBplIlBe n => planRenderBplIlBe n s
  | .renderJumpman => planRenderJumpman s
  | .renderMemmap => planRenderMemmap s
  | .renderHeatmap => planRenderHeatmap s
  | .bakeGr0 => planBakeGr0 s
  | .bakeAntic4 => planBakeAntic4 s
  | .bakeGr12Upper => planBakeGr12Upper s
  | .bakeGr12Lower => planBakeGr12Lower s
  | .bakeApple => planBakeApple s
  | .frender => planFrender s
  | .iscale sh sw => planIscale sh sw s
  | .iwscale sw => planIwscale sw s
  | .harvest => planHarvest s

/-- The error code of a word that decodes to no command (60_exceptions R212, 30_encoding R110). -/
def decodeErrorCode : DecodeError → ErrCode
  | .badOpcode => .badOpcode
  | .rendererNotFound => .rendererNotFound
  | .reservedField => .reservedField

/-- The event of an accepted CMD write (10_state R26): LAST_CMD, the clears, BUSY. A BAKE word also clears
FONT_STATE.VALID (R47) and a HARVEST word JM_HITS (R53), whatever its other fields are (log 17). -/
def acceptWord (w : Word) (s : State) : State :=
  let c := s.csr
  { s with
    phase := .run
    runFor := 0
    inTouched := []
    outTouched := []
    csr := { c with
      lastCmd := w
      errAddr := 0
      status := { c.status with done := false, err := false, errCode := none }
      font := if opField w = 0x03 then { c.font with valid := false } else c.font
      jmHits := if opField w = 0x07 then 0 else c.jmHits } }

/-- Acceptance, with the command's free duration drawn (93 item U14, log 3). -/
def accept (w : Word) (s : State) : State :=
  { acceptWord w s with runFor := Config.commandTime s.draws, draws := s.draws + 1 }

/-- The work of the running command, if its word is a command and its checks pass (60_exceptions R214). -/
def runningWork (s : State) : Option Work :=
  match decode s.csr.lastCmd with
  | .error _ => none
  | .ok i =>
    let p := planOf i s
    match p.error with
    | some _ => none
    | none => some p.work

end Sys2Proof.Machine
end

