-- ==== Sys2Proof/Machine/Dispatch.lean ====
section
/-! DEFINITION. The dispatch: one arm per command, each one direct call of its meaning. -/

namespace Sys2Proof.Machine

/-- What each command does, from the acceptance of its word to its end (70_reset R247, R248). -/
def exec (i : Instr) (s : State) : Host.Outcome State Fault Refusal :=
  match i with
  | .nop => Sys2Proof.Machine.execNop s
  | .palbuildDirect => Sys2Proof.Machine.execPalbuildDirect s
  | .palbuildAntic => Sys2Proof.Machine.execPalbuildAntic s
  | .palbuildGtia9 => Sys2Proof.Machine.execPalbuildGtia9 s
  | .palbuildGtia11 => Sys2Proof.Machine.execPalbuildGtia11 s
  | .renderBw1 => Sys2Proof.Machine.execRenderBw1 s
  | .renderBpp2 => Sys2Proof.Machine.execRenderBpp2 s
  | .renderBpp4 => Sys2Proof.Machine.execRenderBpp4 s
  | .renderAnticB => Sys2Proof.Machine.execRenderAnticB s
  | .renderAnticC => Sys2Proof.Machine.execRenderAnticC s
  | .renderAnticD => Sys2Proof.Machine.execRenderAnticD s
  | .renderAnticE => Sys2Proof.Machine.execRenderAnticE s
  | .renderA2Hires => Sys2Proof.Machine.execRenderA2Hires s
  | .renderA2HiresScreen => Sys2Proof.Machine.execRenderA2HiresScreen s
  | .renderA2Artifact => Sys2Proof.Machine.execRenderA2Artifact s
  | .renderGtia9 => Sys2Proof.Machine.execRenderGtia9 s
  | .renderGtia10 => Sys2Proof.Machine.execRenderGtia10 s
  | .renderGtia11 => Sys2Proof.Machine.execRenderGtia11 s
  | .renderBplLe n => Sys2Proof.Machine.execRenderBplLe n s
  | .renderBplBe n => Sys2Proof.Machine.execRenderBplBe n s
  | .renderBplIlLe n => Sys2Proof.Machine.execRenderBplIlLe n s
  | .renderBplIlBe n => Sys2Proof.Machine.execRenderBplIlBe n s
  | .renderJumpman => Sys2Proof.Machine.execRenderJumpman s
  | .renderMemmap => Sys2Proof.Machine.execRenderMemmap s
  | .renderHeatmap => Sys2Proof.Machine.execRenderHeatmap s
  | .bakeGr0 => Sys2Proof.Machine.execBakeGr0 s
  | .bakeAntic4 => Sys2Proof.Machine.execBakeAntic4 s
  | .bakeGr12Upper => Sys2Proof.Machine.execBakeGr12Upper s
  | .bakeGr12Lower => Sys2Proof.Machine.execBakeGr12Lower s
  | .bakeApple => Sys2Proof.Machine.execBakeApple s
  | .frender => Sys2Proof.Machine.execFrender s
  | .iscale sh sw => Sys2Proof.Machine.execIscale sh sw s
  | .iwscale sw => Sys2Proof.Machine.execIwscale sw s
  | .harvest => Sys2Proof.Machine.execHarvest s

end Sys2Proof.Machine
end

