-- ==== Sys2Proof/Machine/HostPort.lean ====
section
/-! DEFINITION. The host's side of the bus: CSR reads and writes in either phase, memory accesses before and during a
command, the soft reset and the power cycle (10_state R23..R58, 20_memory R85..R89, 70_reset R233..R245). -/

namespace Sys2Proof.Machine

/-! ## Resets -/

/-- A running command stopped where it stands: each byte of its write region has its old value or the value the command
would have written, a free choice per byte (70_reset R235). That with a BUS error pending 'the value the command would
have written' is the free value of a BUS end, for a byte fed by a failing read, at a failing write address, or any other:
DESIGN CHOICE (log 15). -/
def abortWork (w : Work) (s : State) : State :=
  let t := { s with
    mem := s.mem.fill w.out.base w.out.len fun k =>
      if Config.keepsOld s.draws (w.out.base + k) then s.mem.read (w.out.base + k) else w.pendingByte s k }
  if w.writesCsrs s then t.scrambleCsrs else t

/-- The running command, if any, aborted (70_reset R234 item 1). -/
def abortCommand (s : State) : State :=
  match s.phase with
  | .idle => s
  | .run =>
    match runningWork s with
    | none => s
    | some w => abortWork w s

/-- The soft reset of CTRL.SRST: the command aborted, every CSR at its power-on value, CREG kept, PS UNSPECIFIED, the
engine IDLE (70_reset R234). It uses two draws: one for the abort, one for PS (log 9). -/
def softReset (s : State) : State :=
  let t := abortCommand s
  { t.toIdle with csr := Csrs.reset, ps := freePalettes (s.draws + 1), draws := s.draws + 2 }

/-- A power-on reset during a run: a soft reset whose CREG is UNSPECIFIED too (70_reset R233, 60_exceptions R229, log 16). -/
def powerCycle (s : State) : State := { softReset s with creg := freeCreg (s.draws + 1) }

/-! ## CSR writes -/

/-- An accepted write of a configuration register; the palette, font and bake registers clear FONT_STATE.VALID
(10_state R47). -/
def acceptConfig (r : ConfigReg) (v : Word) (s : State) : State :=
  let t := { s with csr := writeConfig s.csr v r }
  if r.clearsFont then clearFontValid t else t

/-- An accepted write of CREG[k] (10_state R54, R47). -/
def acceptCreg (k : Byte) (v : Word) (s : State) : State :=
  clearFontValid { s with creg := Table.put s.creg k (unpackRgb v) }

/-- A write taken only in IDLE; in RUN it is ignored and sets WIGN (10_state R57). -/
def whenIdle (accepted : State → State) (s : State) : State :=
  match s.phase with
  | .idle => accepted s
  | .run => setWign s

/-- An aligned word write at the register that stands at an offset (10_state R23..R57). -/
def writeCsr (r : CsrAt) (v : Word) (s : State) : State :=
  match r with
  | .ctrl => if v.getLsbD 0 then softReset s else s
  | .cmd => whenIdle (accept v) s
  | .status => { s with csr := writeStatus s.csr v }
  | .irqEn => { s with csr := writeIrqEn s.csr v }
  | .config r => whenIdle (acceptConfig r v) s
  | .creg k => whenIdle (acceptCreg k v) s
  | .id | .lastCmd | .errAddr | .fontState | .jmHits => s
  | .ps _ _ | .reserved => s

/-! ## CSR reads -/

/-- What a read of PS[c][k] returns: the entry, or a free value while BUSY (10_state R55, 93 item U3, log 14). -/
def readPs (c : StyleClass) (k : Byte) (s : State) : Word :=
  match s.phase with
  | .idle => packRgb (Table.get (s.ps.bank c) k)
  | .run => packRgb (unpackRgb (Config.freeWord s.draws (0x800 + 0x400 * c.index + 4 * k.toNat)))

/-- What an aligned word read returns; a read has no side effect (10_state R24..R58). -/
def readCsr (r : CsrAt) (s : State) : Word :=
  match r with
  | .id => 0x00010000
  | .ctrl => 0
  | .cmd => 0
  | .status => statusWord s
  | .irqEn => irqEnWord s.csr
  | .lastCmd => s.csr.lastCmd
  | .errAddr => s.csr.errAddr
  | .fontState => fontStateWord s.csr
  | .config r => readConfig s.csr r
  | .jmHits => s.csr.jmHits.setWidth 32
  | .creg k => packRgb (Table.get s.creg k)
  | .ps c k => readPs c k s
  | .reserved => 0

/-- A naturally aligned word access: the only one the aperture answers (10_state R58). -/
def wordAccess (off : BitVec 13) (size : AccessSize) : Bool := size == .word && decide (off.toNat % 4 = 0)

/-! ## Memory accesses of the host -/

/-- What a host read of a memory byte returns. In the running command's write region it is the old or the final byte, a
free choice (20_memory R89, 93 item U8, log 14); in the aperture it is a CSR read of the wrong size (10_state R58, log 19). -/
def hostReadByte (s : State) (a : Nat) : Byte :=
  if s.inAperture a then 0
  else
    let old := s.mem.read a
    match s.phase with
    | .idle => old
    | .run =>
      match runningWork s with
      | none => old
      | some w =>
        if w.out.has a && !Config.keepsOld s.draws a then
          w.pendingByte s (a - w.out.base)
        else old

/-- A host write of a memory byte. During a command, a write to a region the command reads makes every byte the command
writes UNSPECIFIED (20_memory R86, log 12), and a write to its write region leaves that byte UNSPECIFIED (70_reset R240,
log 13); a byte of neither is just written. A write into the aperture is a CSR write of the wrong size and is ignored
(10_state R58, log 19). -/
def hostWriteByte (s : State) (a : Nat) (v : Byte) : State :=
  if s.inAperture a then s
  else
    match s.phase with
    | .idle => { s with mem := s.mem.write a v }
    | .run =>
      match runningWork s with
      | none => { s with mem := s.mem.write a v }
      | some w =>
        let toInputs := w.readRegions.any (·.has a)
        let toOutput := w.out.has a
        { s with
          mem := s.mem.write a (if toOutput then Config.freeByte s.draws a else v)
          inTouched := if toInputs then (a, s.mem.read a) :: s.inTouched else s.inTouched
          outTouched := if toOutput then a :: s.outTouched else s.outTouched
          draws := s.draws + 1 }

/-! ## One action -/

/-- One action of the host, taken off its list, in either phase. A read leaves its value in `readData` (log 20); a read
that may draw a free value counts a draw (log 9). WAIT is done once BUSY is 0 and its last poll returns STATUS
(30_encoding R109). -/
def hostAct (a : HostAction) (s : State) : State :=
  match a with
  | .writeCsr off size v => if wordAccess off size then writeCsr (csrAt off.toNat) v s else s
  | .readCsr off size =>
    { s with readData := if wordAccess off size then readCsr (csrAt off.toNat) s else 0, draws := s.draws + 1 }
  | .writeMem a v => hostWriteByte s a.toNat v
  | .readMem a => { s with readData := (hostReadByte s a.toNat).setWidth 32, draws := s.draws + 1 }
  | .wait => { s with readData := statusWord s }
  | .powerCycle => powerCycle s

/-- Whether the host's next action lands before the running command ends: an action other than WAIT is pending and the
command's free duration still leaves room for it (93 item U14, log 3). -/
def hostActsFirst (s : State) : Bool :=
  match s.hostQ with
  | [] => false
  | .wait :: _ => false
  | _ :: _ => decide (0 < s.runFor)

/-- The next host action, if any, done: in RUN it uses up one place of the command's duration (log 3). -/
def hostStep (s : State) : State :=
  match s.hostQ with
  | [] => s
  | a :: rest => hostAct a { s with hostQ := rest, runFor := s.runFor - 1 }

end Sys2Proof.Machine
end

