-- ==== Sys2Proof/Machine/Step.lean ====
section
/-! DEFINITION. One step of the machine (70_reset R247): the engine executes the accepted command as one atomic step, or
the host does its next action, before, between or during commands. -/

namespace Sys2Proof.Machine

/-- The engine executes the accepted command word, held in LAST_CMD (10_state R65): a word that decodes to no command ends
with its decode error (30_encoding R110). -/
def runCommand (s : State) : Host.Outcome State Fault Refusal :=
  match decode s.csr.lastCmd with
  | .error e => .next (takeError (decodeErrorCode e) none s)
  | .ok i => exec i s

/-- One step. In IDLE the host's next action is done; with none pending nothing happens, since the engine makes no access
until a command is accepted (70_reset R233). In RUN the command executes, unless a host action lands first (log 3). -/
def step (s : State) : Host.Outcome State Fault Refusal :=
  match s.phase with
  | .idle => .next (hostStep s)
  | .run => if hostActsFirst s then .next (hostStep s) else runCommand s

/-- The state in which the very next step runs the instruction whose bits are `w`: the command word stands where the
engine takes it from, in LAST_CMD of an accepted command, with no host action landing before it (10_state R26, R65). -/
def State.withFetchWord (s : State) (nbits w : Nat) : State := acceptWord (BitVec.ofNat 32 (w % 2 ^ nbits)) s

end Sys2Proof.Machine
end

