-- ==== Sys2Proof/Safety.lean ====
section
/-! DEFINITION. The terms the claims use: the invariant of every step, an undisturbed run of a command, the state a
successful or failed command leaves, the regions of each command (20_memory R76), and what each family reads and writes. -/

namespace Sys2Proof.Machine

/-! ## The invariant -/

/-- What holds of the machine at all times: memory is in canonical form inside the 32-bit space (20_memory R75), NREG is
1..256 (10_state R39), DONE and ERR are never both 1 and ERRCODE is 0 exactly when ERR is 0 (R27), no end is recorded
while a command runs (R26), and nothing of a command's progress persists in IDLE (R65). -/
structure MachineInv (s : State) : Prop where
  memory : s.mem.wf
  nreg : 1 ≤ s.csr.nreg.toNat ∧ s.csr.nreg.toNat ≤ 256
  oneEnd : ¬ (s.csr.status.done = true ∧ s.csr.status.err = true)
  errCode : s.csr.status.errCode.isSome = s.csr.status.err
  running : s.phase = .run → s.csr.status.done = false ∧ s.csr.status.err = false
  resting : s.phase = .idle → s.runFor = 0 ∧ s.inTouched = [] ∧ s.outTouched = []

/-! ## An undisturbed run -/

/-- Engine reads of a region neither fail (60_exceptions R216) nor fall in the CSR aperture (20_memory R75). -/
def State.readable (s : State) (r : Region) : Prop :=
  ∀ a, r.has a = true → s.busError .read a = false ∧ s.inAperture a = false

/-- Engine writes of a region neither fail nor fall in the CSR aperture. -/
def State.writable (s : State) (r : Region) : Prop :=
  ∀ a, r.has a = true → s.busError .write a = false ∧ s.inAperture a = false

/-- The host kept the duties of 70_reset R239 and R240 since the command was accepted. -/
def State.hostKeptOff (s : State) : Prop := s.inTouched = [] ∧ s.outTouched = []

/-! ## How a command ends -/

/-- The state after a success that leaves memory `m`, palette set `p`, FONT_STATE `f` and JM_HITS `h`: DONE, IDLE, and
everything else as it was (60_exceptions R213, 70_reset R248). -/
def State.succeeded (s : State) (m : Memory) (p : PaletteSet) (f : FontState) (h : BitVec 16) : State :=
  { s with
    phase := .idle
    runFor := 0
    inTouched := []
    outTouched := []
    mem := m
    ps := p
    csr := { s.csr with
      status := { s.csr.status with done := true, err := false, errCode := none }
      font := f
      jmHits := h } }

/-- The state after a check error: ERR and ERRCODE, IDLE, and everything else as it was (60_exceptions R213, R215). -/
def State.failedWith (s : State) (e : ErrCode) : State :=
  { s with
    phase := .idle
    runFor := 0
    inTouched := []
    outTouched := []
    csr := { s.csr with status := { s.csr.status with done := false, err := true, errCode := some e } } }

/-! ## The write region of a command (20_memory R76) -/

/-- The output image's region for a pre-scale width (43_bitmap_renderers R153). -/
def renderOut (c : Csrs) (width : Nat) : Region :=
  outRegion c (width * c.scaleW.toNat) (c.numRows.toNat * c.scaleH.toNat)

/-- The output image's region of FRENDER (44_font_renderer R190, R195). -/
def frenderOut (c : Csrs) : Region :=
  outRegion c (c.bpr.toNat * cellWidth c.font.cw7 * (c.zoom.toNat * c.scaleW.toNat))
    (c.numRows.toNat * 8 * (c.zoom.toNat * c.scaleH.toNat))

/-- The output image's region of the scaler (40_utilities R117). -/
def scalerOut (c : Csrs) (sh sw : Nat) : Region := outRegion c (c.srcW.toNat * sw) (c.srcH.toNat * sh)

/-- The region a command may write, by the table of 20_memory R76. -/
def writeRegion (c : Csrs) : Instr → Region
  | .nop => Region.empty
  | .palbuildDirect | .palbuildAntic | .palbuildGtia9 | .palbuildGtia11 => Region.empty
  | .renderBw1 | .renderAnticB | .renderAnticC => renderOut c (8 * c.bpr.toNat)
  | .renderBpp2 | .renderAnticD | .renderAnticE => renderOut c (4 * c.bpr.toNat)
  | .renderBpp4 | .renderGtia9 | .renderGtia10 | .renderGtia11 => renderOut c (2 * c.bpr.toNat)
  | .renderA2Hires | .renderA2HiresScreen | .renderA2Artifact => renderOut c (7 * c.bpr.toNat)
  | .renderBplLe n | .renderBplBe n | .renderBplIlLe n | .renderBplIlBe n => renderOut c (8 * c.bpr.toNat / n.toNat)
  | .renderJumpman | .renderMemmap | .renderHeatmap => renderOut c c.bpr.toNat
  | .bakeGr0 | .bakeAntic4 | .bakeGr12Upper | .bakeGr12Lower => bakedRegion c 8
  | .bakeApple => bakedRegion c 7
  | .frender => frenderOut c
  | .iscale sh sw => scalerOut c sh.toNat sw.toNat
  | .iwscale sw => scalerOut c 1 sw.toNat
  | .harvest => planeRegion c

/-- The regions a command may read, by the table of 20_memory R76. -/
def readRegions (c : Csrs) : Instr → List Region
  | .nop => []
  | .palbuildDirect | .palbuildAntic | .palbuildGtia9 | .palbuildGtia11 => []
  | .renderBw1 | .renderBpp2 | .renderBpp4 => [dataRegion c, styleRegion c]
  | .renderAnticB | .renderAnticC | .renderAnticD | .renderAnticE => [dataRegion c, styleRegion c]
  | .renderA2Hires | .renderA2HiresScreen | .renderA2Artifact => [dataRegion c, styleRegion c]
  | .renderGtia9 | .renderGtia10 | .renderGtia11 => [dataRegion c, styleRegion c]
  | .renderBplLe _ | .renderBplBe _ | .renderBplIlLe _ | .renderBplIlBe _ => [dataRegion c, styleRegion c]
  | .renderJumpman | .renderMemmap | .renderHeatmap => [dataRegion c, styleRegion c]
  | .bakeGr0 | .bakeAntic4 | .bakeGr12Upper | .bakeGr12Lower => [blobRegion c 128]
  | .bakeApple => [blobRegion c (if c.glyphs256 then 256 else 128)]
  | .frender => [dataRegion c, styleRegion c, bakedRegion c (cellWidth c.font.cw7)]
  | .iscale _ _ | .iwscale _ => [sourceRegion c]
  | .harvest => [planeRegion c, listRegion c]

/-! ## The checks of a command (60_exceptions R214) -/

/-- Code 4, SCALE: a scale factor the command uses is 0 (60_exceptions R212). -/
def scaleFails (c : Csrs) : Instr → Bool
  | .nop | .palbuildDirect | .palbuildAntic | .palbuildGtia9 | .palbuildGtia11 => false
  | .renderBw1 | .renderBpp2 | .renderBpp4 | .renderAnticB | .renderAnticC | .renderAnticD | .renderAnticE
  | .renderA2Hires | .renderA2HiresScreen | .renderA2Artifact | .renderGtia9 | .renderGtia10 | .renderGtia11
  | .renderBplLe _ | .renderBplBe _ | .renderBplIlLe _ | .renderBplIlBe _
  | .renderJumpman | .renderMemmap | .renderHeatmap => decide (c.scaleW = 0) || decide (c.scaleH = 0)
  | .bakeGr0 | .bakeAntic4 | .bakeGr12Upper | .bakeGr12Lower | .bakeApple => false
  | .frender => decide (c.zoom = 0) || decide (c.scaleH = 0) || decide (c.scaleW = 0)
  | .iscale sh sw => decide (sh = 0) || decide (sw = 0)
  | .iwscale sw => decide (sw = 0)
  | .harvest => false

/-- Code 5, GEOMETRY: a screen-order renderer off its 40-byte rows or past line 191, or a row that the planes do not
divide (60_exceptions R212). -/
def geometryFails (c : Csrs) : Instr → Bool
  | .renderA2HiresScreen => decide (c.bpr.toNat ≠ 40) || decide (192 < c.numRows.toNat)
  | .renderBplLe n | .renderBplBe n | .renderBplIlLe n | .renderBplIlBe n => decide (c.bpr.toNat % n.toNat ≠ 0)
  | .nop | .palbuildDirect | .palbuildAntic | .palbuildGtia9 | .palbuildGtia11
  | .renderBw1 | .renderBpp2 | .renderBpp4 | .renderAnticB | .renderAnticC | .renderAnticD | .renderAnticE
  | .renderA2Hires | .renderA2Artifact | .renderGtia9 | .renderGtia10 | .renderGtia11
  | .renderJumpman | .renderMemmap | .renderHeatmap
  | .bakeGr0 | .bakeAntic4 | .bakeGr12Upper | .bakeGr12Lower | .bakeApple
  | .frender | .iscale _ _ | .iwscale _ | .harvest => false

/-- Code 6, NO_FONT: FRENDER without a valid baked table (60_exceptions R212). -/
def noFontFails (c : Csrs) (i : Instr) : Bool := decide (i = .frender) && !c.font.valid

/-- Code 7, RANGE: a region of the command passes 2^32 (20_memory R77). -/
def rangeFails (c : Csrs) (i : Instr) : Bool := (writeRegion c i :: readRegions c i).any (!·.inRange)

/-- The identity case of the scaler, which is exempt from the overlap check and makes no access (40_utilities R117). -/
def scalerIdentity (c : Csrs) : Instr → Bool
  | .iscale sh sw => decide (sh = 1) && decide (sw = 1) && decide (c.outBase = c.srcBase)
  | .iwscale sw => decide (sw = 1) && decide (c.outBase = c.srcBase)
  | _ => false

/-- The read regions that the write region must not overlap: HARVEST updates its own plane in place (20_memory R78). -/
def checkedReads (c : Csrs) (i : Instr) : List Region := if i = .harvest then [listRegion c] else readRegions c i

/-- Code 8, OVERLAP: the write region overlaps a read region (20_memory R78). -/
def overlapFails (c : Csrs) (i : Instr) : Bool :=
  !scalerIdentity c i && (checkedReads c i).any (writeRegion c i).overlaps

/-- What the acceptance of a command does besides 10_state R26: a BAKE clears FONT_STATE.VALID (R47) and a HARVEST
JM_HITS (R53). -/
def acceptanceEffect (i : Instr) (s : State) : State :=
  match i with
  | .bakeGr0 | .bakeAntic4 | .bakeGr12Upper | .bakeGr12Lower | .bakeApple => clearFontValid s
  | .harvest => clearHits s
  | _ => s

/-- The palette source of a command that builds PS (41_palette R132). -/
def paletteSourceOf : Instr → Option PaletteSource
  | .palbuildDirect => some .direct
  | .palbuildAntic => some .antic
  | .palbuildGtia9 => some .gtia9
  | .palbuildGtia11 => some .gtia11
  | .renderBw1 | .renderBpp2 | .renderBpp4 => some .direct
  | .renderAnticB | .renderAnticC | .renderAnticD | .renderAnticE => some .antic
  | .renderA2Hires | .renderA2HiresScreen | .renderA2Artifact => some .direct
  | .renderGtia9 => some .gtia9
  | .renderGtia10 => some .antic
  | .renderGtia11 => some .gtia11
  | .renderBplLe _ | .renderBplBe _ | .renderBplIlLe _ | .renderBplIlBe _ => some .direct
  | .renderJumpman | .renderMemmap | .renderHeatmap => some .direct
  | .bakeGr0 | .bakeAntic4 | .bakeGr12Upper | .bakeGr12Lower => some .antic
  | .bakeApple => some .direct
  | .nop | .frender | .iscale _ _ | .iwscale _ | .harvest => none

/-- PS once a command has built its palettes, if it builds any (41_palette R132). -/
def State.palettesAfter (s : State) (i : Instr) : PaletteSet :=
  match paletteSourceOf i with
  | some src => buildPalettes s src
  | none => s.ps

/-- An address of the command whose access returns a bus error (60_exceptions R216). -/
def State.failsAt (s : State) (i : Instr) (a : Nat) : Prop :=
  ((writeRegion s.csr i).has a = true ∧ s.busError .write a = true)
    ∨ ∃ r ∈ readRegions s.csr i, r.has a = true ∧ s.busError .read a = true

/-! ## The accesses of a command (60_exceptions R216) -/

/-- Byte `field` of peanut record n: 0 x, 1 y, 2 px, 3 py (46_jumpman R206). -/
def State.recordByte (s : State) (n field : Nat) : Nat := (s.mem.read (s.csr.jmList.toNat + 4 * n + field)).toNat

/-- Record n names a pixel of the plane and an invalid cell (46_jumpman R204, R205). -/
def State.marks (s : State) (n : Nat) : Bool :=
  decide (s.recordByte n 2 < s.csr.bpr.toNat) && decide (s.recordByte n 3 < s.csr.numRows.toNat)
    && (decide ((s.recordByte n 0 + 48 + s.csr.hx.toNat) % 32 < 7)
        || decide ((2 * s.recordByte n 1 + 32 + s.csr.hy.toNat) % 32 < 5))

/-- HARVEST marks the plane byte at an address: a marking record names it (46_jumpman R205). What the list says is only
known where the platform and the host leave it alone. -/
def State.marksAt (s : State) (a : Nat) : Prop :=
  s.readable (listRegion s.csr) ∧ s.hostKeptOff
    ∧ ∃ n, n < s.csr.jmCount.toNat ∧ s.marks n = true
        ∧ a = s.csr.styleBase.toNat + (s.recordByte n 3 * s.csr.bpr.toNat + s.recordByte n 2)

/-- The command's rule reads the byte at an address (20_memory R76): the content bytes and their styles
(43_bitmap_renderers R155, 44_font_renderer R190), the glyph bytes of the mode's source glyphs (42_font_baker R139), the
baked pixels of the content cells where the cells' bytes are known, the source image, the list and the marked bytes. -/
def State.readsAt (s : State) (i : Instr) (a : Nat) : Prop :=
  let c := s.csr
  let content := fun k => k < effectiveCount c ∧ (a = c.dataBase.toNat + k ∨ a = c.styleBase.toNat + k)
  let glyphs := fun first last => ∃ k, first ≤ k ∧ k < last ∧ k < c.fontLen.toNat ∧ a = c.fontBase.toNat + k
  let cw := cellWidth c.font.cw7
  match i with
  | .nop | .palbuildDirect | .palbuildAntic | .palbuildGtia9 | .palbuildGtia11 => False
  | .renderA2HiresScreen =>
    ∃ y j, y < c.numRows.toNat ∧ j < 40 ∧ content (1024 * (y % 8) + 128 * (y / 8 % 8) + 40 * (y / 64) + j)
  | .renderBw1 | .renderBpp2 | .renderBpp4 | .renderAnticB | .renderAnticC | .renderAnticD | .renderAnticE
  | .renderA2Hires | .renderA2Artifact | .renderGtia9 | .renderGtia10 | .renderGtia11
  | .renderBplLe _ | .renderBplBe _ | .renderBplIlLe _ | .renderBplIlBe _
  | .renderJumpman | .renderMemmap | .renderHeatmap => ∃ k, k < c.bpr.toNat * c.numRows.toNat ∧ content k
  | .bakeGr0 | .bakeAntic4 => glyphs 0 1024
  | .bakeGr12Upper => glyphs 0 512
  | .bakeGr12Lower => glyphs 512 1024
  | .bakeApple => glyphs 0 (if c.glyphs256 then 2048 else 1024)
  | .frender =>
    (∃ k, k < c.bpr.toNat * c.numRows.toNat ∧ content k)
      ∨ (s.readable (dataRegion c) ∧ s.readable (styleRegion c) ∧ s.hostKeptOff
          ∧ ∃ k row col ch, k < c.bpr.toNat * c.numRows.toNat ∧ k < effectiveCount c ∧ row < 8 ∧ col < cw ∧ ch < 3
            ∧ a = glyphPixelAddr s cw (s.mem.read (c.dataBase.toNat + k)) (s.mem.read (c.styleBase.toNat + k)) row col + ch)
  | .iscale _ _ | .iwscale _ => scalerIdentity c i = false ∧ (sourceRegion c).has a = true
  | .harvest => (listRegion c).has a = true ∨ s.marksAt a

/-- The command's rule accesses the byte at an address. On success it writes its whole write region, HARVEST the marked
bytes of it (20_memory R88), and the identity case of the scaler nothing (40_utilities R117). -/
def State.accesses (s : State) (i : Instr) (d : Dir) (a : Nat) : Prop :=
  match d with
  | .read => s.readsAt i a
  | .write => if i = .harvest then s.marksAt a else scalerIdentity s.csr i = false ∧ (writeRegion s.csr i).has a = true

/-! ## CSR masks -/

/-- The bits a configuration register stores (10_state R32..R52); NREG has its own rule (R39). -/
def ConfigReg.mask : ConfigReg → Word
  | .dataBase | .styleBase | .dataLen | .count | .geom | .outBase => 0xFFFFFFFF
  | .scale => 0x00FFFFFF
  | .palCtrl => 0x000101FF
  | .highlightBg | .matchBg | .commentBg | .background | .dataBg | .emptyBg => 0x00FFFFFF
  | .anticPm | .anticPf => 0xFFFFFFFF
  | .anticBk => 0x000000FF
  | .fontBase | .fontLen | .bakeBase => 0xFFFFFFFF
  | .fontCtrl => 0x00000007
  | .fontSel => 0x00000003
  | .srcBase | .srcDim => 0xFFFFFFFF
  | .jmOffs => 0x0000FFFF
  | .jmList => 0xFFFFFFFF
  | .jmCount => 0x0000FFFF

/-- A PAL_CTRL value whose NREG field is out of 1..256 (10_state R39). -/
def nregIllegal (v : Word) : Bool := decide (v.toNat % 512 = 0) || decide (256 < v.toNat % 512)

/-! ## What a command finds in memory -/

/-- `D(i)` of an undisturbed run, as a number (43_bitmap_renderers R155). -/
def State.dataAt (s : State) (i : Nat) : Nat :=
  if i < effectiveCount s.csr then (s.mem.read (s.csr.dataBase.toNat + i)).toNat else 0

/-- `S(i)` of an undisturbed run (43_bitmap_renderers R155). -/
def State.styleAt (s : State) (i : Nat) : Byte :=
  if i < effectiveCount s.csr then s.mem.read (s.csr.styleBase.toNat + i) else 0

/-- `FB(i)` of an undisturbed run, as a number (42_font_baker R139). -/
def State.glyphAt (s : State) (glyphs i : Nat) : Nat :=
  if i < min s.csr.fontLen.toNat (8 * glyphs) then (s.mem.read (s.csr.fontBase.toNat + i)).toNat else 0

/-- The colour whose three bytes stand at an address (20_memory R80). -/
def Memory.colourAt (m : Memory) (a : Nat) : RGB := ⟨m.read a, m.read (a + 1), m.read (a + 2)⟩

/-- `PS[c][k < N ? k : 0]` of the palettes a source builds (41_palette R124, R127). -/
def State.registerColour (s : State) (src : PaletteSource) (c : StyleClass) (k : Nat) : RGB :=
  Table.get ((buildPalettes s src).bank c) (BitVec.ofNat 8 (if k < sourceCount s.csr src then k else 0))

/-! ## What a command leaves in memory -/

/-- `m` holds a `w` x `h` image at `base`, row by row (00_scope R14), and every other byte as `m0` has it. -/
def Memory.HoldsImage (m m0 : Memory) (base w h : Nat) (img : Nat → Nat → RGB) : Prop :=
  (∀ y x, y < h → x < w → m.colourAt (base + 3 * (y * w + x)) = img y x)
    ∧ ∀ a, a < base ∨ base + 3 * w * h ≤ a → m.read a = m0.read a

/-! ## RENDER -/

/-- The checks of 43_bitmap_renderers R157 that every renderer makes pass, and the run is undisturbed. -/
structure State.RenderReady (s : State) (width : Nat) : Prop where
  scaleW : s.csr.scaleW ≠ 0
  scaleH : s.csr.scaleH ≠ 0
  dataIn : (dataRegion s.csr).inRange = true
  styleIn : (styleRegion s.csr).inRange = true
  outIn : (renderOut s.csr width).inRange = true
  offData : (renderOut s.csr width).overlaps (dataRegion s.csr) = false
  offStyle : (renderOut s.csr width).overlaps (styleRegion s.csr) = false
  dataRead : s.readable (dataRegion s.csr)
  styleRead : s.readable (styleRegion s.csr)
  outWrite : s.writable (renderOut s.csr width)
  host : s.hostKeptOff

/-- The command succeeds. PS holds the palettes of `src`; the output holds the scaled image whose pre-scale pixel (y, x)
is EMPTY_BG where its own byte index is at or past cnt, and else the colour of its register in the bank of its style;
every other byte of memory, CSR and table is as it was (43_bitmap_renderers R153). -/
def State.Renders (s : State) (i : Instr) (src : PaletteSource) (width : Nat) (own : (y x : Nat) → Nat)
    (style : (y x : Nat) → Byte) (register : (y x : Nat) → Nat) : Prop :=
  ∃ m, exec i s = .next (s.succeeded m (buildPalettes s src) s.csr.font s.csr.jmHits)
    ∧ m.HoldsImage s.mem s.csr.outBase.toNat (width * s.csr.scaleW.toNat) (s.csr.numRows.toNat * s.csr.scaleH.toNat)
        fun Y X =>
          let y := Y / s.csr.scaleH.toNat
          let x := X / s.csr.scaleW.toNat
          if effectiveCount s.csr ≤ own y x then s.csr.emptyBg
          else s.registerColour src (styleClass (style y x)) (register y x)

/-- `Renders` for a pixel whose colour and style come from its own byte alone. -/
def State.RendersByte (s : State) (i : Instr) (src : PaletteSource) (width : Nat) (own : (y x : Nat) → Nat)
    (register : (byte x : Nat) → Nat) : Prop :=
  s.Renders i src width own (fun y x => s.styleAt (own y x)) (fun y x => register (s.dataAt (own y x)) x)

/-- `Renders` for a bitplane pixel: plane p is byte `byteIdx y g p` of the group g = x div 8 and bit `weight p` of the
register number; the style is the OR of the n style bytes (43_bitmap_renderers R174). -/
def State.RendersPlanes (s : State) (i : Instr) (n : Nat) (byteIdx : (y g p : Nat) → Nat) (weight : Nat → Nat) : Prop :=
  s.Renders i .direct (8 * s.csr.bpr.toNat / n) (fun y x => byteIdx y (x / 8) 0)
    (fun y x => (List.range n).foldl (fun acc p => acc ||| s.styleAt (byteIdx y (x / 8) p)) 0)
    (fun y x => ((List.range n).map fun p => s.dataAt (byteIdx y (x / 8) p) / 2 ^ (7 - x % 8) % 2 * 2 ^ weight p).sum)

/-! ## BAKE -/

/-- The checks of 42_font_baker R137 pass and the run is undisturbed. -/
structure State.BakeReady (s : State) (glyphs cw : Nat) : Prop where
  fontIn : (blobRegion s.csr glyphs).inRange = true
  outIn : (bakedRegion s.csr cw).inRange = true
  offFont : (bakedRegion s.csr cw).overlaps (blobRegion s.csr glyphs) = false
  fontRead : s.readable (blobRegion s.csr glyphs)
  outWrite : s.writable (bakedRegion s.csr cw)
  host : s.hostKeptOff

/-- The command succeeds. PS holds the palettes of `src` and FONT_STATE the new font; the pixel of class c, frame f, slot,
row and column of the baked table is register `register f slot row col` in bank c; every other byte of memory, CSR and
table is as it was (42_font_baker R137, R138, R148). -/
def State.Bakes (s : State) (i : Instr) (src : PaletteSource) (cw : Nat) (font : FontState)
    (register : (f slot row col : Nat) → Nat) : Prop :=
  ∃ m, exec i s = .next (s.succeeded m (buildPalettes s src) font s.csr.jmHits)
    ∧ (∀ (c : StyleClass) (f slot row col : Nat), f < 2 → slot < 256 → row < 8 → col < cw →
        m.colourAt (s.csr.bakeBase.toNat + 3 * ((((c.index * 2 + f) * 256 + slot) * 8 + row) * cw + col))
          = s.registerColour src c (register f slot row col))
    ∧ ∀ a, a < s.csr.bakeBase.toNat ∨ s.csr.bakeBase.toNat + 61440 * cw ≤ a → m.read a = s.mem.read a

/-! ## FRENDER -/

/-- The checks of 44_font_renderer R190 pass and the run is undisturbed. -/
structure State.FontReady (s : State) : Prop where
  zoom : s.csr.zoom ≠ 0
  scaleH : s.csr.scaleH ≠ 0
  scaleW : s.csr.scaleW ≠ 0
  valid : s.csr.font.valid = true
  dataIn : (dataRegion s.csr).inRange = true
  styleIn : (styleRegion s.csr).inRange = true
  bakedIn : (bakedRegion s.csr (cellWidth s.csr.font.cw7)).inRange = true
  outIn : (frenderOut s.csr).inRange = true
  offData : (frenderOut s.csr).overlaps (dataRegion s.csr) = false
  offStyle : (frenderOut s.csr).overlaps (styleRegion s.csr) = false
  offBaked : (frenderOut s.csr).overlaps (bakedRegion s.csr (cellWidth s.csr.font.cw7)) = false
  dataRead : s.readable (dataRegion s.csr)
  styleRead : s.readable (styleRegion s.csr)
  bakedRead : s.readable (bakedRegion s.csr (cellWidth s.csr.font.cw7))
  outWrite : s.writable (frenderOut s.csr)
  host : s.hostKeptOff

/-! ## ISCALE and IWSCALE -/

/-- The checks of 40_utilities R117 pass for factors sh and sw, the case is not the identity, and the run is undisturbed. -/
structure State.ScalerReady (s : State) (sh sw : Nat) : Prop where
  factorH : sh ≠ 0
  factorW : sw ≠ 0
  srcIn : (sourceRegion s.csr).inRange = true
  outIn : (scalerOut s.csr sh sw).inRange = true
  offSource : (scalerOut s.csr sh sw).overlaps (sourceRegion s.csr) = false
  srcRead : s.readable (sourceRegion s.csr)
  outWrite : s.writable (scalerOut s.csr sh sw)
  host : s.hostKeptOff

/-- The command succeeds; output pixel (Y, X) is source pixel (Y div sh, X div sw), and every other byte of memory, CSR
and table is as it was (40_utilities R117). -/
def State.Scales (s : State) (i : Instr) (sh sw : Nat) : Prop :=
  ∃ m, exec i s = .next (s.succeeded m s.ps s.csr.font s.csr.jmHits)
    ∧ m.HoldsImage s.mem s.csr.outBase.toNat (s.csr.srcW.toNat * sw) (s.csr.srcH.toNat * sh) fun Y X =>
        s.mem.colourAt (s.csr.srcBase.toNat + 3 * (Y / sh * s.csr.srcW.toNat + X / sw))

/-! ## HARVEST -/

/-- The checks of 46_jumpman R205 pass and the run is undisturbed. -/
structure State.HarvestReady (s : State) : Prop where
  planeIn : (planeRegion s.csr).inRange = true
  listIn : (listRegion s.csr).inRange = true
  offList : (planeRegion s.csr).overlaps (listRegion s.csr) = false
  planeRead : s.readable (planeRegion s.csr)
  planeWrite : s.writable (planeRegion s.csr)
  listRead : s.readable (listRegion s.csr)
  host : s.hostKeptOff

end Sys2Proof.Machine
end

