-- ==== Sys2Proof/Certificates/Slice0/Obligations.lean ====
section
/-! DEFINITION. The statements for the provers, from the spec's numbered rules. Each docstring names the rule; OBLIGATIONS.json
lists them. A statement about a command gives the whole next state, so its frame is part of the equation. -/

open Sys2Proof
open Sys2Proof.Machine

/-! ## Encoding -/

/-- Decoding the word of a command gives the command back, with every immediate (30_encoding R95..R102, R110). -/
def Obligations.DecodeInvertsEncode : Prop := ∀ i : Instr, i.wellFormed = true → decode (encode i) = .ok i

/-- A word that decodes to a command is that command's one encoding, and the command is well formed: no bit of a word is
ignored and no command has two words (30_encoding R103, R107, R108). -/
def Obligations.EveryCommandHasOneWord : Prop :=
  ∀ (w : Word) (i : Instr), decode w = .ok i → i.wellFormed = true ∧ encode i = w

/-- When a word is no command, and with which code: the tests of 30_encoding R110 on its four fields. -/
def Obligations.DecodeErrorByFields : Prop :=
  ∀ w : Word,
    let op := w.toNat % 256
    let sub := w.toNat / 256 % 256
    let a0 := w.toNat / 65536 % 256
    let a1 := w.toNat / 16777216
    let unknown := (op = 2 ∧ 0x14 ≤ sub) ∨ (op = 3 ∧ 0x05 ≤ sub)
    let reserved :=
      ((op = 0 ∨ op = 4 ∨ op = 7) ∧ (sub ≠ 0 ∨ a0 ≠ 0 ∨ a1 ≠ 0))
        ∨ (op = 1 ∧ (3 < sub ∨ a0 ≠ 0 ∨ a1 ≠ 0))
        ∨ (op = 3 ∧ (a0 ≠ 0 ∨ a1 ≠ 0))
        ∨ (op = 2 ∧ (a1 ≠ 0 ∨ (if 0x0D ≤ sub ∧ sub ≤ 0x10 then a0 < 1 ∨ 4 < a0 else a0 ≠ 0)))
        ∨ (op = 5 ∧ sub ≠ 0)
        ∨ (op = 6 ∧ (sub ≠ 0 ∨ a0 ≠ 0))
    (decode w = .error .badOpcode ↔ 8 ≤ op)
      ∧ (decode w = .error .rendererNotFound ↔ unknown)
      ∧ (decode w = .error .reservedField ↔ op < 8 ∧ ¬ unknown ∧ reserved)

/-- The example words of 30_encoding R111 decode as it says. -/
def Obligations.DecodeExamples : Prop :=
  decode 0x00000000 = .ok .nop
    ∧ decode 0x00000101 = .ok .palbuildAntic
    ∧ decode 0x00000002 = .ok .renderBw1
    ∧ decode 0x00000602 = .ok .renderAnticE
    ∧ decode 0x00020D02 = .ok (.renderBplLe 2)
    ∧ decode 0x00000403 = .ok .bakeApple
    ∧ decode 0x00000004 = .ok .frender
    ∧ decode 0x02020005 = .ok (.iscale 2 2)
    ∧ decode 0x04000006 = .ok (.iwscale 4)
    ∧ decode 0x00000007 = .ok .harvest
    ∧ decode 0x00000008 = .error .badOpcode
    ∧ decode 0x00001402 = .error .rendererNotFound
    ∧ decode 0x00010002 = .error .reservedField

/-! ## Steps -/

/-- A step of the engine runs the command that the accepted word encodes, and nothing around it: on the state as it is
while no host action lands first, and so in the very next step where withFetchWord has stored the word (10_state R26, R65,
70_reset R247). When a host action lands first is the model's choice, since the spec leaves a command's duration free
(log 3), and so is the duration 0 that withFetchWord gives the command (log 2). -/
def Obligations.StepRunsDecodedCommand : Prop :=
  (∀ (s : State) (i : Instr), s.phase = .run → hostActsFirst s = false → decode s.csr.lastCmd = .ok i →
      step s = exec i s)
    ∧ ∀ (s : State) (i : Instr), i.wellFormed = true →
        step (s.withFetchWord 32 (encode i).toNat) = exec i (acceptWord (encode i) s)

/-- A CMD write in IDLE is accepted by the step that does it: LAST_CMD holds the word, DONE, ERR, ERRCODE and ERR_ADDR are
cleared, BUSY is set; WIGN and every other CSR stay, but for FONT_STATE.VALID of a BAKE word and JM_HITS of a HARVEST word;
memory and the tables stay (10_state R26, R47, R53). That a word of OP 3 or 7 which decodes to no command makes these two
clears as well is the model's inference (log 17). The fields runFor and draws are the model's own. -/
def Obligations.CommandAcceptance : Prop :=
  ∀ (s : State) (w : Word) (rest : List HostAction), s.phase = .idle →
    s.hostQ = .writeCsr 0x008 .word w :: rest →
    ∃ k d, step s = .next
      { s with
        phase := .run
        hostQ := rest
        runFor := k
        inTouched := []
        outTouched := []
        draws := d
        csr := { s.csr with
          lastCmd := w
          errAddr := 0
          status := { s.csr.status with done := false, err := false, errCode := none }
          font := if w.toNat % 256 = 3 then { s.csr.font with valid := false } else s.csr.font
          jmHits := if w.toNat % 256 = 7 then 0 else s.csr.jmHits } }

/-- A word with an illegal OP ends with BAD_OPCODE, one that names no renderer with RENDERER_NOT_FOUND, and one with a
reserved field set, by the field tests of each command, with RESERVED_FIELD: the error response and nothing else, no access
and no PS write (30_encoding R103, R104, R105). -/
def Obligations.IllegalWordEndsInError : Prop :=
  ∀ s : State, s.phase = .run → hostActsFirst s = false →
    let op := s.csr.lastCmd.toNat % 256
    let sub := s.csr.lastCmd.toNat / 256 % 256
    let a0 := s.csr.lastCmd.toNat / 65536 % 256
    let a1 := s.csr.lastCmd.toNat / 16777216
    let unknown := (op = 2 ∧ 0x14 ≤ sub) ∨ (op = 3 ∧ 0x05 ≤ sub)
    let reserved :=
      ((op = 0 ∨ op = 4 ∨ op = 7) ∧ (sub ≠ 0 ∨ a0 ≠ 0 ∨ a1 ≠ 0))
        ∨ (op = 1 ∧ (3 < sub ∨ a0 ≠ 0 ∨ a1 ≠ 0))
        ∨ (op = 3 ∧ (a0 ≠ 0 ∨ a1 ≠ 0))
        ∨ (op = 2 ∧ (a1 ≠ 0 ∨ (if 0x0D ≤ sub ∧ sub ≤ 0x10 then a0 < 1 ∨ 4 < a0 else a0 ≠ 0)))
        ∨ (op = 5 ∧ sub ≠ 0)
        ∨ (op = 6 ∧ (sub ≠ 0 ∨ a0 ≠ 0))
    (8 ≤ op → step s = .next (s.failedWith .badOpcode))
      ∧ (unknown → step s = .next (s.failedWith .rendererNotFound))
      ∧ (¬ unknown → reserved → step s = .next (s.failedWith .reservedField))
      ∧ (decode s.csr.lastCmd = .error .reservedField → step s = .next (s.failedWith .reservedField))

/-! ## NOP and PALBUILD -/

/-- NOP sets DONE and changes no other architectural state, whatever the state (40_utilities R116). -/
def Obligations.NopSetsDone : Prop :=
  ∀ s : State, exec .nop s = .next (s.succeeded s.mem s.ps s.csr.font s.csr.jmHits)

/-- Each PALBUILD succeeds in every state and changes PS alone: bank c of entry k < N is the normal colour of its source,
blended or dimmed for the bank, and every entry from N on is black (41_palette R124, R128..R131). -/
def Obligations.PalbuildFillsPalettes : Prop :=
  ∀ (s : State) (k : Byte),
    let std := fun b : Byte => match s.csr.cstd with
      | .ntsc => Table.get s.platform.ntscRgb b
      | .pal => Table.get s.platform.palRgb b
    let banks := fun (p : PaletteSet) (n : RGB) =>
      Table.get p.normal k = n ∧ Table.get p.highlight k = blend n s.csr.highlightBg
        ∧ Table.get p.matched k = blend n s.csr.matchBg ∧ Table.get p.comment k = blend n s.csr.commentBg
        ∧ Table.get p.data k = dim n s.csr.background s.csr.dataBg
    let black := fun p : PaletteSet => ∀ c, Table.get (p.bank c) k = .black
    let ends := fun (i : Instr) (p : PaletteSet) => exec i s = .next (s.succeeded s.mem p s.csr.font s.csr.jmHits)
    (∃ p, ends .palbuildDirect p ∧ (if k.toNat < s.csr.nreg.toNat then banks p (Table.get s.creg k) else black p))
      ∧ (∃ p, ends .palbuildAntic p ∧ (if h : k.toNat < 9 then banks p (std s.csr.antic[k.toNat]) else black p))
      ∧ (∃ p, ends .palbuildGtia9 p
          ∧ (if k.toNat < 16 then banks p (std (BitVec.ofNat 8 (s.csr.antic[8].toNat / 16 * 16 + k.toNat))) else black p))
      ∧ (∃ p, ends .palbuildGtia11 p
          ∧ (if k.toNat < 16 then banks p (std (BitVec.ofNat 8 (k.toNat * 16 + s.csr.antic[8].toNat % 16))) else black p))

/-! ## RENDER -/

/-- RENDER.BW1, BPP2 and BPP4: 1, 2 and 4 bits per pixel, the most significant first, through CREG (43_bitmap_renderers
R159..R161). -/
def Obligations.RenderPackedPixels : Prop :=
  ∀ s : State,
    let bpr := s.csr.bpr.toNat
    (s.RenderReady (8 * bpr) → s.RendersByte .renderBw1 .direct (8 * bpr) (fun y x => y * bpr + x / 8)
        fun b x => b / 2 ^ (7 - x % 8) % 2)
      ∧ (s.RenderReady (4 * bpr) → s.RendersByte .renderBpp2 .direct (4 * bpr) (fun y x => y * bpr + x / 4)
        fun b x => b / 2 ^ (6 - 2 * (x % 4)) % 4)
      ∧ (s.RenderReady (2 * bpr) → s.RendersByte .renderBpp4 .direct (2 * bpr) (fun y x => y * bpr + x / 2)
        fun b x => if x % 2 = 0 then b / 16 else b % 16)

/-- RENDER.ANTIC_B and ANTIC_C: one bit per pixel through ANTIC registers 8 and 4; RENDER.ANTIC_D and ANTIC_E: two bits
through 8, 4, 5 and 6 (43_bitmap_renderers R162..R165). The bits and registers of modes B and C are general knowledge that
the spec states as its decision (item G1, log 25). -/
def Obligations.RenderAnticModes : Prop :=
  ∀ s : State,
    let bpr := s.csr.bpr.toNat
    (∀ i ∈ [Instr.renderAnticB, .renderAnticC], s.RenderReady (8 * bpr) →
        s.RendersByte i .antic (8 * bpr) (fun y x => y * bpr + x / 8)
          fun b x => if b / 2 ^ (7 - x % 8) % 2 = 0 then 8 else 4)
      ∧ ∀ i ∈ [Instr.renderAnticD, .renderAnticE], s.RenderReady (4 * bpr) →
        s.RendersByte i .antic (4 * bpr) (fun y x => y * bpr + x / 4)
          fun b x => [8, 4, 5, 6].getD (b / 2 ^ (6 - 2 * (x % 4)) % 4) 0

/-- RENDER.A2_HIRES: bits 0..6 of each byte, bit 0 leftmost; bit 7 is not shown (43_bitmap_renderers R166). -/
def Obligations.RenderAppleHires : Prop :=
  ∀ s : State, s.RenderReady (7 * s.csr.bpr.toNat) →
    s.RendersByte .renderA2Hires .direct (7 * s.csr.bpr.toNat) (fun y x => y * s.csr.bpr.toNat + x / 7)
      fun b x => b / 2 ^ (x % 7) % 2

/-- RENDER.A2_HIRES_SCREEN: the pixels of A2_HIRES on rows at 1024*(y mod 8) + 128*((y div 8) mod 8) + 40*(y div 64)
(43_bitmap_renderers R167, R168). -/
def Obligations.RenderAppleScreenOrder : Prop :=
  ∀ s : State, s.csr.bpr.toNat = 40 → s.csr.numRows.toNat ≤ 192 → s.RenderReady 280 →
    s.RendersByte .renderA2HiresScreen .direct 280
      (fun y x => 1024 * (y % 8) + 128 * (y / 8 % 8) + 40 * (y / 64) + x / 7) fun b x => b / 2 ^ (x % 7) % 2

/-- RENDER.A2_ARTIFACT: the colour of a sub-pair of the 14 sub-bits of an aligned byte pair, by its two bits and the high
bit of the byte of its first column; a partner past the row or past cnt is 0; style and emptiness are the pixel's own
byte's (43_bitmap_renderers R169, R170). The colours and register numbers are general knowledge that the spec states as its
decision (item G2, log 25). -/
def Obligations.RenderAppleArtifact : Prop :=
  ∀ s : State, s.RenderReady (7 * s.csr.bpr.toNat) →
    s.Renders .renderA2Artifact .direct (7 * s.csr.bpr.toNat) (fun y x => y * s.csr.bpr.toNat + x / 7)
      (fun y x => s.styleAt (y * s.csr.bpr.toNat + x / 7))
      fun y x =>
        let rs := y * s.csr.bpr.toNat
        let q := x / 14
        let b0 := s.dataAt (rs + 2 * q)
        let b1 := if 2 * q + 1 < s.csr.bpr.toNat then s.dataAt (rs + 2 * q + 1) else 0
        let sub := fun k => if k < 7 then b0 / 2 ^ k % 2 else b1 / 2 ^ (k - 7) % 2
        let p := x % 14 / 2
        let warm := (if p ≤ 3 then b0 else b1) / 128
        match sub (2 * p), sub (2 * p + 1) with
        | 0, 0 => 0
        | 0, _ => if warm = 0 then 3 else 5
        | _, 0 => if warm = 0 then 2 else 4
        | _, _ => 1

/-- RENDER.GTIA9, GTIA10 and GTIA11: a nibble per pixel, high nibble left, through the luminance ramp, the nine ANTIC
registers (9..15 clamp to register 0) and the hue ramp (43_bitmap_renderers R171..R173, 41_palette R127). -/
def Obligations.RenderGtiaModes : Prop :=
  ∀ s : State,
    let bpr := s.csr.bpr.toNat
    s.RenderReady (2 * bpr) →
      let nibble := fun b x : Nat => if x % 2 = 0 then b / 16 else b % 16
      s.RendersByte .renderGtia9 .gtia9 (2 * bpr) (fun y x => y * bpr + x / 2) nibble
        ∧ s.RendersByte .renderGtia10 .antic (2 * bpr) (fun y x => y * bpr + x / 2) nibble
        ∧ s.RendersByte .renderGtia11 .gtia11 (2 * bpr) (fun y x => y * bpr + x / 2) nibble

/-- RENDER.BPL_LE and BPL_BE, N = 1..4: the N planes of 8 pixels in adjacent bytes; byte p is bit p, or bit N-1-p
(43_bitmap_renderers R174, R175). -/
def Obligations.RenderAdjacentPlanes : Prop :=
  ∀ (s : State) (n : Byte),
    let bpr := s.csr.bpr.toNat
    1 ≤ n.toNat → n.toNat ≤ 4 → bpr % n.toNat = 0 → s.RenderReady (8 * bpr / n.toNat) →
      s.RendersPlanes (.renderBplLe n) n.toNat (fun y g p => y * bpr + g * n.toNat + p) (fun p => p)
        ∧ s.RendersPlanes (.renderBplBe n) n.toNat (fun y g p => y * bpr + g * n.toNat + p) (fun p => n.toNat - 1 - p)

/-- RENDER.BPL_IL_LE and BPL_IL_BE, N = 1..4: plane p in the p-th of N equal strips of the row (43_bitmap_renderers R176,
R177). -/
def Obligations.RenderInterleavedPlanes : Prop :=
  ∀ (s : State) (n : Byte),
    let bpr := s.csr.bpr.toNat
    1 ≤ n.toNat → n.toNat ≤ 4 → bpr % n.toNat = 0 → s.RenderReady (8 * bpr / n.toNat) →
      s.RendersPlanes (.renderBplIlLe n) n.toNat (fun y g p => y * bpr + p * (bpr / n.toNat) + g) (fun p => p)
        ∧ s.RendersPlanes (.renderBplIlBe n) n.toNat (fun y g p => y * bpr + p * (bpr / n.toNat) + g)
            (fun p => n.toNat - 1 - p)

/-- RENDER.JUMPMAN, MEMMAP and HEATMAP: the byte is the register number (43_bitmap_renderers R178..R180). -/
def Obligations.RenderBytePixels : Prop :=
  ∀ s : State,
    let bpr := s.csr.bpr.toNat
    ∀ i ∈ [Instr.renderJumpman, .renderMemmap, .renderHeatmap], s.RenderReady bpr →
      s.RendersByte i .direct bpr (fun y x => y * bpr + x) fun b _ => b

/-! ## BAKE -/

/-- BAKE.GR0: pf1 on pf2, slots 128..255 inverse, REVERSE complements both halves; both frames alike
(42_font_baker R141, R146). Foreground pf1 on background pf2 is general knowledge that the spec states as its decision (item
G5, log 25). -/
def Obligations.BakeGr0Tables : Prop :=
  ∀ s : State, s.BakeReady 128 8 →
    s.Bakes .bakeGr0 .antic 8 { valid := true, cw7 := false, bmode := 0 } fun _ slot row col =>
      let bit := s.glyphAt 128 (8 * (slot % 128) + row) / 2 ^ (7 - col) % 2 = 1
      let inverse := (128 ≤ slot) ≠ (s.csr.reverse = true)
      if bit ≠ inverse then 5 else 6

/-- BAKE.ANTIC4: two bits per double-width pixel through background, pf0, pf1 and pf2, or pf3 in the inverse half
(42_font_baker R142, R146). -/
def Obligations.BakeAntic4Tables : Prop :=
  ∀ s : State, s.BakeReady 128 8 →
    s.Bakes .bakeAntic4 .antic 8 { valid := true, cw7 := false, bmode := 1 } fun _ slot row col =>
      let inverse := (128 ≤ slot) ≠ (s.csr.reverse = true)
      match s.glyphAt 128 (8 * (slot % 128) + row) / 2 ^ (6 - 2 * (col / 2)) % 4 with
      | 0 => 8
      | 1 => 4
      | 2 => 5
      | _ => if inverse then 7 else 6

/-- BAKE.GR12_UPPER and GR12_LOWER: 64 source glyphs, 0..63 or 64..127, four colour bands pf0..pf3 by slot div 64; REVERSE
swaps foreground and background (42_font_baker R143, R144). -/
def Obligations.BakeGr12Tables : Prop :=
  ∀ s : State, s.BakeReady 128 8 →
    let register := fun (first slot row col : Nat) =>
      let bit := s.glyphAt 128 (8 * (slot % 64 + first) + row) / 2 ^ (7 - col) % 2 = 1
      if bit ≠ (s.csr.reverse = true) then 4 + slot / 64 else 8
    s.Bakes .bakeGr12Upper .antic 8 { valid := true, cw7 := false, bmode := 2 } (fun _ => register 0)
      ∧ s.Bakes .bakeGr12Lower .antic 8 { valid := true, cw7 := false, bmode := 3 } (fun _ => register 64)

/-- BAKE.APPLE: seven columns, bit 0 leftmost, register 1 on 0. With 128 glyphs slots 0..63 are inverse, and with
HAS_BLINK slots 64..127 in frame 0; REVERSE complements (42_font_baker R145, R146, R147). -/
def Obligations.BakeAppleTables : Prop :=
  ∀ s : State,
    let glyphs := if s.csr.glyphs256 then 256 else 128
    s.BakeReady glyphs 7 →
      s.Bakes .bakeApple .direct 7 { valid := true, cw7 := true, bmode := 4 } fun f slot row col =>
        let bit := s.glyphAt glyphs (8 * (slot % glyphs) + row) / 2 ^ col % 2 = 1
        let base := s.csr.glyphs256 = false ∧ (slot < 64 ∨ (slot < 128 ∧ s.csr.hasBlink = true ∧ f = 0))
        if bit ≠ (base ≠ (s.csr.reverse = true)) then 1 else 0

/-- After a BAKE, frame 1 equals frame 0 in every class and slot, but for slots 64..127 of an Apple font of 128 glyphs with
HAS_BLINK; there the two frames show the two palette entries swapped (42_font_baker R147). -/
def Obligations.BlinkFramesDifferOnlyInBlinkSlots : Prop :=
  ∀ (s : State) (i : Instr) (c : StyleClass) (slot row col : Nat),
    let apple := i = .bakeApple
    let cw := if apple then 7 else 8
    let glyphs := if apple ∧ s.csr.glyphs256 = true then 256 else 128
    i ∈ [Instr.bakeGr0, .bakeAntic4, .bakeGr12Upper, .bakeGr12Lower, .bakeApple] → s.BakeReady glyphs cw →
    slot < 256 → row < 8 → col < cw →
    ∃ t, exec i s = .next t ∧ t.csr.status.done = true ∧
      let pixel := fun f : Nat => t.mem.colourAt
        (s.csr.bakeBase.toNat + 3 * ((((c.index * 2 + f) * 256 + slot) * 8 + row) * cw + col))
      if apple ∧ s.csr.glyphs256 = false ∧ s.csr.hasBlink = true ∧ 64 ≤ slot ∧ slot < 128 then
        (pixel 0 = s.registerColour .direct c 0 ∧ pixel 1 = s.registerColour .direct c 1)
          ∨ (pixel 0 = s.registerColour .direct c 1 ∧ pixel 1 = s.registerColour .direct c 0)
      else pixel 1 = pixel 0

/-! ## FRENDER, ISCALE, IWSCALE, HARVEST -/

/-- FRENDER: each content cell shows the baked pixel of its mapped character in the class of its style and the selected
frame, each cell past cnt BACKGROUND, scaled by ZOOM times SCALE; nothing else changes (44_font_renderer R190..R193). -/
def Obligations.FrenderDrawsText : Prop :=
  ∀ s : State, s.FontReady →
    let cw := if s.csr.font.cw7 then 7 else 8
    let sw := s.csr.zoom.toNat * s.csr.scaleW.toNat
    let sh := s.csr.zoom.toNat * s.csr.scaleH.toNat
    let bpr := s.csr.bpr.toNat
    ∃ m, exec .frender s = .next (s.succeeded m s.ps s.csr.font s.csr.jmHits)
      ∧ m.HoldsImage s.mem s.csr.outBase.toNat (bpr * cw * sw) (s.csr.numRows.toNat * 8 * sh) fun Y X =>
          let cell := Y / sh / 8 * bpr + X / sw / cw
          let cmap := if s.csr.cmapAtascii then s.platform.cmapAtascii else s.platform.cmapInternal
          let slot := (Table.get cmap (s.mem.read (s.csr.dataBase.toNat + cell))).toNat
          let cls := (styleClass (s.mem.read (s.csr.styleBase.toNat + cell))).index
          let frame := if s.csr.frame then 1 else 0
          if min s.csr.count.toNat s.csr.dataLen.toNat ≤ cell then s.csr.background
          else s.mem.colourAt (s.csr.bakeBase.toNat
            + 3 * ((((cls * 2 + frame) * 256 + slot) * 8 + Y / sh % 8) * cw + X / sw % cw))

/-- ISCALE and IWSCALE copy each source pixel to its block of sh x sw pixels, sh = 1 for IWSCALE; nothing else changes
(40_utilities R117, R118). -/
def Obligations.ScalerCopiesBlocks : Prop :=
  ∀ (s : State) (sh sw : Byte),
    (s.ScalerReady sh.toNat sw.toNat → scalerIdentity s.csr (.iscale sh sw) = false →
        s.Scales (.iscale sh sw) sh.toNat sw.toNat)
      ∧ (s.ScalerReady 1 sw.toNat → scalerIdentity s.csr (.iwscale sw) = false → s.Scales (.iwscale sw) 1 sw.toNat)

/-- The identity case of ISCALE and IWSCALE succeeds and makes no access, once the source is in range, whatever the
platform does (40_utilities R117). -/
def Obligations.ScalerIdentityChangesNothing : Prop :=
  ∀ (s : State) (i : Instr), scalerIdentity s.csr i = true → (sourceRegion s.csr).inRange = true →
    exec i s = .next (s.succeeded s.mem s.ps s.csr.font s.csr.jmHits)

/-- HARVEST ORs the comment bit 0x20 into exactly the plane bytes that a marking record names, leaves every other byte, and
counts the marking records in JM_HITS; nothing else changes (46_jumpman R204..R207). -/
def Obligations.HarvestMarksInvalidCells : Prop :=
  ∀ s : State, s.HarvestReady →
    let bpr := s.csr.bpr.toNat
    let names := fun k => ∃ n, n < s.csr.jmCount.toNat ∧ s.marks n = true
      ∧ s.recordByte n 3 * bpr + s.recordByte n 2 = k
    ∃ m, exec .harvest s = .next (s.succeeded m s.ps s.csr.font
        (BitVec.ofNat 16 ((List.range s.csr.jmCount.toNat).countP s.marks)))
      ∧ (∀ k, k < bpr * s.csr.numRows.toNat →
          (names k → m.read (s.csr.styleBase.toNat + k) = s.mem.read (s.csr.styleBase.toNat + k) ||| 0x20)
            ∧ (¬ names k → m.read (s.csr.styleBase.toNat + k) = s.mem.read (s.csr.styleBase.toNat + k)))
      ∧ ∀ a, a < s.csr.styleBase.toNat ∨ s.csr.styleBase.toNat + bpr * s.csr.numRows.toNat ≤ a →
          m.read a = s.mem.read a

/-! ## Errors -/

/-- A factor of 0 ends a RENDER, FRENDER, ISCALE or IWSCALE with SCALE, precisely: the error response and nothing else
(60_exceptions R212, R214, R215). -/
def Obligations.ZeroFactorEndsInScale : Prop :=
  ∀ (s : State) (i : Instr), i.wellFormed = true → scaleFails s.csr i = true → exec i s = .next (s.failedWith .scale)

/-- The geometry checks of the screen-order and bitplane renderers end them with GEOMETRY, after SCALE, precisely
(43_bitmap_renderers R157, R167, R174, 60_exceptions R215). -/
def Obligations.BadGeometryEndsInGeometry : Prop :=
  ∀ (s : State) (i : Instr), i.wellFormed = true → scaleFails s.csr i = false → geometryFails s.csr i = true →
    exec i s = .next (s.failedWith .geometry)

/-- FRENDER without a valid baked table ends with NO_FONT, after SCALE, precisely (44_font_renderer R190, 60_exceptions
R215). -/
def Obligations.FrenderWithoutFontEndsInNoFont : Prop :=
  ∀ s : State, scaleFails s.csr .frender = false → s.csr.font.valid = false →
    exec .frender s = .next (s.failedWith .noFont)

/-- A region that passes 2^32 ends a command with RANGE, after the earlier checks, with no access and only its acceptance
effect (20_memory R77, 60_exceptions R214, R215). -/
def Obligations.RegionPastEndEndsInRange : Prop :=
  ∀ (s : State) (i : Instr), i.wellFormed = true → scaleFails s.csr i = false → geometryFails s.csr i = false →
    noFontFails s.csr i = false → rangeFails s.csr i = true →
    exec i s = .next ((acceptanceEffect i s).failedWith .range)

/-- A write region that overlaps a read region ends a command with OVERLAP, after every other check, with no access and
only its acceptance effect (20_memory R78, 60_exceptions R214, R215). -/
def Obligations.OverlappingRegionsEndInOverlap : Prop :=
  ∀ (s : State) (i : Instr), i.wellFormed = true → scaleFails s.csr i = false → geometryFails s.csr i = false →
    noFontFails s.csr i = false → rangeFails s.csr i = false → overlapFails s.csr i = true →
    exec i s = .next ((acceptanceEffect i s).failedWith .overlap)

/-- An access that the platform fails, of a byte that the command reads or writes, ends a RENDER, BAKE, FRENDER, ISCALE or
IWSCALE with BUS once its checks pass: ERR_ADDR is an address of the command that fails, PS holds the palettes it built,
FONT_STATE.VALID is 0 after a BAKE, memory outside its write region and every other CSR are as they were (60_exceptions R213,
R216). -/
def Obligations.FailingAccessEndsInBus : Prop :=
  ∀ (s : State) (i : Instr) (d : Dir) (a : Nat), i.wellFormed = true → scaleFails s.csr i = false →
    geometryFails s.csr i = false → noFontFails s.csr i = false → rangeFails s.csr i = false →
    overlapFails s.csr i = false → i ≠ .harvest →
    (∀ b, (writeRegion s.csr i).has b = true → s.inAperture b = false) →
    s.accesses i d a → s.busError d a = true →
    let t := (acceptanceEffect i s).failedWith .bus
    ∃ m b, exec i s = .next
        { t with mem := m, ps := s.palettesAfter i, csr := { t.csr with errAddr := BitVec.ofNat 32 b } }
      ∧ s.failsAt i b
      ∧ ∀ x, (writeRegion s.csr i).has x = false → m.read x = s.mem.read x

/-- A failing read of HARVEST's list, or a failing read or write of a style-plane byte that it marks, ends it with BUS: PS
and FONT_STATE stay, and JM_HITS is UNSPECIFIED (46_jumpman R205, R207, 60_exceptions R216). That it is a number of
0..JM_COUNT is item U6 of 93_implementation_defined, as the model takes it (log 10). -/
def Obligations.FailingAccessEndsHarvestInBus : Prop :=
  ∀ (s : State) (d : Dir) (a : Nat), rangeFails s.csr .harvest = false → overlapFails s.csr .harvest = false →
    (∀ b, (planeRegion s.csr).has b = true → s.inAperture b = false) →
    s.accesses .harvest d a → s.busError d a = true →
    let t := s.failedWith .bus
    ∃ m b h, exec .harvest s = .next
        { t with mem := m, csr := { t.csr with errAddr := BitVec.ofNat 32 b, jmHits := h } }
      ∧ s.failsAt .harvest b ∧ h.toNat ≤ s.csr.jmCount.toNat
      ∧ ∀ x, (planeRegion s.csr).has x = false → m.read x = s.mem.read x

/-! ## The host's side -/

/-- Each configuration register at its offset of the map. A write in IDLE sets the fields of its bit ranges and no other
(FONT_STATE.VALID apart, which has a statement of its own); a NREG field out of 1..256 keeps its old value. A read then
returns the written value in the bits the register stores and 0 in its reserved bits; every other configuration register,
CREG, PS and memory keep theirs (00_scope R13, 10_state R23, R32..R52, R56, 70_reset R250). -/
def Obligations.ConfigReadsBackWhatWasWritten : Prop :=
  ∀ (s : State) (r : ConfigReg) (v : Word), s.phase = .idle →
    let off : BitVec 13 := match r with
      | .dataBase => 0x020 | .styleBase => 0x024 | .dataLen => 0x028 | .count => 0x02C | .geom => 0x030 | .scale => 0x034
      | .outBase => 0x038 | .palCtrl => 0x03C | .highlightBg => 0x040 | .matchBg => 0x044 | .commentBg => 0x048
      | .background => 0x04C | .dataBg => 0x050 | .emptyBg => 0x054 | .anticPm => 0x058 | .anticPf => 0x05C
      | .anticBk => 0x060 | .fontBase => 0x064 | .fontLen => 0x068 | .bakeBase => 0x06C | .fontCtrl => 0x070
      | .fontSel => 0x074 | .srcBase => 0x078 | .srcDim => 0x07C | .jmOffs => 0x080 | .jmList => 0x084 | .jmCount => 0x088
    let t := hostAct (.writeCsr off .word v) s
    let byte := fun k : Nat => BitVec.ofNat 8 (v.toNat / 2 ^ k)
    let half := fun k : Nat => BitVec.ofNat 16 (v.toNat / 2 ^ k)
    let bit := fun k : Nat => decide (v.toNat / 2 ^ k % 2 = 1)
    let colour : RGB := { r := byte 16, g := byte 8, b := byte 0 }
    let c := { s.csr with font := t.csr.font }
    let n := v.toNat % 512
    let a := fun k : Fin 9 => s.csr.antic[k]
    t.csr = (match r with
        | .dataBase => { c with dataBase := v }
        | .styleBase => { c with styleBase := v }
        | .dataLen => { c with dataLen := v }
        | .count => { c with count := v }
        | .geom => { c with bpr := half 0, numRows := half 16 }
        | .scale => { c with scaleW := byte 0, scaleH := byte 8, zoom := byte 16 }
        | .outBase => { c with outBase := v }
        | .palCtrl =>
          { c with
            nreg := if 1 ≤ n ∧ n ≤ 256 then BitVec.ofNat 9 n else s.csr.nreg
            cstd := if bit 16 then .pal else .ntsc }
        | .highlightBg => { c with highlightBg := colour }
        | .matchBg => { c with matchBg := colour }
        | .commentBg => { c with commentBg := colour }
        | .background => { c with background := colour }
        | .dataBg => { c with dataBg := colour }
        | .emptyBg => { c with emptyBg := colour }
        | .anticPm => { c with antic := #v[byte 0, byte 8, byte 16, byte 24, a 4, a 5, a 6, a 7, a 8] }
        | .anticPf => { c with antic := #v[a 0, a 1, a 2, a 3, byte 0, byte 8, byte 16, byte 24, a 8] }
        | .anticBk => { c with antic := #v[a 0, a 1, a 2, a 3, a 4, a 5, a 6, a 7, byte 0] }
        | .fontBase => { c with fontBase := v }
        | .fontLen => { c with fontLen := v }
        | .bakeBase => { c with bakeBase := v }
        | .fontCtrl => { c with reverse := bit 0, hasBlink := bit 1, glyphs256 := bit 2 }
        | .fontSel => { c with cmapAtascii := bit 0, frame := bit 1 }
        | .srcBase => { c with srcBase := v }
        | .srcDim => { c with srcW := half 0, srcH := half 16 }
        | .jmOffs => { c with hx := byte 0, hy := byte 8 }
        | .jmList => { c with jmList := v }
        | .jmCount => { c with jmCount := half 0 })
      ∧ (hostAct (.readCsr off .word) t).readData =
          (if r = .palCtrl ∧ nregIllegal v = true then (v &&& 0x00010000) ||| s.csr.nreg.setWidth 32 else v &&& r.mask)
      ∧ (∀ q : ConfigReg, q ≠ r → readConfig t.csr q = readConfig s.csr q)
      ∧ t.creg = s.creg ∧ t.ps = s.ps ∧ t.mem = s.mem ∧ t.phase = .idle ∧ t.csr.status = s.csr.status

/-- The CREG window: a write in IDLE sets R from bits [23:16], G from [15:8] and B from [7:0] of the entry, is read back with
bits [31:24] zero and changes no other entry, PS or memory (00_scope R13, 10_state R54). -/
def Obligations.CregWindowReadsBack : Prop :=
  ∀ (s : State) (k : Byte) (v : Word), s.phase = .idle →
    let off := BitVec.ofNat 13 (0x400 + 4 * k.toNat)
    let t := hostAct (.writeCsr off .word v) s
    let byte := fun k : Nat => BitVec.ofNat 8 (v.toNat / 2 ^ k)
    Table.get t.creg k = { r := byte 16, g := byte 8, b := byte 0 }
      ∧ (hostAct (.readCsr off .word) t).readData = v &&& 0x00FFFFFF
      ∧ (∀ j : Byte, j ≠ k → Table.get t.creg j = Table.get s.creg j) ∧ t.ps = s.ps ∧ t.mem = s.mem

/-- While BUSY, a write of CMD, of a configuration register or of CREG changes nothing but WIGN (10_state R57). -/
def Obligations.BusyWritesOnlySetWign : Prop :=
  ∀ (s : State) (off : BitVec 13) (v : Word), s.phase = .run → off.toNat % 4 = 0 →
    off.toNat = 0x008 ∨ (0x020 ≤ off.toNat ∧ off.toNat ≤ 0x088) ∨ (0x400 ≤ off.toNat ∧ off.toNat ≤ 0x7FC) →
    hostAct (.writeCsr off .word v) s =
      { s with csr := { s.csr with status := { s.csr.status with wign := true } } }

/-- Writes of a read-only register, of the PS window and of the reserved offsets are ignored in either phase, and set no
flag. The reserved offsets, CTRL and CMD read 0, ID 0x0001_0000, IRQ_EN its two bits, LAST_CMD, ERR_ADDR and JM_HITS their
values, FONT_STATE VALID in bit 0, CW7 in bit 1 and BMODE in [6:4], and PS in IDLE its entry with R in [23:16], G in [15:8]
and B in [7:0] (00_scope R13, 10_state R24..R31, R53, R55, R56). -/
def Obligations.ReadOnlyAndReservedOffsets : Prop :=
  ∀ s : State,
    let read := fun off : BitVec 13 => (hostAct (.readCsr off .word) s).readData
    let bit := fun b : Bool => if b then 1 else 0
    (∀ (off : BitVec 13) (v : Word), off.toNat % 4 = 0 →
        off.toNat ∈ [0x000, 0x014, 0x018, 0x01C, 0x08C] ∨ (0x090 ≤ off.toNat ∧ off.toNat < 0x400) ∨ 0x800 ≤ off.toNat →
        hostAct (.writeCsr off .word v) s = s)
      ∧ (∀ off : BitVec 13, off.toNat % 4 = 0 → (0x090 ≤ off.toNat ∧ off.toNat < 0x400) ∨ 0x1C00 ≤ off.toNat →
          read off = 0)
      ∧ read 0x000 = 0x00010000 ∧ read 0x004 = 0 ∧ read 0x008 = 0
      ∧ (read 0x010).toNat = bit s.csr.irqEn.doneIe + 2 * bit s.csr.irqEn.errIe
      ∧ read 0x014 = s.csr.lastCmd ∧ read 0x018 = s.csr.errAddr
      ∧ (read 0x01C).toNat = bit s.csr.font.valid + 2 * bit s.csr.font.cw7 + 16 * s.csr.font.bmode.toNat
      ∧ (read 0x08C).toNat = s.csr.jmHits.toNat
      ∧ (∀ (off : BitVec 13) (c : StyleClass) (k : Byte), off.toNat = 0x800 + 0x400 * c.index + 4 * k.toNat →
          s.phase = .idle →
          let e := Table.get (s.ps.bank c) k
          (read off).toNat = 65536 * e.r.toNat + 256 * e.g.toNat + e.b.toNat)

/-- A CSR access that is no aligned word is ignored or returns 0, and a CSR read changes nothing but what the host has
read (and the model's draw counter) (10_state R58). -/
def Obligations.CsrAccessSize : Prop :=
  ∀ (s : State) (off : BitVec 13) (size : AccessSize) (v : Word),
    (size ≠ .word ∨ off.toNat % 4 ≠ 0 →
        hostAct (.writeCsr off size v) s = s ∧ (hostAct (.readCsr off size) s).readData = 0)
      ∧ hostAct (.readCsr off size) s =
          { s with readData := (hostAct (.readCsr off size) s).readData, draws := s.draws + 1 }

/-- STATUS: BUSY in bit 0, DONE in 1, ERR in 2, WIGN in 3, ERRCODE in [11:8]; a write of 1 clears DONE, ERR with ERRCODE,
or WIGN, changes nothing else in either phase, and ERR_ADDR survives it (10_state R27, 60_exceptions R212, R217). -/
def Obligations.StatusReadsAndClears : Prop :=
  ∀ (s : State) (v : Word),
    let code := match s.csr.status.errCode with
      | none => 0
      | some .badOpcode => 1
      | some .rendererNotFound => 2
      | some .reservedField => 3
      | some .scale => 4
      | some .geometry => 5
      | some .noFont => 6
      | some .range => 7
      | some .overlap => 8
      | some .bus => 9
    let st := s.csr.status
    (readCsr (csrAt 0x00C) s).toNat =
        (if s.phase = .run then 1 else 0) + (if st.done then 2 else 0) + (if st.err then 4 else 0)
          + (if st.wign then 8 else 0) + 256 * code
      ∧ hostAct (.writeCsr 0x00C .word v) s =
          { s with csr := { s.csr with status :=
            { done := st.done && !v.getLsbD 1
              err := st.err && !v.getLsbD 2
              wign := st.wign && !v.getLsbD 3
              errCode := if v.getLsbD 2 then none else st.errCode } } }

/-- FONT_STATE.VALID is cleared by a write in IDLE of each register that a bake depends on and of CREG, even one that
leaves the value unchanged, and by no other configuration write (10_state R47). -/
def Obligations.BakeInputWritesInvalidateFont : Prop :=
  ∀ (s : State) (r : ConfigReg) (k : Byte) (v : Word), s.phase = .idle →
    (hostAct (.writeCsr (BitVec.ofNat 13 r.offset) .word v) s).csr.font =
        (if r ∈ [ConfigReg.palCtrl, .highlightBg, .matchBg, .commentBg, .background, .dataBg, .anticPm, .anticPf,
            .anticBk, .fontBase, .fontLen, .bakeBase, .fontCtrl]
          then { s.csr.font with valid := false } else s.csr.font)
      ∧ (hostAct (.writeCsr (BitVec.ofNat 13 (0x400 + 4 * k.toNat)) .word v) s).csr.font =
          { s.csr.font with valid := false }

/-- The interrupt line is high exactly while an enabled bit is pending; IRQ_EN is written in either phase; the acceptance
of a command drops the line (10_state R28, R66, 60_exceptions R221, 70_reset R244). -/
def Obligations.InterruptLineFollowsStatus : Prop :=
  ∀ (s : State) (v : Word),
    (irqLine s = true ↔ (s.csr.status.done = true ∧ s.csr.irqEn.doneIe = true)
        ∨ (s.csr.status.err = true ∧ s.csr.irqEn.errIe = true))
      ∧ irqLine (hostAct (.writeCsr 0x010 .word v) s) =
          ((s.csr.status.done && v.getLsbD 0) || (s.csr.status.err && v.getLsbD 1))
      ∧ (s.phase = .idle → irqLine (hostAct (.writeCsr 0x008 .word v) s) = false)

/-- A memory byte the host writes in IDLE is read back, every other byte and all other state stay; a byte access that
falls in the CSR aperture is ignored and reads 0 (20_memory R79, R85, 10_state R58). That the byte access is taken as a
CSR access of the wrong size is the model's choice (log 19). -/
def Obligations.HostMemoryReadsBack : Prop :=
  ∀ (s : State) (a : Word) (v : Byte), MachineInv s → s.phase = .idle →
    let t := hostAct (.writeMem a v) s
    if s.inAperture a.toNat = true then t = s ∧ (hostAct (.readMem a) s).readData = 0
    else (hostAct (.readMem a) t).readData = v.setWidth 32
      ∧ (∀ b, b ≠ a.toNat → t.mem.read b = s.mem.read b) ∧ t = { s with mem := t.mem }

/-- While a command runs, a host read of a byte of its write region returns the byte's old value or the value it has at the
command's end, and outside the write region the byte as it stands (20_memory R89, which calls the byte UNSPECIFIED: old,
new or partly written). That it is one of these two is item U8 of 93_implementation_defined, as the model takes it (log
14). -/
def Obligations.InFlightReadIsOldOrFinal : Prop :=
  ∀ (s t : State) (i : Instr) (a : Word), s.phase = .run → decode s.csr.lastCmd = .ok i → exec i s = .next t →
    s.inAperture a.toNat = false →
    let r := (hostAct (.readMem a) s).readData
    (r = (s.mem.read a.toNat).setWidth 32 ∨ r = (t.mem.read a.toNat).setWidth 32)
      ∧ ((writeRegion s.csr i).has a.toNat = false → r = (s.mem.read a.toNat).setWidth 32)

/-- A soft reset in either phase puts the engine in IDLE, every CSR at its power-on value and the IRQ line low. It keeps CREG,
and touches no memory when no command runs or the word accepted is none (70_reset R234). The one case shut out of the CREG
clause is an aborted command that writes into the CSR aperture, whose effect is UNSPECIFIED (20_memory R75, log 15). PS is
UNSPECIFIED after a soft reset, so the statement says nothing of PS. -/
def Obligations.SoftResetRestoresCsrs : Prop :=
  ∀ (s : State) (v : Word), v.getLsbD 0 = true →
    let t := hostAct (.writeCsr 0x004 .word v) s
    t.phase = .idle ∧ t.csr = Csrs.reset ∧ irqLine t = false
      ∧ ((∀ i a, s.phase = .run → decode s.csr.lastCmd = .ok i → (writeRegion s.csr i).has a = true →
            s.inAperture a = false) → t.creg = s.creg)
      ∧ (s.phase = .idle ∨ (∃ e, decode s.csr.lastCmd = .error e) → t.mem = s.mem)

/-- A soft reset during a command leaves each byte with its old value or the value the command would have left, reports
neither DONE nor ERR, leaves VALID 0, and keeps CREG (70_reset R235). Where an access of the command fails, the value it would
have left in its write region is the free value of a BUS end, by the model's choice (log 15). -/
def Obligations.SoftResetStopsCommandAnywhere : Prop :=
  ∀ (s t : State) (i : Instr) (v : Word), s.phase = .run → v.getLsbD 0 = true → decode s.csr.lastCmd = .ok i →
    exec i s = .next t →
    (∀ a, (writeRegion s.csr i).has a = true → s.inAperture a = false) →
    let r := hostAct (.writeCsr 0x004 .word v) s
    r.phase = .idle ∧ r.csr.status = { done := false, err := false, wign := false, errCode := none }
      ∧ r.csr.font.valid = false ∧ r.creg = s.creg
      ∧ ∀ a, r.mem.read a = s.mem.read a ∨ r.mem.read a = t.mem.read a

/-! ## Functions of the rules -/

/-- BITREV moves bit i to bit 7 - i, with the values the rule lists; it is its own inverse and fixes exactly 16 bytes
(40_utilities R113, R120). -/
def Obligations.BitReverseTable : Prop :=
  (∀ (b : Byte) (i : Fin 8), (bitReverse b).getLsbD (7 - i.val) = b.getLsbD i.val)
    ∧ [0x00, 0x01, 0x0F, 0x7F, 0xAA, 0xC5, 0xFF].map bitReverse = ([0x00, 0x80, 0xF0, 0xFE, 0x55, 0xA3, 0xFF] : List Byte)
    ∧ (∀ b : Byte, bitReverse (bitReverse b) = b)
    ∧ ((List.range 256).countP fun k => bitReverse (BitVec.ofNat 8 k) == BitVec.ofNat 8 k) = 16
    ∧ ∀ b ∈ ([0x00, 0x18, 0x3C, 0x66, 0x81, 0xA5, 0xC3, 0xDB, 0xE7, 0xFF] : List Byte), bitReverse b = b

/-- The scale function: identity at 1 x 1, composition by multiplying the factors, each source pixel a constant block, and
width only (40_utilities R114, R115, R119). -/
def Obligations.ScalingLaws : Prop :=
  ∀ pre : Image,
    scaleImage pre 1 1 = pre
      ∧ (∀ s1 t1 s2 t2, scaleImage (scaleImage pre s1 t1) s2 t2 = scaleImage pre (s1 * s2) (t1 * t2))
      ∧ (∀ sh sw y x dy dx, dy < sh → dx < sw → scaleImage pre sh sw (y * sh + dy) (x * sw + dx) = pre y x)
      ∧ ∀ sw y x, widthScale pre sw y x = pre y (x / sw)

/-- Blend is the average of each channel, rounded down, with the examples of the rule; Dim shifts each channel by the data
background less the window background, stopping at 0 and 255: the identity where the two agree, 31 darker for 255 and 224
(41_palette R125, R126). -/
def Obligations.BlendAndDim : Prop :=
  ∀ a w d : RGB,
    let average := fun x y r : Byte => r.toNat = (x.toNat + y.toNat) / 2
    let shifted := fun x p q r : Byte => (r.toNat : Int) = max 0 (min 255 ((x.toNat : Int) - (p.toNat - q.toNat)))
    let darker := dim a ⟨255, 255, 255⟩ ⟨224, 224, 224⟩
    average a.r w.r (blend a w).r ∧ average a.g w.g (blend a w).g ∧ average a.b w.b (blend a w).b ∧ blend a a = a
      ∧ blend ⟨255, 0, 0⟩ ⟨255, 255, 0⟩ = ⟨255, 127, 0⟩ ∧ blend ⟨1, 1, 1⟩ ⟨0, 0, 0⟩ = ⟨0, 0, 0⟩
      ∧ shifted a.r w.r d.r (dim a w d).r ∧ shifted a.g w.g d.g (dim a w d).g ∧ shifted a.b w.b d.b (dim a w d).b
      ∧ dim a w w = a
      ∧ darker.r.toNat = a.r.toNat - 31 ∧ darker.g.toNat = a.g.toNat - 31 ∧ darker.b.toNat = a.b.toNat - 31

/-- The style class by the highest of bits 7..4: 1 highlight, 2 match, 3 comment, 4 data, 0 normal; normal exactly when
the bits of the ignore mask 0xF0 are 0 (45_style_composer R199, R200, R203). -/
def Obligations.StyleClassPrecedence : Prop :=
  ∀ s : Byte,
    (styleClass s).index =
        (if 128 ≤ s.toNat then 1 else if 64 ≤ s.toNat then 2 else if 32 ≤ s.toNat then 3 else if 16 ≤ s.toNat then 4 else 0)
      ∧ ((styleClass s).index = 0 ↔ s &&& 0xF0 = 0) ∧ styleClass s = styleClass (s &&& 0xF0)

/-- RowOff as the rule computes it, with the values it lists (43_bitmap_renderers R168). That two screen lines never share a
byte of their 40 follows from it. -/
def Obligations.ScreenRowOffsets : Prop :=
  (∀ y, y < 192 → screenRowOffset y = 1024 * (y % 8) + 128 * (y / 8 % 8) + 40 * (y / 64))
    ∧ [0, 1, 7, 8, 63, 64, 65, 128, 191].map screenRowOffset = [0, 1024, 7168, 128, 8064, 40, 1064, 80, 8144]
    ∧ ∀ y z i j, y < 192 → z < 192 → i < 40 → j < 40 → screenRowOffset y + i = screenRowOffset z + j → y = z ∧ i = j

/-- The harvest-grid predicate keeps the low five bits of its sums; with no offsets it holds for x in 16..22 of every 32
or y in 0..2 of every 16, and with hx = 1 for x in 15..21 (46_jumpman R204, R210). -/
def Obligations.HarvestGridCells : Prop :=
  ∀ x y hx hy : Nat,
    (invalidCell hx hy x y = true ↔ (x + 0x30 + hx) % 32 < 7 ∨ (2 * y + 0x20 + hy) % 32 < 5)
      ∧ (invalidCell 0 0 x y = true ↔ (16 ≤ x % 32 ∧ x % 32 ≤ 22) ∨ y % 16 ≤ 2)
      ∧ (invalidCell 1 0 x y = true ↔ (15 ≤ x % 32 ∧ x % 32 ≤ 21) ∨ y % 16 ≤ 2)
      ∧ invalidCell 0 0 0 3 = false ∧ invalidCell 0 0 23 3 = false ∧ invalidCell 0 0 15 3 = false

/-! ## The whole machine -/

/-- Every register with a reset value holds it after a power-on reset: the engine is IDLE, ID is 0x0001_0000, SCALE
0x0001_0101, PAL_CTRL 2, every other CSR and the IRQ line 0 (10_state R68). CREG and PS are UNSPECIFIED there: nothing is
said of them. -/
def Obligations.ResetValues : Prop :=
  let s := State.reset
  s.phase = .idle ∧ readCsr .id s = 0x00010000 ∧ readCsr .status s = 0 ∧ readCsr .irqEn s = 0
    ∧ readCsr .lastCmd s = 0 ∧ readCsr .errAddr s = 0 ∧ readCsr .fontState s = 0 ∧ readCsr .jmHits s = 0
    ∧ (∀ r : ConfigReg, readCsr (.config r) s =
        match r with
        | .scale => 0x00010101
        | .palCtrl => 0x00000002
        | _ => 0)
    ∧ irqLine s = false

/-- The invariant holds after reset. -/
def Obligations.InvariantAtReset : Prop := MachineInv State.reset

/-- Every step keeps the invariant, whichever agent acts: memory stays canonical and inside 2^32 bytes, NREG stays 1..256,
DONE and ERR are never both 1, ERRCODE is 0 exactly when ERR is, none is set while BUSY, and IDLE keeps nothing of a
command (20_memory R75, 10_state R27, R39, R65). -/
def Obligations.StepKeepsInvariant : Prop := ∀ s t : State, MachineInv s → step s = .next t → MachineInv t

/-- Every command ends in IDLE with exactly one of DONE and ERR; once its checks pass it ends with success or BUS, and
without bus errors with success (60_exceptions R211, R214, R216, 70_reset R249). For a command whose write region meets the
CSR aperture, whose accesses there have UNSPECIFIED effect, that it ends so is the model's choice (log 11). -/
def Obligations.EveryCommandEnds : Prop :=
  ∀ (s : State) (i : Instr), ∃ t, exec i s = .next t ∧ t.phase = .idle
    ∧ t.csr.status.done = !t.csr.status.err ∧ t.csr.status.errCode.isSome = t.csr.status.err
    ∧ (i.wellFormed = true → scaleFails s.csr i = false → geometryFails s.csr i = false →
        noFontFails s.csr i = false → rangeFails s.csr i = false → overlapFails s.csr i = false →
        (t.csr.status.done = true ∨ t.csr.status.errCode = some .bus)
          ∧ ((∀ a, ¬ s.failsAt i a) → t.csr.status.done = true))

/-- A running command leaves RUN after finitely many steps: at most one more than the host actions that its free duration
admits (70_reset R249; the duration is the model's, log 3). -/
def Obligations.BusyEndsInBoundedSteps : Prop :=
  ∀ s : State, s.phase = .run →
    ∃ k t, 0 < k ∧ k ≤ s.runFor + 1 ∧ Host.Core.run core k s = .next t ∧ t.phase = .idle

/-- Whatever its end, a command changes no byte outside its write region; unless that region meets the CSR aperture it
changes no CSR but DONE, ERR, ERRCODE, ERR_ADDR, FONT_STATE and JM_HITS, no CREG entry, FONT_STATE only in a BAKE, JM_HITS
only in a HARVEST, and PS only to the palettes of its source (20_memory R76, 10_state R60, R61, R67, 60_exceptions R213). -/
def Obligations.CommandWritesOnlyItsRegion : Prop :=
  ∀ (s t : State) (i : Instr), exec i s = .next t →
    (∀ a, (writeRegion s.csr i).has a = false → t.mem.read a = s.mem.read a)
      ∧ ((∀ a, (writeRegion s.csr i).has a = true → s.inAperture a = false) →
          t = { s with
              phase := .idle, runFor := 0, inTouched := [], outTouched := []
              mem := t.mem
              ps := t.ps
              csr := { s.csr with
                status := { t.csr.status with wign := s.csr.status.wign }
                errAddr := t.csr.errAddr
                font := t.csr.font
                jmHits := t.csr.jmHits } }
            ∧ (t.ps = s.ps ∨ ∃ src, paletteSourceOf i = some src ∧ t.ps = buildPalettes s src)
            ∧ (i ∉ [Instr.bakeGr0, .bakeAntic4, .bakeGr12Upper, .bakeGr12Lower, .bakeApple] → t.csr.font = s.csr.font)
            ∧ (i ≠ .harvest → t.csr.jmHits = s.csr.jmHits))

/-- A command that succeeds depends on memory only through its read regions: change any other byte, and the bytes it
writes, the CSRs, CREG and PS it leaves are the same (20_memory R76, 44_font_renderer R197, 42_font_baker R150). Both runs
start from one counter of free draws (log 9), so the free values agree as well: of a region in the CSR aperture (logs 11 and
22), and of inputs or outputs that the host wrote (logs 12 and 13). That they agree is the model's, not the spec's. -/
def Obligations.OutputDependsOnlyOnReadRegions : Prop :=
  ∀ (s t u : State) (i : Instr) (m : Memory),
    (∀ r ∈ readRegions s.csr i, ∀ a, r.has a = true → m.read a = s.mem.read a) →
    exec i s = .next t → t.csr.status.done = true → exec i { s with mem := m } = .next u →
      u.csr = t.csr ∧ u.creg = t.creg ∧ u.ps = t.ps
        ∧ ∀ a, (writeRegion s.csr i).has a = true → s.inAperture a = false → u.mem.read a = t.mem.read a

/-! ## Host writes during a command -/

/-- A host write of a memory byte while a command runs whose checks pass and that is no identity case of the scaler. Outside
the write region the byte lands at once; outside every region of the command that is all it does. A write to the output leaves
that byte UNSPECIFIED and every other byte and CSR as the command leaves them; a write to an input of a command other than
HARVEST leaves every byte of the write region UNSPECIFIED; one to HARVEST's plane the bytes that the command writes, while the
other bytes and JM_HITS stay defined; one to HARVEST's list keeps each plane byte or leaves it UNSPECIFIED. The command still
ends (20_memory R86, R76, 70_reset R239, R240). UNSPECIFIED is the free value of the model (items U9 and U10, logs 12 and
13). -/
def Obligations.HostWritesDuringCommand : Prop :=
  ∀ (s : State) (i : Instr) (a : Word) (v : Byte), MachineInv s → s.phase = .run → decode s.csr.lastCmd = .ok i →
    scaleFails s.csr i = false → geometryFails s.csr i = false → noFontFails s.csr i = false →
    rangeFails s.csr i = false → overlapFails s.csr i = false → scalerIdentity s.csr i = false →
    s.inAperture a.toNat = false →
    let t := hostAct (.writeMem a v) s
    let input := ∃ r ∈ readRegions s.csr i, r.has a.toNat = true
    let output := (writeRegion s.csr i).has a.toNat = true
    let free := Config.freeByte t.draws
    (∀ x, x ≠ a.toNat → t.mem.read x = s.mem.read x)
      ∧ (¬ output → t.mem.read a.toNat = v)
      ∧ (¬ output → ¬ input → t = { s with mem := t.mem, draws := s.draws + 1 })
      ∧ ∃ u, exec i t = .next u ∧ u.phase = .idle
        ∧ (output → u.mem.read a.toNat = free a.toNat)
        ∧ (output → i ≠ .harvest → s.hostKeptOff → s.writable (writeRegion s.csr i) →
            (∀ r ∈ readRegions s.csr i, s.readable r) →
            ∃ w, exec i s = .next w ∧ u.csr = w.csr ∧ ∀ x, x ≠ a.toNat → u.mem.read x = w.mem.read x)
        ∧ (input → i ≠ .harvest → ∀ x, (writeRegion s.csr i).has x = true → s.inAperture x = false →
            u.mem.read x = free x)
        ∧ (input → i = .harvest → ∀ x, (planeRegion s.csr).has x = true → s.inAperture x = false →
            u.mem.read x = t.mem.read x ∨ u.mem.read x = free x)
        ∧ (output → i = .harvest → s.HarvestReady → u.csr.status.done = true
            ∧ u.csr.jmHits = BitVec.ofNat 16 ((List.range s.csr.jmCount.toNat).countP s.marks)
            ∧ ∀ x, x ≠ a.toNat → (planeRegion s.csr).has x = true →
                (s.marksAt x → u.mem.read x = free x) ∧ (¬ s.marksAt x → u.mem.read x = s.mem.read x))
end

