-- ==== Sys2Proof/Laws/Memory.lean ====
section
/-! SUPPORT. Memory: what a read returns after a write or a fill, and that both keep the canonical form (20_memory R75,
R79, R88). -/

namespace Sys2Proof.Machine

/-! ### Reading -/

@[simp] theorem Memory.read_nil (a : Nat) : Memory.read [] a = Config.unwrittenByte := rfl

theorem Memory.read_cons (b : Nat) (v : Byte) (m : Memory) (a : Nat) :
    Memory.read ((b, v) :: m) a = if a = b then v else Memory.read m a := rfl

/-- A memory that does not list an address reads the unwritten byte there. -/
theorem Memory.read_of_unlisted (m : Memory) (a : Nat) (h : ∀ c ∈ m, c.1 ≠ a) :
    Memory.read m a = Config.unwrittenByte := by
  induction m with
  | nil => rfl
  | cons c m ih =>
    obtain ⟨b, v⟩ := c
    have hb : b ≠ a := h (b, v) (by simp)
    rw [Memory.read_cons, if_neg (fun e => hb e.symm), ih (fun c hc => h c (by simp [hc]))]

/-- Reading past a prefix that does not list the address. -/
theorem Memory.read_append_right (m n : Memory) (a : Nat) (h : ∀ c ∈ m, c.1 ≠ a) :
    Memory.read (m ++ n) a = Memory.read n a := by
  induction m with
  | nil => rfl
  | cons c m ih =>
    obtain ⟨b, v⟩ := c
    have hb : b ≠ a := h (b, v) (by simp)
    rw [List.cons_append, Memory.read_cons, if_neg (fun e => hb e.symm), ih (fun c hc => h c (by simp [hc]))]

/-- Reading before a suffix that does not list the address. -/
theorem Memory.read_append_left (m n : Memory) (a : Nat) (h : ∀ c ∈ n, c.1 ≠ a) :
    Memory.read (m ++ n) a = Memory.read m a := by
  induction m with
  | nil => simpa using Memory.read_of_unlisted n a h
  | cons c m ih =>
    obtain ⟨b, v⟩ := c
    rw [List.cons_append, Memory.read_cons, Memory.read_cons, ih]

/-- Dropping cells of other addresses does not change a read. -/
theorem Memory.read_filter (m : Memory) (p : Host.Cell → Bool) (a : Nat) (h : ∀ v, p (a, v) = true) :
    Memory.read (m.filter p) a = Memory.read m a := by
  induction m with
  | nil => rfl
  | cons c m ih =>
    obtain ⟨b, v⟩ := c
    rw [List.filter_cons]
    split
    · rw [Memory.read_cons, Memory.read_cons, ih]
    · rename_i hp
      have hb : a ≠ b := fun e => hp (by rw [← e]; exact h v)
      rw [Memory.read_cons, if_neg hb, ih]

/-! ### One byte written -/

/-- A write leaves every other byte alone (20_memory R79). -/
theorem Memory.read_write_other (m : Memory) (a b : Nat) (v : Byte) (h : b ≠ a) :
    (m.write a v).read b = m.read b := by
  induction m with
  | nil =>
    unfold Memory.write
    split
    · rfl
    · rw [Memory.read_cons, if_neg h]
  | cons c m ih =>
    obtain ⟨d, w⟩ := c
    unfold Memory.write
    split
    · split
      · rfl
      · rw [Memory.read_cons, if_neg h]
    · split
      · rename_i had
        subst had
        split
        · rw [Memory.read_cons, if_neg h]
        · rw [Memory.read_cons, Memory.read_cons, if_neg h, if_neg h]
      · rw [Memory.read_cons, Memory.read_cons, ih]

/-- A read after a write of the same byte returns it, in canonical memory (20_memory R79). -/
theorem Memory.read_write_same (m : Memory) (a : Nat) (v : Byte) (h : m.Pairwise (fun c d => c.1 < d.1)) :
    (m.write a v).read a = v := by
  induction m with
  | nil =>
    unfold Memory.write
    split
    · simp [*]
    · simp [Memory.read_cons]
  | cons c m ih =>
    obtain ⟨d, w⟩ := c
    rw [List.pairwise_cons] at h
    unfold Memory.write
    split
    · rename_i had
      split
      · rename_i hv
        rw [Memory.read_cons, if_neg (by omega), Memory.read_of_unlisted, hv]
        intro c hc
        have := h.1 c hc
        simp at this
        omega
      · simp [Memory.read_cons]
    · split
      · rename_i had
        split
        · rename_i hv
          rw [Memory.read_of_unlisted, hv]
          intro c hc
          have := h.1 c hc
          simp at this
          omega
        · simp [Memory.read_cons]
      · rename_i _ had
        rw [Memory.read_cons, if_neg had, ih h.2]

/-- The addresses listed after a write. -/
theorem Memory.mem_write (m : Memory) (a : Nat) (v : Byte) (c : Host.Cell) (h : c ∈ m.write a v) :
    c ∈ m ∨ (c = (a, v) ∧ v ≠ Config.unwrittenByte) := by
  induction m with
  | nil =>
    unfold Memory.write at h
    split at h
    · simp at h
    · right; simp at h; exact ⟨h, ‹_›⟩
  | cons d m ih =>
    obtain ⟨d, w⟩ := d
    unfold Memory.write at h
    split at h
    · split at h
      · exact .inl h
      · rcases List.mem_cons.1 h with h | h
        · exact .inr ⟨h, ‹_›⟩
        · exact .inl h
    · split at h
      · split at h
        · exact .inl (List.mem_cons_of_mem _ h)
        · rcases List.mem_cons.1 h with h | h
          · exact .inr ⟨h, ‹_›⟩
          · exact .inl (List.mem_cons_of_mem _ h)
      · rcases List.mem_cons.1 h with h | h
        · exact .inl (h ▸ List.mem_cons_self)
        · rcases ih h with h | h
          · exact .inl (List.mem_cons_of_mem _ h)
          · exact .inr h

/-- A write inside the 32-bit space keeps the canonical form (20_memory R75). -/
theorem Memory.write_wf (m : Memory) (a : Nat) (v : Byte) (ha : a < 2 ^ 32) (h : m.wf) : (m.write a v).wf := by
  refine ⟨?_, ?_⟩
  · have hp := h.1
    clear h ha
    induction m with
    | nil =>
      unfold Memory.write
      split <;> simp
    | cons d m ih =>
      obtain ⟨d, w⟩ := d
      have hd := List.pairwise_cons.1 hp
      unfold Memory.write
      split
      · rename_i had
        split
        · exact hp
        · refine List.pairwise_cons.2 ⟨?_, hp⟩
          intro c hc
          rcases List.mem_cons.1 hc with hc | hc
          · subst hc; exact had
          · exact Nat.lt_trans had (hd.1 c hc)
      · split
        · rename_i had
          subst had
          split
          · exact hd.2
          · exact List.pairwise_cons.2 ⟨fun c hc => hd.1 c hc, hd.2⟩
        · rename_i h1 h2
          refine List.pairwise_cons.2 ⟨?_, ih hd.2⟩
          intro c hc
          rcases Memory.mem_write m a v c hc with hc | hc
          · exact hd.1 c hc
          · rw [hc.1]
            change d < a
            omega
  · intro c hc
    rcases Memory.mem_write m a v c hc with hc | hc
    · exact h.2 c hc
    · rw [hc.1]
      exact ⟨hc.2, ha⟩

/-! ### A region filled -/

theorem Memory.mem_segment (base len : Nat) (f : Nat → Byte) (c : Host.Cell) (h : c ∈ Memory.segment base len f) :
    base ≤ c.1 ∧ c.1 < base + len ∧ c.2 ≠ Config.unwrittenByte := by
  simp only [Memory.segment, List.mem_filterMap, List.mem_range] at h
  obtain ⟨k, hk, h⟩ := h
  split at h
  · cases h
  · rename_i hv
    cases h
    exact ⟨Nat.le_add_right _ _, Nat.add_lt_add_left hk _, hv⟩

theorem Memory.segment_pairwise (base len : Nat) (f : Nat → Byte) :
    (Memory.segment base len f).Pairwise (fun c d => c.1 < d.1) := by
  unfold Memory.segment
  refine List.Pairwise.filterMap _ ?_ (List.pairwise_lt_range (n := len))
  intro i j hij c hc d hd
  simp only at hc hd
  split at hc
  · cases hc
  · split at hd
    · cases hd
    · cases hc; cases hd
      exact Nat.add_lt_add_left hij _

theorem Memory.segment_succ (base len : Nat) (f : Nat → Byte) :
    Memory.segment base (len + 1) f =
      Memory.segment base len f ++ (if f len = Config.unwrittenByte then [] else [(base + len, f len)]) := by
  unfold Memory.segment
  rw [List.range_succ, List.filterMap_append]
  congr 1
  by_cases h : f len = Config.unwrittenByte <;> simp [h]

theorem Memory.read_segment (base len : Nat) (f : Nat → Byte) (k : Nat) (h : k < len) :
    Memory.read (Memory.segment base len f) (base + k) = f k := by
  induction len with
  | zero => omega
  | succ n ih =>
    rw [Memory.segment_succ]
    by_cases hk : k = n
    · subst hk
      rw [Memory.read_append_right]
      · by_cases hv : f k = Config.unwrittenByte
        · simp [hv]
        · simp [hv, Memory.read_cons]
      · intro c hc
        have := Memory.mem_segment _ _ _ _ hc
        omega
    · rw [Memory.read_append_left _ _ _ _, ih (by omega)]
      intro c hc
      split at hc
      · cases hc
      · simp at hc
        subst hc
        show base + n ≠ base + k
        omega

/-- Outside the region a fill leaves every byte alone (20_memory R76). -/
theorem Memory.read_fill_outside (m : Memory) (base len : Nat) (f : Nat → Byte) (a : Nat)
    (h : a < base ∨ base + len ≤ a) : (m.fill base len f).read a = m.read a := by
  unfold Memory.fill
  split
  · rfl
  · rcases h with h | h
    · rw [List.append_assoc, Memory.read_append_left, Memory.read_filter]
      · intro v; simp [h]
      · intro c hc
        rcases List.mem_append.1 hc with hc | hc
        · have := Memory.mem_segment _ _ _ _ hc; omega
        · simp at hc; omega
    · rw [Memory.read_append_right, Memory.read_filter]
      · intro v; simp [h]
      · intro c hc
        rcases List.mem_append.1 hc with hc | hc
        · simp at hc; omega
        · have := Memory.mem_segment _ _ _ _ hc; omega

/-- Inside the region a fill leaves the bytes filled in (20_memory R88). -/
theorem Memory.read_fill_inside (m : Memory) (base len : Nat) (f : Nat → Byte) (k : Nat) (h : k < len) :
    (m.fill base len f).read (base + k) = f k := by
  unfold Memory.fill
  rw [if_neg (by omega), Memory.read_append_left, Memory.read_append_right, Memory.read_segment _ _ _ _ h]
  · intro c hc
    simp at hc
    omega
  · intro c hc
    simp at hc
    omega

/-- A fill inside the 32-bit space keeps the canonical form (20_memory R75). -/
theorem Memory.fill_wf (m : Memory) (base len : Nat) (f : Nat → Byte) (hb : base + len ≤ 2 ^ 32) (h : m.wf) :
    (m.fill base len f).wf := by
  unfold Memory.fill
  split
  · exact h
  · refine ⟨?_, ?_⟩
    · rw [List.pairwise_append, List.pairwise_append]
      refine ⟨⟨h.1.filter _, Memory.segment_pairwise _ _ _, ?_⟩, h.1.filter _, ?_⟩
      · intro c hc d hd
        simp at hc
        have := Memory.mem_segment _ _ _ _ hd
        omega
      · intro c hc d hd
        simp at hd
        rcases List.mem_append.1 hc with hc | hc
        · simp at hc; omega
        · have := Memory.mem_segment _ _ _ _ hc; omega
    · intro c hc
      rcases List.mem_append.1 hc with hc | hc
      · rcases List.mem_append.1 hc with hc | hc
        · exact h.2 c (List.mem_of_mem_filter hc)
        · have := Memory.mem_segment _ _ _ _ hc
          exact ⟨this.2.2, by omega⟩
      · exact h.2 c (List.mem_of_mem_filter hc)

/-- The memory after reset is in canonical form. -/
theorem reset_memory_wf : State.reset.mem.wf := ⟨List.Pairwise.nil, fun c hc => absurd hc (by simp [State.reset])⟩

end Sys2Proof.Machine
end

