-- ==== Sys2Proof/Laws/State.lean ====
section
/-! SUPPORT. One lemma per field of State and update of State, each true by rfl, so that no proof unfolds a record update. -/

namespace Sys2Proof.Machine

/-! ### State.toIdle -/

@[simp] theorem toIdle_phase (s : State) :
    s.toIdle.phase = .idle := rfl
@[simp] theorem toIdle_csr (s : State) :
    s.toIdle.csr = s.csr := rfl
@[simp] theorem toIdle_creg (s : State) :
    s.toIdle.creg = s.creg := rfl
@[simp] theorem toIdle_ps (s : State) :
    s.toIdle.ps = s.ps := rfl
@[simp] theorem toIdle_mem (s : State) :
    s.toIdle.mem = s.mem := rfl
@[simp] theorem toIdle_platform (s : State) :
    s.toIdle.platform = s.platform := rfl
@[simp] theorem toIdle_hostQ (s : State) :
    s.toIdle.hostQ = s.hostQ := rfl
@[simp] theorem toIdle_readData (s : State) :
    s.toIdle.readData = s.readData := rfl
@[simp] theorem toIdle_runFor (s : State) :
    s.toIdle.runFor = 0 := rfl
@[simp] theorem toIdle_inTouched (s : State) :
    s.toIdle.inTouched = [] := rfl
@[simp] theorem toIdle_outTouched (s : State) :
    s.toIdle.outTouched = [] := rfl
@[simp] theorem toIdle_draws (s : State) :
    s.toIdle.draws = s.draws := rfl

/-! ### endSuccess -/

@[simp] theorem endSuccess_phase (s : State) :
    (endSuccess s).phase = .idle := rfl
@[simp] theorem endSuccess_csr (s : State) :
    (endSuccess s).csr = { s.csr with status := { s.csr.status with done := true, err := false, errCode := none } } := rfl
@[simp] theorem endSuccess_creg (s : State) :
    (endSuccess s).creg = s.creg := rfl
@[simp] theorem endSuccess_ps (s : State) :
    (endSuccess s).ps = s.ps := rfl
@[simp] theorem endSuccess_mem (s : State) :
    (endSuccess s).mem = s.mem := rfl
@[simp] theorem endSuccess_platform (s : State) :
    (endSuccess s).platform = s.platform := rfl
@[simp] theorem endSuccess_hostQ (s : State) :
    (endSuccess s).hostQ = s.hostQ := rfl
@[simp] theorem endSuccess_readData (s : State) :
    (endSuccess s).readData = s.readData := rfl
@[simp] theorem endSuccess_runFor (s : State) :
    (endSuccess s).runFor = 0 := rfl
@[simp] theorem endSuccess_inTouched (s : State) :
    (endSuccess s).inTouched = [] := rfl
@[simp] theorem endSuccess_outTouched (s : State) :
    (endSuccess s).outTouched = [] := rfl
@[simp] theorem endSuccess_draws (s : State) :
    (endSuccess s).draws = s.draws := rfl

/-! ### takeError -/

@[simp] theorem takeError_phase (e : ErrCode) (f : Option Nat) (s : State) :
    (takeError e f s).phase = .idle := rfl
@[simp] theorem takeError_csr (e : ErrCode) (f : Option Nat) (s : State) :
    (takeError e f s).csr = { s.csr with
        status := { s.csr.status with done := false, err := true, errCode := some e }
        errAddr := (match f with | some a => BitVec.ofNat 32 a | none => s.csr.errAddr) } := rfl
@[simp] theorem takeError_creg (e : ErrCode) (f : Option Nat) (s : State) :
    (takeError e f s).creg = s.creg := rfl
@[simp] theorem takeError_ps (e : ErrCode) (f : Option Nat) (s : State) :
    (takeError e f s).ps = s.ps := rfl
@[simp] theorem takeError_mem (e : ErrCode) (f : Option Nat) (s : State) :
    (takeError e f s).mem = s.mem := rfl
@[simp] theorem takeError_platform (e : ErrCode) (f : Option Nat) (s : State) :
    (takeError e f s).platform = s.platform := rfl
@[simp] theorem takeError_hostQ (e : ErrCode) (f : Option Nat) (s : State) :
    (takeError e f s).hostQ = s.hostQ := rfl
@[simp] theorem takeError_readData (e : ErrCode) (f : Option Nat) (s : State) :
    (takeError e f s).readData = s.readData := rfl
@[simp] theorem takeError_runFor (e : ErrCode) (f : Option Nat) (s : State) :
    (takeError e f s).runFor = 0 := rfl
@[simp] theorem takeError_inTouched (e : ErrCode) (f : Option Nat) (s : State) :
    (takeError e f s).inTouched = [] := rfl
@[simp] theorem takeError_outTouched (e : ErrCode) (f : Option Nat) (s : State) :
    (takeError e f s).outTouched = [] := rfl
@[simp] theorem takeError_draws (e : ErrCode) (f : Option Nat) (s : State) :
    (takeError e f s).draws = s.draws := rfl

/-! ### clearFontValid -/

@[simp] theorem clearFontValid_phase (s : State) :
    (clearFontValid s).phase = s.phase := rfl
@[simp] theorem clearFontValid_csr (s : State) :
    (clearFontValid s).csr = { s.csr with font := { s.csr.font with valid := false } } := rfl
@[simp] theorem clearFontValid_creg (s : State) :
    (clearFontValid s).creg = s.creg := rfl
@[simp] theorem clearFontValid_ps (s : State) :
    (clearFontValid s).ps = s.ps := rfl
@[simp] theorem clearFontValid_mem (s : State) :
    (clearFontValid s).mem = s.mem := rfl
@[simp] theorem clearFontValid_platform (s : State) :
    (clearFontValid s).platform = s.platform := rfl
@[simp] theorem clearFontValid_hostQ (s : State) :
    (clearFontValid s).hostQ = s.hostQ := rfl
@[simp] theorem clearFontValid_readData (s : State) :
    (clearFontValid s).readData = s.readData := rfl
@[simp] theorem clearFontValid_runFor (s : State) :
    (clearFontValid s).runFor = s.runFor := rfl
@[simp] theorem clearFontValid_inTouched (s : State) :
    (clearFontValid s).inTouched = s.inTouched := rfl
@[simp] theorem clearFontValid_outTouched (s : State) :
    (clearFontValid s).outTouched = s.outTouched := rfl
@[simp] theorem clearFontValid_draws (s : State) :
    (clearFontValid s).draws = s.draws := rfl

/-! ### clearHits -/

@[simp] theorem clearHits_phase (s : State) :
    (clearHits s).phase = s.phase := rfl
@[simp] theorem clearHits_csr (s : State) :
    (clearHits s).csr = { s.csr with jmHits := 0 } := rfl
@[simp] theorem clearHits_creg (s : State) :
    (clearHits s).creg = s.creg := rfl
@[simp] theorem clearHits_ps (s : State) :
    (clearHits s).ps = s.ps := rfl
@[simp] theorem clearHits_mem (s : State) :
    (clearHits s).mem = s.mem := rfl
@[simp] theorem clearHits_platform (s : State) :
    (clearHits s).platform = s.platform := rfl
@[simp] theorem clearHits_hostQ (s : State) :
    (clearHits s).hostQ = s.hostQ := rfl
@[simp] theorem clearHits_readData (s : State) :
    (clearHits s).readData = s.readData := rfl
@[simp] theorem clearHits_runFor (s : State) :
    (clearHits s).runFor = s.runFor := rfl
@[simp] theorem clearHits_inTouched (s : State) :
    (clearHits s).inTouched = s.inTouched := rfl
@[simp] theorem clearHits_outTouched (s : State) :
    (clearHits s).outTouched = s.outTouched := rfl
@[simp] theorem clearHits_draws (s : State) :
    (clearHits s).draws = s.draws := rfl

/-! ### publish -/

@[simp] theorem publish_phase (p : Option PaletteSet) (f : Option FontState) (h : Option Nat) (s : State) :
    (publish p f h s).phase = s.phase := rfl
@[simp] theorem publish_csr (p : Option PaletteSet) (f : Option FontState) (h : Option Nat) (s : State) :
    (publish p f h s).csr = { s.csr with
        font := f.getD s.csr.font
        jmHits := (match h with | some n => BitVec.ofNat 16 n | none => s.csr.jmHits) } := rfl
@[simp] theorem publish_creg (p : Option PaletteSet) (f : Option FontState) (h : Option Nat) (s : State) :
    (publish p f h s).creg = s.creg := rfl
@[simp] theorem publish_ps (p : Option PaletteSet) (f : Option FontState) (h : Option Nat) (s : State) :
    (publish p f h s).ps = p.getD s.ps := rfl
@[simp] theorem publish_mem (p : Option PaletteSet) (f : Option FontState) (h : Option Nat) (s : State) :
    (publish p f h s).mem = s.mem := rfl
@[simp] theorem publish_platform (p : Option PaletteSet) (f : Option FontState) (h : Option Nat) (s : State) :
    (publish p f h s).platform = s.platform := rfl
@[simp] theorem publish_hostQ (p : Option PaletteSet) (f : Option FontState) (h : Option Nat) (s : State) :
    (publish p f h s).hostQ = s.hostQ := rfl
@[simp] theorem publish_readData (p : Option PaletteSet) (f : Option FontState) (h : Option Nat) (s : State) :
    (publish p f h s).readData = s.readData := rfl
@[simp] theorem publish_runFor (p : Option PaletteSet) (f : Option FontState) (h : Option Nat) (s : State) :
    (publish p f h s).runFor = s.runFor := rfl
@[simp] theorem publish_inTouched (p : Option PaletteSet) (f : Option FontState) (h : Option Nat) (s : State) :
    (publish p f h s).inTouched = s.inTouched := rfl
@[simp] theorem publish_outTouched (p : Option PaletteSet) (f : Option FontState) (h : Option Nat) (s : State) :
    (publish p f h s).outTouched = s.outTouched := rfl
@[simp] theorem publish_draws (p : Option PaletteSet) (f : Option FontState) (h : Option Nat) (s : State) :
    (publish p f h s).draws = s.draws := rfl

/-! ### State.scrambleCsrs -/

@[simp] theorem scrambleCsrs_phase (s : State) :
    s.scrambleCsrs.phase = s.phase := rfl
@[simp] theorem scrambleCsrs_csr (s : State) :
    s.scrambleCsrs.csr = csrsOfWords (Config.freeWord s.draws) := rfl
@[simp] theorem scrambleCsrs_creg (s : State) :
    s.scrambleCsrs.creg = freeCreg s.draws := rfl
@[simp] theorem scrambleCsrs_ps (s : State) :
    s.scrambleCsrs.ps = freePalettes s.draws := rfl
@[simp] theorem scrambleCsrs_mem (s : State) :
    s.scrambleCsrs.mem = s.mem := rfl
@[simp] theorem scrambleCsrs_platform (s : State) :
    s.scrambleCsrs.platform = s.platform := rfl
@[simp] theorem scrambleCsrs_hostQ (s : State) :
    s.scrambleCsrs.hostQ = s.hostQ := rfl
@[simp] theorem scrambleCsrs_readData (s : State) :
    s.scrambleCsrs.readData = s.readData := rfl
@[simp] theorem scrambleCsrs_runFor (s : State) :
    s.scrambleCsrs.runFor = s.runFor := rfl
@[simp] theorem scrambleCsrs_inTouched (s : State) :
    s.scrambleCsrs.inTouched = s.inTouched := rfl
@[simp] theorem scrambleCsrs_outTouched (s : State) :
    s.scrambleCsrs.outTouched = s.outTouched := rfl
@[simp] theorem scrambleCsrs_draws (s : State) :
    s.scrambleCsrs.draws = s.draws := rfl

/-! ### setWign -/

@[simp] theorem setWign_phase (s : State) :
    (setWign s).phase = s.phase := rfl
@[simp] theorem setWign_csr (s : State) :
    (setWign s).csr = { s.csr with status := { s.csr.status with wign := true } } := rfl
@[simp] theorem setWign_creg (s : State) :
    (setWign s).creg = s.creg := rfl
@[simp] theorem setWign_ps (s : State) :
    (setWign s).ps = s.ps := rfl
@[simp] theorem setWign_mem (s : State) :
    (setWign s).mem = s.mem := rfl
@[simp] theorem setWign_platform (s : State) :
    (setWign s).platform = s.platform := rfl
@[simp] theorem setWign_hostQ (s : State) :
    (setWign s).hostQ = s.hostQ := rfl
@[simp] theorem setWign_readData (s : State) :
    (setWign s).readData = s.readData := rfl
@[simp] theorem setWign_runFor (s : State) :
    (setWign s).runFor = s.runFor := rfl
@[simp] theorem setWign_inTouched (s : State) :
    (setWign s).inTouched = s.inTouched := rfl
@[simp] theorem setWign_outTouched (s : State) :
    (setWign s).outTouched = s.outTouched := rfl
@[simp] theorem setWign_draws (s : State) :
    (setWign s).draws = s.draws := rfl

/-! ### acceptWord -/

@[simp] theorem acceptWord_phase (w : Word) (s : State) :
    (acceptWord w s).phase = .run := rfl
@[simp] theorem acceptWord_csr (w : Word) (s : State) :
    (acceptWord w s).csr = { s.csr with
        lastCmd := w
        errAddr := 0
        status := { s.csr.status with done := false, err := false, errCode := none }
        font := if opField w = 0x03 then { s.csr.font with valid := false } else s.csr.font
        jmHits := if opField w = 0x07 then 0 else s.csr.jmHits } := rfl
@[simp] theorem acceptWord_creg (w : Word) (s : State) :
    (acceptWord w s).creg = s.creg := rfl
@[simp] theorem acceptWord_ps (w : Word) (s : State) :
    (acceptWord w s).ps = s.ps := rfl
@[simp] theorem acceptWord_mem (w : Word) (s : State) :
    (acceptWord w s).mem = s.mem := rfl
@[simp] theorem acceptWord_platform (w : Word) (s : State) :
    (acceptWord w s).platform = s.platform := rfl
@[simp] theorem acceptWord_hostQ (w : Word) (s : State) :
    (acceptWord w s).hostQ = s.hostQ := rfl
@[simp] theorem acceptWord_readData (w : Word) (s : State) :
    (acceptWord w s).readData = s.readData := rfl
@[simp] theorem acceptWord_runFor (w : Word) (s : State) :
    (acceptWord w s).runFor = 0 := rfl
@[simp] theorem acceptWord_inTouched (w : Word) (s : State) :
    (acceptWord w s).inTouched = [] := rfl
@[simp] theorem acceptWord_outTouched (w : Word) (s : State) :
    (acceptWord w s).outTouched = [] := rfl
@[simp] theorem acceptWord_draws (w : Word) (s : State) :
    (acceptWord w s).draws = s.draws := rfl

/-! ### accept -/

@[simp] theorem accept_phase (w : Word) (s : State) :
    (accept w s).phase = .run := rfl
@[simp] theorem accept_csr (w : Word) (s : State) :
    (accept w s).csr = (acceptWord w s).csr := rfl
@[simp] theorem accept_creg (w : Word) (s : State) :
    (accept w s).creg = s.creg := rfl
@[simp] theorem accept_ps (w : Word) (s : State) :
    (accept w s).ps = s.ps := rfl
@[simp] theorem accept_mem (w : Word) (s : State) :
    (accept w s).mem = s.mem := rfl
@[simp] theorem accept_platform (w : Word) (s : State) :
    (accept w s).platform = s.platform := rfl
@[simp] theorem accept_hostQ (w : Word) (s : State) :
    (accept w s).hostQ = s.hostQ := rfl
@[simp] theorem accept_readData (w : Word) (s : State) :
    (accept w s).readData = s.readData := rfl
@[simp] theorem accept_runFor (w : Word) (s : State) :
    (accept w s).runFor = Config.commandTime s.draws := rfl
@[simp] theorem accept_inTouched (w : Word) (s : State) :
    (accept w s).inTouched = [] := rfl
@[simp] theorem accept_outTouched (w : Word) (s : State) :
    (accept w s).outTouched = [] := rfl
@[simp] theorem accept_draws (w : Word) (s : State) :
    (accept w s).draws = s.draws + 1 := rfl

/-! ### State.succeeded -/

@[simp] theorem succeeded_phase (m : Memory) (p : PaletteSet) (f : FontState) (h : BitVec 16) (s : State) :
    (s.succeeded m p f h).phase = .idle := rfl
@[simp] theorem succeeded_csr (m : Memory) (p : PaletteSet) (f : FontState) (h : BitVec 16) (s : State) :
    (s.succeeded m p f h).csr = { s.csr with
        status := { s.csr.status with done := true, err := false, errCode := none }
        font := f
        jmHits := h } := rfl
@[simp] theorem succeeded_creg (m : Memory) (p : PaletteSet) (f : FontState) (h : BitVec 16) (s : State) :
    (s.succeeded m p f h).creg = s.creg := rfl
@[simp] theorem succeeded_ps (m : Memory) (p : PaletteSet) (f : FontState) (h : BitVec 16) (s : State) :
    (s.succeeded m p f h).ps = p := rfl
@[simp] theorem succeeded_mem (m : Memory) (p : PaletteSet) (f : FontState) (h : BitVec 16) (s : State) :
    (s.succeeded m p f h).mem = m := rfl
@[simp] theorem succeeded_platform (m : Memory) (p : PaletteSet) (f : FontState) (h : BitVec 16) (s : State) :
    (s.succeeded m p f h).platform = s.platform := rfl
@[simp] theorem succeeded_hostQ (m : Memory) (p : PaletteSet) (f : FontState) (h : BitVec 16) (s : State) :
    (s.succeeded m p f h).hostQ = s.hostQ := rfl
@[simp] theorem succeeded_readData (m : Memory) (p : PaletteSet) (f : FontState) (h : BitVec 16) (s : State) :
    (s.succeeded m p f h).readData = s.readData := rfl
@[simp] theorem succeeded_runFor (m : Memory) (p : PaletteSet) (f : FontState) (h : BitVec 16) (s : State) :
    (s.succeeded m p f h).runFor = 0 := rfl
@[simp] theorem succeeded_inTouched (m : Memory) (p : PaletteSet) (f : FontState) (h : BitVec 16) (s : State) :
    (s.succeeded m p f h).inTouched = [] := rfl
@[simp] theorem succeeded_outTouched (m : Memory) (p : PaletteSet) (f : FontState) (h : BitVec 16) (s : State) :
    (s.succeeded m p f h).outTouched = [] := rfl
@[simp] theorem succeeded_draws (m : Memory) (p : PaletteSet) (f : FontState) (h : BitVec 16) (s : State) :
    (s.succeeded m p f h).draws = s.draws := rfl

/-! ### State.failedWith -/

@[simp] theorem failedWith_phase (e : ErrCode) (s : State) :
    (s.failedWith e).phase = .idle := rfl
@[simp] theorem failedWith_csr (e : ErrCode) (s : State) :
    (s.failedWith e).csr = { s.csr with status := { s.csr.status with done := false, err := true, errCode := some e } } := rfl
@[simp] theorem failedWith_creg (e : ErrCode) (s : State) :
    (s.failedWith e).creg = s.creg := rfl
@[simp] theorem failedWith_ps (e : ErrCode) (s : State) :
    (s.failedWith e).ps = s.ps := rfl
@[simp] theorem failedWith_mem (e : ErrCode) (s : State) :
    (s.failedWith e).mem = s.mem := rfl
@[simp] theorem failedWith_platform (e : ErrCode) (s : State) :
    (s.failedWith e).platform = s.platform := rfl
@[simp] theorem failedWith_hostQ (e : ErrCode) (s : State) :
    (s.failedWith e).hostQ = s.hostQ := rfl
@[simp] theorem failedWith_readData (e : ErrCode) (s : State) :
    (s.failedWith e).readData = s.readData := rfl
@[simp] theorem failedWith_runFor (e : ErrCode) (s : State) :
    (s.failedWith e).runFor = 0 := rfl
@[simp] theorem failedWith_inTouched (e : ErrCode) (s : State) :
    (s.failedWith e).inTouched = [] := rfl
@[simp] theorem failedWith_outTouched (e : ErrCode) (s : State) :
    (s.failedWith e).outTouched = [] := rfl
@[simp] theorem failedWith_draws (e : ErrCode) (s : State) :
    (s.failedWith e).draws = s.draws := rfl

end Sys2Proof.Machine
end

