-- ==== Sys2Proof/Laws/Engine.lean ====
section
/-! SUPPORT. Regions, engine accesses, and everything a command can do: each command is its plan run after its own
acceptance effect (60_exceptions R214..R216, 70_reset R248). -/

namespace Sys2Proof.Machine

/-! ### Regions -/

theorem Region.inRange_iff (r : Region) : r.inRange = true ↔ r.base + r.len ≤ 2 ^ 32 := by simp [Region.inRange]

theorem Region.has_iff (r : Region) (a : Nat) : r.has a = true ↔ r.base ≤ a ∧ a < r.base + r.len := by
  simp [Region.has]

theorem Region.not_has_iff (r : Region) (a : Nat) : r.has a = false ↔ a < r.base ∨ r.base + r.len ≤ a := by
  rw [← Bool.not_eq_true, Region.has_iff]
  omega

theorem Region.overlaps_iff (r q : Region) :
    r.overlaps q = true ↔ 0 < r.len ∧ 0 < q.len ∧ r.base < q.base + q.len ∧ q.base < r.base + r.len := by
  simp [Region.overlaps, and_assoc]

/-- Regions that do not overlap share no address. -/
theorem Region.not_has_of_apart {r q : Region} (h : r.overlaps q = false) {a : Nat} (ha : q.has a = true) :
    r.has a = false := by
  rw [Region.has_iff] at ha
  rw [Region.not_has_iff]
  rw [← Bool.not_eq_true, Region.overlaps_iff] at h
  omega

theorem Region.mem_addrs (r : Region) (a : Nat) : a ∈ r.addrs ↔ r.has a = true := by
  simp only [Region.addrs, List.mem_map, List.mem_range, Region.has_iff]
  constructor
  · rintro ⟨k, hk, rfl⟩; omega
  · intro h; exact ⟨a - r.base, by omega, by omega⟩

/-! ### Engine accesses -/

/-- Off the aperture an engine read returns the memory byte, if the host kept off the inputs (20_memory R79, R86). -/
theorem State.engineRead_memory {s : State} {a : Nat} (h : s.inAperture a = false) (hq : s.inTouched = []) (occ : Nat) :
    s.engineRead occ a = s.mem.read a := by simp [State.engineRead, State.heldBefore, h, hq]

/-- Off the aperture an engine read returns a value that the byte holds or held during the command (20_memory R86). -/
theorem State.engineRead_held {s : State} {a : Nat} (h : s.inAperture a = false) (occ : Nat) :
    s.engineRead occ a ∈ s.mem.read a :: s.heldBefore a := by
  unfold State.engineRead
  rw [if_neg (by simp [h])]
  split
  · exact List.mem_cons_self
  · have hlt : Config.heldPick s.draws occ a % ((s.heldBefore a).length + 1) < (s.mem.read a :: s.heldBefore a).length := by
      simpa using Nat.mod_lt _ (Nat.succ_pos _)
    rw [List.getD_eq_getElem?_getD, List.getElem?_eq_getElem hlt]
    exact List.getElem_mem hlt

/-- A platform without bus errors never fails an access (00_scope R8). -/
theorem State.busError_of_none {s : State} (h : s.platform.busErrors = []) (d : Dir) (a : Nat) :
    s.busError d a = false := by simp [State.busError, h]

theorem State.inAperture_eq_false {s : State} {a : Nat}
    (h : a < s.platform.csrBase.toNat ∨ s.platform.csrBase.toNat + 0x2000 ≤ a) : s.inAperture a = false := by
  simp only [State.inAperture, Bool.and_eq_false_iff, decide_eq_false_iff_not]
  omega

/-- A region off the aperture, on a platform without bus errors, is readable. -/
theorem State.readable_of_apart {s : State} {r : Region} (hb : s.platform.busErrors = [])
    (h : r.base + r.len ≤ s.platform.csrBase.toNat ∨ s.platform.csrBase.toNat + 0x2000 ≤ r.base) : s.readable r := by
  intro a ha
  rw [Region.has_iff] at ha
  exact ⟨State.busError_of_none hb _ _, State.inAperture_eq_false (by omega)⟩

/-- A region off the aperture, on a platform without bus errors, is writable. -/
theorem State.writable_of_apart {s : State} {r : Region} (hb : s.platform.busErrors = [])
    (h : r.base + r.len ≤ s.platform.csrBase.toNat ∨ s.platform.csrBase.toNat + 0x2000 ≤ r.base) : s.writable r := by
  intro a ha
  rw [Region.has_iff] at ha
  exact ⟨State.busError_of_none hb _ _, State.inAperture_eq_false (by omega)⟩

/-! ### Checks -/

@[simp] theorem firstError_nil : firstError [] = none := rfl

theorem firstError_cons (b : Bool) (e : ErrCode) (l : List (Bool × ErrCode)) :
    firstError ((b, e) :: l) = if b then some e else firstError l := rfl

/-- No error is reported exactly when no check holds. -/
theorem firstError_eq_none (l : List (Bool × ErrCode)) : firstError l = none ↔ ∀ c ∈ l, c.1 = false := by
  induction l with
  | nil => simp
  | cons c l ih =>
    obtain ⟨b, e⟩ := c
    cases b <;> simp [firstError_cons, ih]

/-! ### The work of a command -/

theorem Memory.segment_congr (base len : Nat) (f g : Nat → Byte) (h : ∀ k, k < len → f k = g k) :
    Memory.segment base len f = Memory.segment base len g := by
  unfold Memory.segment
  refine List.filterMap_congr fun k hk => ?_
  simp only [h k (List.mem_range.1 hk)]

theorem Memory.fill_congr (m : Memory) (base len : Nat) (f g : Nat → Byte) (h : ∀ k, k < len → f k = g k) :
    m.fill base len f = m.fill base len g := by
  unfold Memory.fill
  rw [Memory.segment_congr base len f g h]

theorem Work.failing_eq_nil {w : Work} {s : State} (hr : ∀ a ∈ w.reads, s.busError .read a = false)
    (hw : ∀ a ∈ w.writes, s.busError .write a = false) : w.failing s = [] := by
  simp only [Work.failing, List.append_eq_nil_iff, List.filter_eq_nil_iff, Bool.not_eq_true]
  exact ⟨hr, hw⟩

theorem Work.mem_failing {w : Work} {s : State} {a : Nat} :
    a ∈ w.failing s ↔ (a ∈ w.reads ∧ s.busError .read a = true) ∨ (a ∈ w.writes ∧ s.busError .write a = true) := by
  simp [Work.failing]

/-- Writes off the aperture reach no CSR (20_memory R75). -/
theorem Work.writesCsrs_eq_false {w : Work} {s : State} (h : ∀ a ∈ w.writes, s.inAperture a = false) :
    w.writesCsrs s = false := by
  rw [Work.writesCsrs, List.any_eq_false]
  intro a ha
  simp [h a ha]

/-- A byte that the host, the platform and the aperture leave alone is the command's (20_memory R76). -/
theorem Work.finalByte_quiet {w : Work} {s : State} {k : Nat} (ha : s.inAperture (w.out.base + k) = false)
    (hh : s.hostKeptOff) : w.finalByte s false k = w.byteAt k := by
  simp [Work.finalByte, Work.unspecified, ha, hh.1, hh.2]

/-- Everything a byte can be at a command's end (20_memory R75, R86, 60_exceptions R216). -/
theorem Work.finalByte_cases (w : Work) (s : State) (failed : Bool) (k : Nat) :
    (s.inAperture (w.out.base + k) = true ∧ w.finalByte s failed k = s.mem.read (w.out.base + k)) ∨
    (s.inAperture (w.out.base + k) = false ∧ w.unspecified s failed (w.out.base + k) = true
      ∧ w.finalByte s failed k = Config.freeByte s.draws (w.out.base + k)) ∨
    (s.inAperture (w.out.base + k) = false ∧ w.unspecified s failed (w.out.base + k) = false
      ∧ w.finalByte s failed k = w.byteAt k) := by
  cases ha : s.inAperture (w.out.base + k) <;> cases hu : w.unspecified s failed (w.out.base + k) <;>
    simp [Work.finalByte, ha, hu]

/-- The whole of an undisturbed run: the write region filled, PS, FONT_STATE and JM_HITS set, DONE (70_reset R248). -/
theorem Work.complete_quiet {w : Work} {s : State} (hr : ∀ a ∈ w.reads, s.busError .read a = false)
    (hw : ∀ a ∈ w.writes, s.busError .write a = false ∧ s.inAperture a = false)
    (ho : ∀ k, k < w.out.len → s.inAperture (w.out.base + k) = false) (hh : s.hostKeptOff) :
    w.complete s = s.succeeded (s.mem.fill w.out.base w.out.len w.byteAt) (w.ps.getD s.ps) (w.font.getD s.csr.font)
      (match w.hits with | some n => BitVec.ofNat 16 n | Option.none => s.csr.jmHits) := by
  have hf : w.failing s = [] := Work.failing_eq_nil hr fun a ha => (hw a ha).1
  have hany : w.writesCsrs s = false := Work.writesCsrs_eq_false fun a ha => (hw a ha).2
  have hfill : s.mem.fill w.out.base w.out.len (w.finalByte s false) =
      s.mem.fill w.out.base w.out.len w.byteAt :=
    Memory.fill_congr _ _ _ _ _ fun k hk => Work.finalByte_quiet (ho k hk) hh
  unfold Work.complete
  rw [hf]
  simp only [Work.store, hany, if_false, Bool.false_eq_true, hfill]
  rfl

/-- The memory after a command's work: outside the write region every byte is as it was (20_memory R76). -/
theorem Work.store_mem (w : Work) (s : State) (b : Bool) :
    (w.store s b).mem = s.mem.fill w.out.base w.out.len (w.finalByte s b) := by
  unfold Work.store
  split <;> rfl

/-- The CSRs, CREG and PS that a command's writes leave: drawn anew where one of them reaches the aperture (log 11). -/
theorem Work.store_csr (w : Work) (s : State) (b : Bool) :
    (w.store s b).csr = if w.writesCsrs s then csrsOfWords (Config.freeWord s.draws) else s.csr := by
  simp only [Work.store]
  split <;> rfl

theorem Work.store_creg (w : Work) (s : State) (b : Bool) :
    (w.store s b).creg = if w.writesCsrs s then freeCreg s.draws else s.creg := by
  simp only [Work.store]
  split <;> rfl

theorem Work.store_ps (w : Work) (s : State) (b : Bool) :
    (w.store s b).ps = if w.writesCsrs s then freePalettes s.draws else s.ps := by
  simp only [Work.store]
  split <;> rfl

theorem Work.store_of_no_aperture (w : Work) (s : State) (b : Bool) (h : w.writesCsrs s = false) :
    w.store s b = { s with mem := s.mem.fill w.out.base w.out.len (w.finalByte s b) } := by
  unfold Work.store
  rw [if_neg (by simp [h])]

/-- A command's work ends in one of two ways (60_exceptions R216, 70_reset R248). -/
theorem Work.complete_cases (w : Work) (s : State) :
    (w.failing s = [] ∧ w.complete s = endSuccess (publish w.ps w.font w.hits (w.store s false))) ∨
    (∃ a, a ∈ w.failing s ∧ w.complete s = takeError .bus (some a) (publish w.ps
        (w.font.map fun _ => invalidFont (w.store s true)) (w.hits.map fun _ => s.unspecifiedHits) (w.store s true))) := by
  unfold Work.complete
  split
  · left; exact ⟨‹_›, rfl⟩
  · rename_i a rest hf
    right
    refine ⟨(a :: rest).getD (Config.failingPick s.draws % (rest.length + 1)) a, ?_, rfl⟩
    rw [hf]
    have hlt : Config.failingPick s.draws % (rest.length + 1) < (a :: rest).length := by
      simpa using Nat.mod_lt _ (Nat.succ_pos _)
    rw [List.getD_eq_getElem?_getD, List.getElem?_eq_getElem hlt]
    exact List.getElem_mem hlt

/-- The memory at a command's end, whatever its end. -/
theorem Work.complete_mem (w : Work) (s : State) :
    (w.complete s).mem = s.mem.fill w.out.base w.out.len (w.pendingByte s) := by
  unfold Work.pendingByte
  rcases w.complete_cases s with ⟨hf, h⟩ | ⟨a, ha, h⟩
  · rw [h, endSuccess_mem, publish_mem, Work.store_mem, hf]
    simp
  · rw [h, takeError_mem, publish_mem, Work.store_mem]
    have : (w.failing s).isEmpty = false := by
      cases hw : w.failing s with
      | nil => rw [hw] at ha; cases ha
      | cons => rfl
    simp [this]

theorem Work.complete_phase (w : Work) (s : State) : (w.complete s).phase = .idle := by
  rcases w.complete_cases s with ⟨_, h⟩ | ⟨_, _, h⟩ <;> rw [h] <;> rfl

/-! ### Running a plan -/

/-- A plan ends with its error, or with its work done; it never stops the machine (60_exceptions R211). -/
theorem runPlan_cases (p : Plan) (s : State) :
    (∃ e, p.error = some e ∧ runPlan p s = .next (takeError e none s)) ∨
    (p.error = none ∧ runPlan p s = .next (p.work.complete s)) := by
  unfold runPlan
  cases h : p.error with
  | none => right; exact ⟨rfl, rfl⟩
  | some e => left; exact ⟨e, rfl, rfl⟩

theorem runPlan_of_error {p : Plan} {e : ErrCode} (h : p.error = some e) (s : State) :
    runPlan p s = .next (takeError e none s) := by simp [runPlan, h]

theorem runPlan_of_none {p : Plan} (h : p.error = none) (s : State) : runPlan p s = .next (p.work.complete s) := by
  simp [runPlan, h]

/-- A check error leaves the failed state (60_exceptions R213, R215). -/
theorem takeError_check (e : ErrCode) (s : State) : takeError e none s = s.failedWith e := rfl

/-- Every command is its plan, run after its own acceptance effect. -/
theorem exec_eq_runPlan (i : Instr) (s : State) : exec i s = runPlan (planOf i s) (acceptanceEffect i s) := by
  cases i <;> rfl

@[simp] theorem acceptanceEffect_mem (i : Instr) (s : State) : (acceptanceEffect i s).mem = s.mem := by cases i <;> rfl
@[simp] theorem acceptanceEffect_ps (i : Instr) (s : State) : (acceptanceEffect i s).ps = s.ps := by cases i <;> rfl
@[simp] theorem acceptanceEffect_creg (i : Instr) (s : State) : (acceptanceEffect i s).creg = s.creg := by cases i <;> rfl
@[simp] theorem acceptanceEffect_phase (i : Instr) (s : State) : (acceptanceEffect i s).phase = s.phase := by cases i <;> rfl
@[simp] theorem acceptanceEffect_platform (i : Instr) (s : State) : (acceptanceEffect i s).platform = s.platform := by cases i <;> rfl
@[simp] theorem acceptanceEffect_hostQ (i : Instr) (s : State) : (acceptanceEffect i s).hostQ = s.hostQ := by cases i <;> rfl
@[simp] theorem acceptanceEffect_draws (i : Instr) (s : State) : (acceptanceEffect i s).draws = s.draws := by cases i <;> rfl
@[simp] theorem acceptanceEffect_inTouched (i : Instr) (s : State) : (acceptanceEffect i s).inTouched = s.inTouched := by
  cases i <;> rfl
@[simp] theorem acceptanceEffect_outTouched (i : Instr) (s : State) : (acceptanceEffect i s).outTouched = s.outTouched := by
  cases i <;> rfl

/-- Aperture and bus errors depend on the platform alone. -/
theorem State.inAperture_congr {s t : State} (h : s.platform = t.platform) (a : Nat) :
    s.inAperture a = t.inAperture a := by simp [State.inAperture, h]

theorem State.busError_congr {s t : State} (h : s.platform = t.platform) (d : Dir) (a : Nat) :
    s.busError d a = t.busError d a := by simp [State.busError, h]

end Sys2Proof.Machine
end

