-- ==== Sys2Proof/Laws/Images.lean ====
section
/-! SUPPORT. What each family of commands leaves in an undisturbed run, once over its shared procedure: the image of a
RENDER, a scaler or FRENDER, the tables of a BAKE, the plane of HARVEST. -/

namespace Sys2Proof.Machine

/-! ### Images in memory -/

theorem channel_zero (c : RGB) : channel c 0 = c.r := rfl
theorem channel_one (c : RGB) : channel c 1 = c.g := rfl
theorem channel_two (c : RGB) : channel c 2 = c.b := rfl

/-- The byte of channel `ch` of pixel (y, x) (00_scope R14). -/
theorem imageByte_pixel (w : Nat) (img : Image) (y x ch : Nat) (hx : x < w) (hc : ch < 3) :
    imageByte w img (3 * (y * w + x) + ch) = channel (img y x) ch := by
  have h3 : (3 * (y * w + x) + ch) / 3 = y * w + x := by omega
  have hm : (3 * (y * w + x) + ch) % 3 = ch := by omega
  have hy : (y * w + x) / w = y := by
    rw [Nat.mul_comm, Nat.mul_add_div (by omega), Nat.div_eq_of_lt hx, Nat.add_zero]
  have hxm : (y * w + x) % w = x := by rw [Nat.mul_comm, Nat.mul_add_mod, Nat.mod_eq_of_lt hx]
  unfold imageByte
  rw [h3, hm, hy, hxm]

theorem pixel_lt {w h y x ch : Nat} (hy : y < h) (hx : x < w) (hc : ch < 3) : 3 * (y * w + x) + ch < 3 * w * h := by
  have h1 : y * w + w ≤ h * w := by
    rw [← Nat.succ_mul]; exact Nat.mul_le_mul_right w hy
  have h2 : 3 * w * h = 3 * (h * w) := by rw [Nat.mul_assoc, Nat.mul_comm w h]
  omega

/-- A write region filled with an image holds it (00_scope R14, 20_memory R88). -/
theorem Memory.fill_holdsImage (m : Memory) (base w h : Nat) (img : Image) :
    (m.fill base (3 * w * h) (imageByte w img)).HoldsImage m base w h img := by
  refine ⟨fun y x hy hx => ?_, fun a ha => Memory.read_fill_outside _ _ _ _ _ ha⟩
  have e : ∀ ch, ch < 3 → (m.fill base (3 * w * h) (imageByte w img)).read (base + (3 * (y * w + x) + ch)) =
      channel (img y x) ch := fun ch hc => by
    rw [Memory.read_fill_inside _ _ _ _ _ (pixel_lt hy hx hc), imageByte_pixel _ _ _ _ _ hx hc]
  have e0 := e 0 (by omega)
  have e1 := e 1 (by omega)
  have e2 := e 2 (by omega)
  rw [Nat.add_zero] at e0
  unfold Memory.colourAt
  rw [e0, Nat.add_assoc, e1, Nat.add_assoc, e2]
  rfl

theorem Memory.HoldsImage.congr {m m0 : Memory} {base w h : Nat} {f g : Nat → Nat → RGB}
    (hm : m.HoldsImage m0 base w h f) (e : ∀ y x, y < h → x < w → f y x = g y x) : m.HoldsImage m0 base w h g :=
  ⟨fun y x hy hx => (hm.1 y x hy hx).trans (e y x hy hx), hm.2⟩

/-- A command that writes its whole write region, in an undisturbed run. -/
theorem Work.complete_region {w : Work} {s : State} (hr : ∀ a ∈ w.reads, s.busError .read a = false)
    (hw : w.writes = w.out.addrs) (hs : s.writable w.out) (hh : s.hostKeptOff) :
    w.complete s = s.succeeded (s.mem.fill w.out.base w.out.len w.byteAt) (w.ps.getD s.ps) (w.font.getD s.csr.font)
      (match w.hits with | some n => BitVec.ofNat 16 n | Option.none => s.csr.jmHits) :=
  Work.complete_quiet hr (fun a ha => hs a ((Region.mem_addrs _ _).1 (hw ▸ ha)))
    (fun _ hk => (hs _ ((Region.has_iff _ _).2 ⟨Nat.le_add_right _ _, Nat.add_lt_add_left hk _⟩)).2) hh

/-- A command whose write region is an image, in an undisturbed run. -/
theorem Work.complete_image {w : Work} {s : State} {base width height : Nat} {img img' : Image}
    (hout : w.out = ⟨base, 3 * width * height⟩) (hbyte : w.byteAt = imageByte width img)
    (himg : ∀ y x, y < height → x < width → img y x = img' y x)
    (hr : ∀ a ∈ w.reads, s.busError .read a = false) (hw : w.writes = w.out.addrs) (hs : s.writable w.out)
    (hh : s.hostKeptOff) (hhits : w.hits = Option.none) :
    ∃ m, w.complete s = s.succeeded m (w.ps.getD s.ps) (w.font.getD s.csr.font) s.csr.jmHits
      ∧ m.HoldsImage s.mem base width height img' := by
  have hq := Work.complete_region hr hw hs hh
  rw [hhits, hout, hbyte] at hq
  exact ⟨_, hq, Memory.HoldsImage.congr (Memory.fill_holdsImage s.mem _ _ _ _) himg⟩

/-! ### Operands -/

/-- `D(i)` of an undisturbed run as a byte. -/
theorem dataByte_quiet {s : State} (h : s.readable (dataRegion s.csr)) (hq : s.inTouched = []) (occ i : Nat) :
    dataByte s occ i = BitVec.ofNat 8 (s.dataAt i) := by
  unfold dataByte State.dataAt
  split
  · rename_i hi
    rw [State.engineRead_memory (h _ _).2 hq]
    · simp
    · rw [Region.has_iff]
      simp only [dataRegion]
      omega
  · rfl

/-- `S(i)` of an undisturbed run. -/
theorem styleByte_quiet {s : State} (h : s.readable (styleRegion s.csr)) (hq : s.inTouched = []) (occ i : Nat) :
    styleByte s occ i = s.styleAt i := by
  unfold styleByte State.styleAt
  split
  · rename_i hi
    rw [State.engineRead_memory (h _ _).2 hq]
    rw [Region.has_iff]
    simp only [styleRegion]
    omega
  · rfl

theorem mem_guardedAddrs {c : Csrs} {base : Nat} {l : List Nat} {a : Nat} (h : a ∈ guardedAddrs c base l) :
    base ≤ a ∧ a < base + effectiveCount c := by
  simp only [guardedAddrs, List.mem_map, List.mem_filter, decide_eq_true_eq] at h
  obtain ⟨i, ⟨_, hi⟩, rfl⟩ := h
  omega

/-- The addresses a pixel reads lie in the data and style regions (20_memory R76). -/
theorem mem_pixelReads {c : Csrs} {u : Unpacked} {a : Nat} (h : a ∈ pixelReads c u) :
    (dataRegion c).has a = true ∨ (styleRegion c).has a = true := by
  rw [Region.has_iff, Region.has_iff]
  rcases List.mem_append.1 h with h | h
  · left; exact mem_guardedAddrs h
  · right; exact mem_guardedAddrs h

/-! ### Palettes -/

@[simp] theorem Table.get_ofFn {α : Type} (f : Nat → α) (i : Byte) : Table.get (Table.ofFn f) i = f i.toNat := by
  simp [Table.get, Table.ofFn]

theorem Table.get_put_same {α : Type} (t : Table α) (i : Byte) (v : α) : Table.get (Table.put t i v) i = v := by
  simp [Table.get, Table.put]

theorem Table.get_put_other {α : Type} (t : Table α) (i j : Byte) (v : α) (h : j ≠ i) :
    Table.get (Table.put t i v) j = Table.get t j := by
  have : i.toNat ≠ j.toNat := fun e => h (BitVec.eq_of_toNat_eq e.symm)
  simp [Table.get, Table.put, this]

theorem PaletteSet.bank_ofFn (f : StyleClass → Nat → RGB) (c : StyleClass) :
    (PaletteSet.ofFn f).bank c = Table.ofFn (f c) := by cases c <;> rfl

theorem buildPalettes_get (s : State) (src : PaletteSource) (c : StyleClass) (k : Byte) :
    Table.get ((buildPalettes s src).bank c) k =
      if k.toNat < sourceCount s.csr src then styledColour s.csr (sourceColour s src k.toNat) c else .black := by
  unfold buildPalettes
  rw [PaletteSet.bank_ofFn, Table.get_ofFn]

/-- The silent clamp, on a register number (41_palette R127). -/
theorem paletteEntry_register (s : State) (src : PaletteSource) (c : StyleClass) (k : Nat) (hk : k < 256) :
    paletteEntry (buildPalettes s src) (sourceCount s.csr src) c (BitVec.ofNat 8 k) = s.registerColour src c k := by
  have : (BitVec.ofNat 8 k).toNat = k := by simp [Nat.mod_eq_of_lt hk]
  unfold paletteEntry State.registerColour
  rw [this]
  split <;> rfl

theorem paletteEntry_byte (s : State) (src : PaletteSource) (c : StyleClass) (k : Byte) :
    paletteEntry (buildPalettes s src) (sourceCount s.csr src) c k = s.registerColour src c k.toNat := by
  have := paletteEntry_register s src c k.toNat k.isLt
  simpa using this

/-! ### RENDER -/

/-- The colour of a pre-scale pixel in an undisturbed run (43_bitmap_renderers R153). -/
theorem renderPixel_quiet {m : RenderMode} {s : State} (hd : s.readable (dataRegion s.csr))
    (hs : s.readable (styleRegion s.csr)) (hq : s.inTouched = []) (occ y x : Nat) :
    renderPixel m s (buildPalettes s m.source) (sourceCount s.csr m.source) occ y x =
      if effectiveCount s.csr ≤ (m.unpack y x).own then s.csr.emptyBg
      else s.registerColour m.source
        (styleClass (((m.unpack y x).styleIdx.map s.styleAt).foldl (· ||| ·) 0))
        ((m.unpack y x).colour ((m.unpack y x).dataIdx.map fun i => BitVec.ofNat 8 (s.dataAt i))).toNat := by
  have e1 : ∀ o, (fun i => dataByte s o i) = fun i => BitVec.ofNat 8 (s.dataAt i) :=
    fun o => funext fun i => dataByte_quiet hd hq o i
  have e2 : ∀ o, (fun i => styleByte s o i) = s.styleAt := fun o => funext fun i => styleByte_quiet hs hq o i
  unfold renderPixel
  simp only
  split
  · rfl
  · rw [paletteEntry_byte]
    rw [show dataByte s (2 * occ) = _ from e1 _, show styleByte s (2 * occ + 1) = _ from e2 _]

/-- The output region of a renderer, by its mode. -/
theorem renderPlan_out (m : RenderMode) (s : State) : (renderPlan m s).work.out = renderOut s.csr m.width := rfl

/-- The checks of a renderer pass exactly when its geometry fits and R157 holds. -/
theorem renderPlan_error_eq_none (m : RenderMode) (s : State) :
    (renderPlan m s).error = none ↔
      s.csr.scaleW ≠ 0 ∧ s.csr.scaleH ≠ 0 ∧ m.geometryOk = true ∧ (dataRegion s.csr).inRange = true
        ∧ (styleRegion s.csr).inRange = true ∧ (renderOut s.csr m.width).inRange = true
        ∧ (renderOut s.csr m.width).overlaps (dataRegion s.csr) = false
        ∧ (renderOut s.csr m.width).overlaps (styleRegion s.csr) = false := by
  have hz : ∀ b : Byte, b.toNat = 0 ↔ b = 0 := fun b => by
    rw [← BitVec.toNat_inj]; simp
  have : (renderPlan m s).error = firstError
      [ (decide (s.csr.scaleW.toNat = 0) || decide (s.csr.scaleH.toNat = 0), .scale),
        (!m.geometryOk, .geometry),
        (!(dataRegion s.csr).inRange || !(styleRegion s.csr).inRange || !(renderOut s.csr m.width).inRange, .range),
        ((renderOut s.csr m.width).overlaps (dataRegion s.csr) ||
          (renderOut s.csr m.width).overlaps (styleRegion s.csr), .overlap) ] := rfl
  rw [this, firstError_eq_none]
  simp [hz, and_assoc]

/-- RENDER with a mode in an undisturbed run (43_bitmap_renderers R153). -/
theorem renderPlan_quiet {m : RenderMode} {s : State} (hg : m.geometryOk = true) (h : s.RenderReady m.width) :
    ∃ mem, runPlan (renderPlan m s) s =
        .next (s.succeeded mem (buildPalettes s m.source) s.csr.font s.csr.jmHits)
      ∧ mem.HoldsImage s.mem s.csr.outBase.toNat (m.width * s.csr.scaleW.toNat)
          (s.csr.numRows.toNat * s.csr.scaleH.toNat) fun Y X =>
            let u := m.unpack (Y / s.csr.scaleH.toNat) (X / s.csr.scaleW.toNat)
            if effectiveCount s.csr ≤ u.own then s.csr.emptyBg
            else s.registerColour m.source (styleClass ((u.styleIdx.map s.styleAt).foldl (· ||| ·) 0))
              (u.colour (u.dataIdx.map fun i => BitVec.ofNat 8 (s.dataAt i))).toNat := by
  have he : (renderPlan m s).error = none := (renderPlan_error_eq_none m s).2
    ⟨h.scaleW, h.scaleH, hg, h.dataIn, h.styleIn, h.outIn, h.offData, h.offStyle⟩
  have hr : ∀ a ∈ (renderPlan m s).work.reads, s.busError .read a = false := by
    intro a ha
    obtain ⟨q, _, ha⟩ := List.mem_flatMap.1 ha
    rcases mem_pixelReads ha with ha | ha
    · exact (h.dataRead a ha).1
    · exact (h.styleRead a ha).1
  obtain ⟨mem, h1, h2⟩ := Work.complete_image (w := (renderPlan m s).work) (s := s)
    (base := s.csr.outBase.toNat) (width := m.width * s.csr.scaleW.toNat)
    (height := s.csr.numRows.toNat * s.csr.scaleH.toNat)
    (img := fun y x => scaleImage (renderPixel m s (buildPalettes s m.source) (sourceCount s.csr m.source)
      (y * (m.width * s.csr.scaleW.toNat) + x)) s.csr.scaleH.toNat s.csr.scaleW.toNat y x) rfl rfl
    (fun y x _ _ => renderPixel_quiet h.dataRead h.styleRead h.host.1 _ _ _) hr rfl h.outWrite h.host rfl
  exact ⟨mem, by rw [runPlan_of_none he, h1]; rfl, h2⟩

/-! ### ISCALE and IWSCALE -/

/-- The scaler's checks (40_utilities R117). -/
theorem scalerPlan_error_eq_none (sh sw : Nat) (s : State) :
    (scalerPlan sh sw s).error = none ↔
      sh ≠ 0 ∧ sw ≠ 0 ∧ (sourceRegion s.csr).inRange = true ∧ (scalerOut s.csr sh sw).inRange = true
        ∧ ((sh = 1 ∧ sw = 1 ∧ s.csr.outBase = s.csr.srcBase)
            ∨ (scalerOut s.csr sh sw).overlaps (sourceRegion s.csr) = false) := by
  have : (scalerPlan sh sw s).error = firstError
      [ (decide (sh = 0) || decide (sw = 0), .scale),
        (!(sourceRegion s.csr).inRange || !(scalerOut s.csr sh sw).inRange, .range),
        (!(decide (sh = 1) && decide (sw = 1) && decide (s.csr.outBase = s.csr.srcBase))
          && (scalerOut s.csr sh sw).overlaps (sourceRegion s.csr), .overlap) ] := rfl
  rw [this, firstError_eq_none]
  simp only [List.mem_cons, forall_eq_or_imp, Bool.or_eq_false_iff, Bool.and_eq_false_iff, decide_eq_false_iff_not,
    Bool.not_eq_false', Bool.and_eq_true, decide_eq_true_eq, List.not_mem_nil, false_imp_iff, implies_true, and_true,
    and_assoc, ne_eq]

/-- ISCALE outside the identity case, in an undisturbed run (40_utilities R117). -/
theorem scalerPlan_quiet {sh sw : Nat} {s : State} (h : s.ScalerReady sh sw)
    (hi : ¬ (sh = 1 ∧ sw = 1 ∧ s.csr.outBase = s.csr.srcBase)) :
    ∃ mem, runPlan (scalerPlan sh sw s) s = .next (s.succeeded mem s.ps s.csr.font s.csr.jmHits)
      ∧ mem.HoldsImage s.mem s.csr.outBase.toNat (s.csr.srcW.toNat * sw) (s.csr.srcH.toNat * sh) fun Y X =>
          s.mem.colourAt (s.csr.srcBase.toNat + 3 * (Y / sh * s.csr.srcW.toNat + X / sw)) := by
  have he : (scalerPlan sh sw s).error = none := (scalerPlan_error_eq_none sh sw s).2
    ⟨h.factorH, h.factorW, h.srcIn, h.outIn, .inr h.offSource⟩
  have hid : (decide (sh = 1) && decide (sw = 1) && decide (s.csr.outBase = s.csr.srcBase)) = false := by
    simp only [Bool.and_eq_false_iff, decide_eq_false_iff_not]
    tauto
  have hw : (scalerPlan sh sw s).work =
      { Work.none with
        reads := (sourceRegion s.csr).addrs
        writes := (scalerOut s.csr sh sw).addrs
        readRegions := [sourceRegion s.csr]
        out := scalerOut s.csr sh sw
        byteAt := imageByte (s.csr.srcW.toNat * sw) fun y x =>
          scaleImage (sourcePixel s (y * (s.csr.srcW.toNat * sw) + x)) sh sw y x } := by
    simp [scalerPlan, hid, scalerOut]
  have hpix : ∀ y x, y < s.csr.srcH.toNat * sh → x < s.csr.srcW.toNat * sw →
      scaleImage (sourcePixel s (y * (s.csr.srcW.toNat * sw) + x)) sh sw y x =
        s.mem.colourAt (s.csr.srcBase.toNat + 3 * (y / sh * s.csr.srcW.toNat + x / sw)) := by
    intro y x hy hx
    have hin : ∀ ch, ch < 3 → s.inAperture
        (s.csr.srcBase.toNat + 3 * (y / sh * s.csr.srcW.toNat + x / sw) + ch) = false := by
      intro ch hc
      refine (h.srcRead _ ?_).2
      rw [Region.has_iff]
      have := pixel_lt (h := s.csr.srcH.toNat) (w := s.csr.srcW.toNat) (y := y / sh) (x := x / sw) (ch := ch)
        (Nat.div_lt_of_lt_mul (by rwa [Nat.mul_comm])) (Nat.div_lt_of_lt_mul (by rwa [Nat.mul_comm])) hc
      simp only [sourceRegion]
      omega
    simp only [scaleImage, sourcePixel, Memory.colourAt]
    rw [State.engineRead_memory (by simpa using hin 0 (by omega)) h.host.1,
      State.engineRead_memory (hin 1 (by omega)) h.host.1, State.engineRead_memory (hin 2 (by omega)) h.host.1]
  obtain ⟨mem, h1, h2⟩ := Work.complete_image (w := (scalerPlan sh sw s).work) (s := s)
    (base := s.csr.outBase.toNat) (width := s.csr.srcW.toNat * sw) (height := s.csr.srcH.toNat * sh)
    (by rw [hw]; rfl) (by rw [hw]) hpix
    (by rw [hw]; exact fun a ha => (h.srcRead a ((Region.mem_addrs _ _).1 ha)).1)
    (by rw [hw]) (by rw [hw]; exact h.outWrite) h.host (by rw [hw]; rfl)
  exact ⟨mem, by rw [runPlan_of_none he, h1, hw]; rfl, h2⟩

/-! ### BAKE -/

theorem bakePlan_out (m : BakeMode) (s : State) : (bakePlan m s).work.out = bakedRegion s.csr (cellWidth m.cell7) := rfl

/-- The checks of a BAKE (42_font_baker R137). -/
theorem bakePlan_error_eq_none (m : BakeMode) (s : State) :
    (bakePlan m s).error = none ↔
      (blobRegion s.csr m.glyphs).inRange = true ∧ (bakedRegion s.csr (cellWidth m.cell7)).inRange = true
        ∧ (bakedRegion s.csr (cellWidth m.cell7)).overlaps (blobRegion s.csr m.glyphs) = false := by
  have : (bakePlan m s).error = firstError
      [ (!(blobRegion s.csr m.glyphs).inRange || !(bakedRegion s.csr (cellWidth m.cell7)).inRange, .range),
        ((bakedRegion s.csr (cellWidth m.cell7)).overlaps (blobRegion s.csr m.glyphs), .overlap) ] := rfl
  rw [this, firstError_eq_none]
  simp [and_assoc]

/-- `FB(i)` of an undisturbed run as a byte (42_font_baker R139). -/
theorem blobByte_quiet {s : State} {glyphs : Nat} (h : s.readable (blobRegion s.csr glyphs)) (hq : s.inTouched = [])
    (occ i : Nat) :
    blobByte s glyphs occ i = BitVec.ofNat 8 (s.glyphAt glyphs i) := by
  unfold blobByte State.glyphAt
  have hl : blobLength s.csr glyphs = min s.csr.fontLen.toNat (8 * glyphs) := rfl
  rw [hl]
  split
  · rename_i hi
    rw [State.engineRead_memory (h _ _).2 hq]
    · simp
    · rw [Region.has_iff]
      simp only [blobRegion, hl]
      omega
  · rfl

theorem StyleClass.ofIndex_index (c : StyleClass) : StyleClass.ofIndex c.index = c := by cases c <;> rfl

theorem StyleClass.index_lt (c : StyleClass) : c.index < 5 := by cases c <;> decide

theorem cellWidth_pos (b : Bool) : 0 < cellWidth b := by cases b <;> decide

/-- The place of a baked pixel names its class, frame, slot, row and column (42_font_baker R138). -/
theorem bakedByte_at (m : BakeMode) (s : State) (p : PaletteSet) (n : Nat) (c : StyleClass)
    (f slot row col ch : Nat) (hf : f < 2) (hs : slot < 256) (hr : row < 8) (hc : col < cellWidth m.cell7) (hch : ch < 3) :
    ∃ occ, bakedByte m s p n
        (3 * ((((c.index * 2 + f) * 256 + slot) * 8 + row) * cellWidth m.cell7 + col) + ch) =
      channel (bakePixel m s p n occ c f slot row col) ch := by
  generalize hw : cellWidth m.cell7 = cw at hc
  generalize hq : ((c.index * 2 + f) * 256 + slot) * 8 + row = q
  have h3 : (3 * (q * cw + col) + ch) / 3 = q * cw + col := by omega
  have hm : (3 * (q * cw + col) + ch) % 3 = ch := by omega
  have hd : (q * cw + col) / cw = q := by
    rw [Nat.mul_comm, Nat.mul_add_div (by omega), Nat.div_eq_of_lt hc, Nat.add_zero]
  have hu : (q * cw + col) % cw = col := by rw [Nat.mul_comm, Nat.mul_add_mod, Nat.mod_eq_of_lt hc]
  have e1 : q / 8 / 256 / 2 = c.index := by omega
  have e2 : q / 8 / 256 % 2 = f := by omega
  have e3 : q / 8 % 256 = slot := by omega
  have e4 : q % 8 = row := by omega
  refine ⟨q * cw + col, ?_⟩
  unfold bakedByte
  simp only [hw]
  rw [h3, hm, hd, hu, e1, e2, e3, e4, StyleClass.ofIndex_index]

theorem mem_blobReads {m : BakeMode} {c : Csrs} {a : Nat} (h : a ∈ blobReads m c) :
    (blobRegion c m.glyphs).has a = true := by
  simp only [blobReads, List.mem_filterMap] at h
  obtain ⟨q, _, h⟩ := h
  split at h
  · rename_i hi
    cases h
    rw [Region.has_iff]
    simp only [blobRegion]
    omega
  · cases h

theorem bakedSize_eq (cw : Nat) : bakedSize cw = 61440 * cw := by unfold bakedSize; omega

theorem bakedOffset_lt {c f slot row col ch cw : Nat} (hc : c < 5) (hf : f < 2) (hs : slot < 256) (hr : row < 8)
    (hu : col < cw) (hch : ch < 3) :
    3 * ((((c * 2 + f) * 256 + slot) * 8 + row) * cw + col) + ch < 61440 * cw := by
  have h1 : ((c * 2 + f) * 256 + slot) * 8 + row + 1 ≤ 20480 := by omega
  have h2 : (((c * 2 + f) * 256 + slot) * 8 + row + 1) * cw ≤ 20480 * cw := Nat.mul_le_mul_right _ h1
  rw [Nat.succ_mul] at h2
  omega

/-- BAKE with a mode in an undisturbed run (42_font_baker R137). -/
theorem bakePlan_quiet {m : BakeMode} {s : State} (h : s.BakeReady m.glyphs (cellWidth m.cell7)) :
    ∃ mem, runPlan (bakePlan m s) (clearFontValid s) =
        .next (s.succeeded mem (buildPalettes s m.source) m.fontState s.csr.jmHits)
      ∧ (∀ (c : StyleClass) (f slot row col : Nat), f < 2 → slot < 256 → row < 8 → col < cellWidth m.cell7 →
          mem.colourAt (s.csr.bakeBase.toNat +
              3 * ((((c.index * 2 + f) * 256 + slot) * 8 + row) * cellWidth m.cell7 + col)) =
            m.pixel (paletteEntry (buildPalettes s m.source) (sourceCount s.csr m.source) c) f slot col
              (BitVec.ofNat 8 (s.glyphAt m.glyphs (8 * m.glyphOf slot + row))))
      ∧ ∀ a, a < s.csr.bakeBase.toNat ∨ s.csr.bakeBase.toNat + 61440 * cellWidth m.cell7 ≤ a →
          mem.read a = s.mem.read a := by
  have he : (bakePlan m s).error = none := (bakePlan_error_eq_none m s).2 ⟨h.fontIn, h.outIn, h.offFont⟩
  have hr : ∀ a ∈ blobReads m s.csr, (clearFontValid s).busError .read a = false :=
    fun a ha => (h.fontRead a (mem_blobReads ha)).1
  have hq := Work.complete_region (w := (bakePlan m s).work) (s := clearFontValid s)
    (by simpa only [bakePlan] using hr) (by simp only [bakePlan]) h.outWrite h.host
  rw [runPlan_of_none he, hq]
  refine ⟨(s.mem.fill s.csr.bakeBase.toNat (bakedSize (cellWidth m.cell7))
    (bakedByte m s (buildPalettes s m.source) (sourceCount s.csr m.source))), rfl, ?_, ?_⟩
  · intro c f slot row col hf hs hr hu
    have e : ∀ ch, ch < 3 → _ := fun ch hch => bakedByte_at m s (buildPalettes s m.source)
      (sourceCount s.csr m.source) c f slot row col ch hf hs hr hu hch
    have lt : ∀ ch, ch < 3 → _ := fun ch hch => bakedOffset_lt (StyleClass.index_lt c) hf hs hr hu hch
    have rd : ∀ ch, ch < 3 → (s.mem.fill s.csr.bakeBase.toNat (bakedSize (cellWidth m.cell7))
        (bakedByte m s (buildPalettes s m.source) (sourceCount s.csr m.source))).read
          (s.csr.bakeBase.toNat +
            (3 * ((((c.index * 2 + f) * 256 + slot) * 8 + row) * cellWidth m.cell7 + col) + ch)) =
        channel (m.pixel (paletteEntry (buildPalettes s m.source) (sourceCount s.csr m.source) c) f slot col
            (BitVec.ofNat 8 (s.glyphAt m.glyphs (8 * m.glyphOf slot + row)))) ch := by
      intro ch hch
      obtain ⟨occ, eo⟩ := e ch hch
      rw [Memory.read_fill_inside _ _ _ _ _ (by rw [bakedSize_eq]; exact lt ch hch), eo, bakePixel,
        blobByte_quiet h.fontRead h.host.1]
    have r0 := rd 0 (by omega)
    have r1 := rd 1 (by omega)
    have r2 := rd 2 (by omega)
    rw [Nat.add_zero] at r0
    unfold Memory.colourAt
    refine (congrArg₂ (fun (a b : Byte) => RGB.mk a b _) r0 r1).trans ?_
    exact congrArg (RGB.mk _ _) r2
  · intro a ha
    refine Memory.read_fill_outside _ _ _ _ _ ?_
    rw [bakedSize_eq]
    exact ha

/-! ### FRENDER -/

/-- FRENDER's checks (44_font_renderer R190). -/
theorem planFrender_error_eq_none (s : State) :
    (planFrender s).error = none ↔
      s.csr.zoom ≠ 0 ∧ s.csr.scaleH ≠ 0 ∧ s.csr.scaleW ≠ 0 ∧ s.csr.font.valid = true
        ∧ (dataRegion s.csr).inRange = true ∧ (styleRegion s.csr).inRange = true
        ∧ (bakedRegion s.csr (cellWidth s.csr.font.cw7)).inRange = true ∧ (frenderOut s.csr).inRange = true
        ∧ (frenderOut s.csr).overlaps (dataRegion s.csr) = false
        ∧ (frenderOut s.csr).overlaps (styleRegion s.csr) = false
        ∧ (frenderOut s.csr).overlaps (bakedRegion s.csr (cellWidth s.csr.font.cw7)) = false := by
  have : (planFrender s).error = firstError
      [ (decide (s.csr.zoom = 0) || decide (s.csr.scaleH = 0) || decide (s.csr.scaleW = 0), .scale),
        (!s.csr.font.valid, .noFont),
        (!(dataRegion s.csr).inRange || !(styleRegion s.csr).inRange
          || !(bakedRegion s.csr (cellWidth s.csr.font.cw7)).inRange || !(frenderOut s.csr).inRange, .range),
        ((frenderOut s.csr).overlaps (dataRegion s.csr) || (frenderOut s.csr).overlaps (styleRegion s.csr)
          || (frenderOut s.csr).overlaps (bakedRegion s.csr (cellWidth s.csr.font.cw7)), .overlap) ] := rfl
  rw [this, firstError_eq_none]
  simp [and_assoc]

theorem fontPixel_in_baked (s : State) (cw : Nat) (d t : Byte) (r u ch : Nat) (hr : r < 8) (hu : u < cw) (hch : ch < 3) :
    (bakedRegion s.csr cw).has (glyphPixelAddr s cw d t r u + ch) = true := by
  rw [Region.has_iff]
  have hf : s.csr.frame.toNat < 2 := by cases s.csr.frame <;> decide
  have := bakedOffset_lt (StyleClass.index_lt (styleClass t)) hf (mapCharacter s d).isLt hr hu hch
  simp only [bakedRegion, bakedSize_eq, glyphPixelAddr, bakeOffset]
  omega

theorem cell_in_region {s : State} {i : Nat} (base : Nat) (h : ¬ effectiveCount s.csr ≤ i) :
    (Region.mk base (effectiveCount s.csr)).has (base + i) = true := by
  rw [Region.has_iff]
  exact ⟨Nat.le_add_right _ _, Nat.add_lt_add_left (Nat.lt_of_not_le h) _⟩

/-- The colour of an FRENDER pixel in an undisturbed run (44_font_renderer R190, R191). -/
theorem fontPixel_quiet {s : State} (h : s.FontReady) (occ y x : Nat) :
    fontPixel s (cellWidth s.csr.font.cw7) occ y x =
      let i := y / 8 * s.csr.bpr.toNat + x / cellWidth s.csr.font.cw7
      if effectiveCount s.csr ≤ i then s.csr.background
      else s.mem.colourAt (glyphPixelAddr s (cellWidth s.csr.font.cw7) (s.mem.read (s.csr.dataBase.toNat + i))
        (s.mem.read (s.csr.styleBase.toNat + i)) (y % 8) (x % cellWidth s.csr.font.cw7)) := by
  unfold fontPixel
  simp only
  split
  · rfl
  · rename_i hi
    have hb : ∀ ch, ch < 3 → ∀ d t, s.inAperture (glyphPixelAddr s (cellWidth s.csr.font.cw7) d t (y % 8)
        (x % cellWidth s.csr.font.cw7) + ch) = false := fun ch hch d t =>
      (h.bakedRead _ (fontPixel_in_baked s _ d t _ _ ch (Nat.mod_lt _ (by omega))
        (Nat.mod_lt _ (cellWidth_pos _)) hch)).2
    simp only [cellBytes]
    rw [State.engineRead_memory (h.dataRead _ (cell_in_region _ hi)).2 h.host.1,
      State.engineRead_memory (h.styleRead _ (cell_in_region _ hi)).2 h.host.1]
    unfold Memory.colourAt
    rw [State.engineRead_memory (by simpa using hb 0 (by omega) _ _) h.host.1,
      State.engineRead_memory (hb 1 (by omega) _ _) h.host.1, State.engineRead_memory (hb 2 (by omega) _ _) h.host.1]

/-- The addresses FRENDER reads lie in its read regions (20_memory R76). -/
theorem mem_fontPixelReads {s : State} {occ y x a : Nat}
    (h : a ∈ fontPixelReads s (cellWidth s.csr.font.cw7) occ y x) :
    (dataRegion s.csr).has a = true ∨ (styleRegion s.csr).has a = true
      ∨ (bakedRegion s.csr (cellWidth s.csr.font.cw7)).has a = true := by
  unfold fontPixelReads at h
  simp only at h
  split at h
  · cases h
  · rename_i hi
    have hb : ∀ ch, ch < 3 → ∀ d t, _ := fun ch hch d t =>
      fontPixel_in_baked s (cellWidth s.csr.font.cw7) d t (y % 8) (x % cellWidth s.csr.font.cw7) ch
        (Nat.mod_lt _ (by omega)) (Nat.mod_lt _ (cellWidth_pos _)) hch
    split at h
    · simp only [List.mem_cons, List.not_mem_nil, or_false] at h
      rcases h with h | h
      · left; rw [h]; exact cell_in_region _ hi
      · right; left; rw [h]; exact cell_in_region _ hi
    · simp only [List.mem_cons, List.not_mem_nil, or_false] at h
      rcases h with h | h | h | h | h
      · left; rw [h]; exact cell_in_region _ hi
      · right; left; rw [h]; exact cell_in_region _ hi
      · right; right; rw [h]; simpa using hb 0 (by omega) _ _
      · right; right; rw [h]; exact hb 1 (by omega) _ _
      · right; right; rw [h]; exact hb 2 (by omega) _ _

/-- FRENDER in an undisturbed run (44_font_renderer R190). -/
theorem planFrender_quiet {s : State} (h : s.FontReady) :
    ∃ mem, runPlan (planFrender s) s = .next (s.succeeded mem s.ps s.csr.font s.csr.jmHits)
      ∧ mem.HoldsImage s.mem s.csr.outBase.toNat
          (s.csr.bpr.toNat * cellWidth s.csr.font.cw7 * (s.csr.zoom.toNat * s.csr.scaleW.toNat))
          (s.csr.numRows.toNat * 8 * (s.csr.zoom.toNat * s.csr.scaleH.toNat)) fun Y X =>
            let y := Y / (s.csr.zoom.toNat * s.csr.scaleH.toNat)
            let x := X / (s.csr.zoom.toNat * s.csr.scaleW.toNat)
            let i := y / 8 * s.csr.bpr.toNat + x / cellWidth s.csr.font.cw7
            if effectiveCount s.csr ≤ i then s.csr.background
            else s.mem.colourAt (glyphPixelAddr s (cellWidth s.csr.font.cw7) (s.mem.read (s.csr.dataBase.toNat + i))
              (s.mem.read (s.csr.styleBase.toNat + i)) (y % 8) (x % cellWidth s.csr.font.cw7)) := by
  have he : (planFrender s).error = none := (planFrender_error_eq_none s).2
    ⟨h.zoom, h.scaleH, h.scaleW, h.valid, h.dataIn, h.styleIn, h.bakedIn, h.outIn, h.offData, h.offStyle, h.offBaked⟩
  have hr : ∀ a ∈ (planFrender s).work.reads, s.busError .read a = false := by
    intro a ha
    obtain ⟨q, _, ha⟩ := List.mem_flatMap.1 ha
    rcases mem_fontPixelReads ha with ha | ha | ha
    · exact (h.dataRead a ha).1
    · exact (h.styleRead a ha).1
    · exact (h.bakedRead a ha).1
  obtain ⟨mem, h1, h2⟩ := Work.complete_image (w := (planFrender s).work) (s := s)
    (base := s.csr.outBase.toNat)
    (width := s.csr.bpr.toNat * cellWidth s.csr.font.cw7 * (s.csr.zoom.toNat * s.csr.scaleW.toNat))
    (height := s.csr.numRows.toNat * 8 * (s.csr.zoom.toNat * s.csr.scaleH.toNat))
    (img := fun y x => scaleImage (fontPixel s (cellWidth s.csr.font.cw7)
      (y * (s.csr.bpr.toNat * cellWidth s.csr.font.cw7 * (s.csr.zoom.toNat * s.csr.scaleW.toNat)) + x))
      (s.csr.zoom.toNat * s.csr.scaleH.toNat) (s.csr.zoom.toNat * s.csr.scaleW.toNat) y x) rfl rfl
    (fun y x _ _ => fontPixel_quiet h _ _ _) hr rfl h.outWrite h.host rfl
  exact ⟨mem, by rw [runPlan_of_none he, h1]; rfl, h2⟩

/-! ### HARVEST -/

/-- HARVEST's checks (46_jumpman R205). -/
theorem planHarvest_error_eq_none (s : State) :
    (planHarvest s).error = none ↔ (planeRegion s.csr).inRange = true ∧ (listRegion s.csr).inRange = true
      ∧ (planeRegion s.csr).overlaps (listRegion s.csr) = false := by
  have : (planHarvest s).error = firstError
      [ (!(planeRegion s.csr).inRange || !(listRegion s.csr).inRange, .range),
        ((planeRegion s.csr).overlaps (listRegion s.csr), .overlap) ] := rfl
  rw [this, firstError_eq_none]
  simp [and_assoc]

/-- The pixel of a marked record lies in the plane (46_jumpman R205). -/
theorem peanutOffset_lt {c : Csrs} {r : Peanut} (h : peanutHits c r = true) :
    peanutOffset c r < c.bpr.toNat * c.numRows.toNat := by
  simp only [peanutHits, Bool.and_eq_true, decide_eq_true_eq] at h
  obtain ⟨⟨h1, h2⟩, -⟩ := h
  have h3 : r.py.toNat * c.bpr.toNat + c.bpr.toNat ≤ c.numRows.toNat * c.bpr.toNat := by
    rw [← Nat.succ_mul]; exact Nat.mul_le_mul_right _ h2
  unfold peanutOffset
  rw [Nat.mul_comm c.bpr.toNat]
  omega

/-- The style bytes HARVEST touches lie in the plane (20_memory R76). -/
theorem mem_markedAddrs {s : State} {a : Nat} (h : a ∈ markedAddrs s) : (planeRegion s.csr).has a = true := by
  simp only [markedAddrs, markingRecords, hitRecords, List.mem_map, List.mem_filter] at h
  obtain ⟨n, ⟨⟨_, hn⟩, _⟩, rfl⟩ := h
  have := peanutOffset_lt hn
  rw [Region.has_iff]
  simp only [planeRegion]
  omega

theorem mem_peanutAddrs {c : Csrs} {n a : Nat} (hn : n < c.jmCount.toNat) (h : a ∈ peanutAddrs c n) :
    (listRegion c).has a = true := by
  simp only [peanutAddrs, peanutAddr, List.mem_cons, List.not_mem_nil, or_false] at h
  rw [Region.has_iff]
  simp only [listRegion]
  omega

/-- HARVEST in an undisturbed run (46_jumpman R205). -/
theorem planHarvest_quiet {s : State} (h : s.HarvestReady) :
    runPlan (planHarvest s) (clearHits s) =
      .next (s.succeeded (s.mem.fill s.csr.styleBase.toNat (s.csr.bpr.toNat * s.csr.numRows.toNat) (harvestByte s))
        s.ps s.csr.font (BitVec.ofNat 16 (hitRecords s).length)) := by
  have he : (planHarvest s).error = none := (planHarvest_error_eq_none s).2 ⟨h.planeIn, h.listIn, h.offList⟩
  rw [runPlan_of_none he, Work.complete_quiet]
  · rfl
  · intro a ha
    rcases List.mem_append.1 ha with ha | ha
    · obtain ⟨n, hn, ha⟩ := List.mem_flatMap.1 ha
      exact (h.listRead a (mem_peanutAddrs (List.mem_range.1 hn) ha)).1
    · exact (h.planeRead a (mem_markedAddrs ha)).1
  · intro a ha
    exact h.planeWrite a (mem_markedAddrs ha)
  · intro k hk
    refine (h.planeWrite _ ?_).2
    rw [Region.has_iff]
    exact ⟨Nat.le_add_right _ _, Nat.add_lt_add_left hk _⟩
  · exact h.host

end Sys2Proof.Machine
end

