-- ==== Sys2Proof/Laws/Commands.lean ====
section
/-! SUPPORT. What every command has in common: where it writes, that it ends, what it leaves alone (20_memory R76, R77,
60_exceptions R213, R215). -/

namespace Sys2Proof.Machine

/-! ### The write region of a plan -/

/-- The work of a plan writes inside its write region, which is in range and is the command's (20_memory R76, R77). -/
structure Work.Fits (w : Work) (r : Region) : Prop where
  writes : ∀ a ∈ w.writes, w.out.has a = true
  inRange : w.out.base + w.out.len ≤ 2 ^ 32
  sub : ∀ a, r.has a = false → a < w.out.base ∨ w.out.base + w.out.len ≤ a

theorem Work.none_fits (r : Region) (w : Work) (h1 : w.writes = []) (h2 : w.out = Region.empty) : w.Fits r where
  writes := by simp [h1]
  inRange := by rw [h2]; decide
  sub := fun a _ => by rw [h2]; exact .inr (Nat.zero_le _)

theorem Work.region_fits (r : Region) (w : Work) (h1 : ∀ a ∈ w.writes, r.has a = true) (h2 : w.out = r)
    (h3 : r.inRange = true) : w.Fits r where
  writes := by rw [h2]; exact h1
  inRange := by rw [h2]; exact (Region.inRange_iff r).1 h3
  sub := fun a ha => by rw [h2]; exact (Region.not_has_iff r a).1 ha

theorem palbuildPlan_fits (src : PaletteSource) (s : State) (r : Region) : (palbuildPlan src s).work.Fits r :=
  Work.none_fits r _ rfl rfl

theorem renderPlan_fits (m : RenderMode) (s : State) (h : (renderPlan m s).error = none) :
    (renderPlan m s).work.Fits (renderOut s.csr m.width) :=
  Work.region_fits _ _ (fun _ ha => (Region.mem_addrs _ _).1 ha) rfl
    ((renderPlan_error_eq_none m s).1 h).2.2.2.2.2.1

theorem planesPlan_error {n : Byte} {m : RenderMode} {s : State} (h : (planesPlan n m s).error = none) :
    legalPlanes n = true ∧ planesPlan n m s = renderPlan m s := by
  unfold planesPlan at h ⊢
  split
  · exact ⟨‹_›, rfl⟩
  · rename_i hn
    rw [if_neg hn] at h
    cases h

theorem planesPlan_fits (n : Byte) (m : RenderMode) (s : State) (h : (planesPlan n m s).error = none) :
    (planesPlan n m s).work.Fits (renderOut s.csr m.width) := by
  have hp := (planesPlan_error h).2
  rw [hp] at h ⊢
  exact renderPlan_fits m s h

theorem bakePlan_fits (m : BakeMode) (s : State) (h : (bakePlan m s).error = none) :
    (bakePlan m s).work.Fits (bakedRegion s.csr (cellWidth m.cell7)) := by
  have hw : (bakePlan m s).work.writes = (bakedRegion s.csr (cellWidth m.cell7)).addrs := by simp only [bakePlan]
  exact Work.region_fits _ _ (fun a ha => (Region.mem_addrs _ _).1 (hw ▸ ha)) (by simp only [bakePlan])
    ((bakePlan_error_eq_none m s).1 h).2.1

theorem scalerPlan_fits (sh sw : Nat) (s : State) (h : (scalerPlan sh sw s).error = none) :
    (scalerPlan sh sw s).work.Fits (scalerOut s.csr sh sw) := by
  have hin := ((scalerPlan_error_eq_none sh sw s).1 h).2.2.2.1
  cases hid : decide (sh = 1) && decide (sw = 1) && decide (s.csr.outBase = s.csr.srcBase) with
  | true => exact Work.none_fits _ _ (by simp [scalerPlan, hid, Work.none]) (by simp [scalerPlan, hid, Work.none])
  | false =>
    refine Work.region_fits _ _ ?_ (by simp [scalerPlan, hid, scalerOut]) hin
    intro a ha
    refine (Region.mem_addrs _ _).1 ?_
    simpa [scalerPlan, hid, scalerOut] using ha

theorem planFrender_fits (s : State) (h : (planFrender s).error = none) :
    (planFrender s).work.Fits (frenderOut s.csr) :=
  Work.region_fits _ _ (fun _ ha => (Region.mem_addrs _ _).1 ha) rfl
    ((planFrender_error_eq_none s).1 h).2.2.2.2.2.2.2.1

theorem planHarvest_fits (s : State) (h : (planHarvest s).error = none) :
    (planHarvest s).work.Fits (planeRegion s.csr) :=
  Work.region_fits _ _ (fun _ ha => mem_markedAddrs ha) rfl ((planHarvest_error_eq_none s).1 h).1

/-- A command whose checks pass writes only its write region of 20_memory R76, which is in range (R77). -/
theorem planOf_fits (i : Instr) (s : State) (h : (planOf i s).error = none) :
    (planOf i s).work.Fits (writeRegion s.csr i) := by
  cases i with
  | nop => exact Work.none_fits _ _ rfl rfl
  | palbuildDirect => exact palbuildPlan_fits _ _ _
  | palbuildAntic => exact palbuildPlan_fits _ _ _
  | palbuildGtia9 => exact palbuildPlan_fits _ _ _
  | palbuildGtia11 => exact palbuildPlan_fits _ _ _
  | renderBplLe n => exact planesPlan_fits _ _ _ h
  | renderBplBe n => exact planesPlan_fits _ _ _ h
  | renderBplIlLe n => exact planesPlan_fits _ _ _ h
  | renderBplIlBe n => exact planesPlan_fits _ _ _ h
  | bakeGr0 => exact bakePlan_fits _ _ h
  | bakeAntic4 => exact bakePlan_fits _ _ h
  | bakeGr12Upper => exact bakePlan_fits _ _ h
  | bakeGr12Lower => exact bakePlan_fits _ _ h
  | bakeApple => exact bakePlan_fits _ _ h
  | frender => exact planFrender_fits _ h
  | iscale sh sw => exact scalerPlan_fits _ _ _ h
  | iwscale sw => exact scalerPlan_fits _ _ _ h
  | harvest => exact planHarvest_fits _ h
  | _ => exact renderPlan_fits _ _ h

/-! ### The end of a command -/

/-- A command always ends, in a next state: with its check error or with its work done (60_exceptions R211). -/
theorem exec_cases (i : Instr) (s : State) :
    (∃ e, (planOf i s).error = some e ∧ exec i s = .next (takeError e none (acceptanceEffect i s))) ∨
    ((planOf i s).error = none ∧ exec i s = .next ((planOf i s).work.complete (acceptanceEffect i s))) := by
  rw [exec_eq_runPlan]
  exact runPlan_cases _ _

/-- A command without a check error writes no CSR through the aperture unless its write region meets it. -/
theorem writesCsrs_off_aperture {i : Instr} {s : State} (h : (planOf i s).error = none)
    (ha : ∀ a, (writeRegion s.csr i).has a = true → s.inAperture a = false) :
    (planOf i s).work.writesCsrs s = false := by
  refine Work.writesCsrs_eq_false fun a hw => ha a ?_
  have hf := planOf_fits i s h
  have hin := hf.writes a hw
  rw [Region.has_iff] at hin
  by_contra hc
  have := hf.sub a (by simpa using hc)
  omega

end Sys2Proof.Machine
end

