-- ==== Sys2Proof/Laws/Checks.lean ====
section
/-! SUPPORT. The checks of every command, in the order of 60_exceptions R214, read off the table of its regions
(20_memory R76): the one lemma `planOf_error` says which error a command ends with before it does any work. -/

namespace Sys2Proof.Machine

/-- The checks in their order of priority (60_exceptions R212, R214). -/
def commandChecks (c : Csrs) (i : Instr) : List (Bool × ErrCode) :=
  [(scaleFails c i, .scale), (geometryFails c i, .geometry), (noFontFails c i, .noFont), (rangeFails c i, .range),
    (overlapFails c i, .overlap)]

theorem byte_toNat_eq_zero (b : Byte) : (b.toNat = 0) = (b = 0) := by
  apply propext
  rw [← BitVec.toNat_inj]
  simp

theorem byte_toNat_eq_one (b : Byte) : (b.toNat = 1) = (b = 1) := by
  apply propext
  rw [← BitVec.toNat_inj]
  simp

theorem render_checks (i : Instr) (m : RenderMode) (s : State)
    (h1 : scaleFails s.csr i = (decide (s.csr.scaleW = 0) || decide (s.csr.scaleH = 0)))
    (h2 : geometryFails s.csr i = !m.geometryOk)
    (h3 : i ≠ .frender) (h4 : writeRegion s.csr i = renderOut s.csr m.width)
    (h5 : readRegions s.csr i = [dataRegion s.csr, styleRegion s.csr]) (h6 : scalerIdentity s.csr i = false)
    (h7 : i ≠ .harvest) :
    (renderPlan m s).error = firstError (commandChecks s.csr i) := by
  have : (renderPlan m s).error = firstError
      [ (decide (s.csr.scaleW.toNat = 0) || decide (s.csr.scaleH.toNat = 0), .scale),
        (!m.geometryOk, .geometry),
        (!(dataRegion s.csr).inRange || !(styleRegion s.csr).inRange || !(renderOut s.csr m.width).inRange, .range),
        ((renderOut s.csr m.width).overlaps (dataRegion s.csr) ||
          (renderOut s.csr m.width).overlaps (styleRegion s.csr), .overlap) ] := rfl
  rw [this]
  unfold commandChecks noFontFails rangeFails overlapFails checkedReads
  rw [h1, h2, h4, h5, h6, if_neg h7]
  simp only [byte_toNat_eq_zero, h3, decide_false, Bool.false_and, firstError_cons, List.any_cons, List.any_nil,
    Bool.not_false, Bool.true_and, Bool.or_false]
  rw [show (!(renderOut s.csr m.width).inRange || (!(dataRegion s.csr).inRange || !(styleRegion s.csr).inRange)) =
      (!(dataRegion s.csr).inRange || !(styleRegion s.csr).inRange || !(renderOut s.csr m.width).inRange) by
    cases (renderOut s.csr m.width).inRange <;> cases (dataRegion s.csr).inRange <;>
      cases (styleRegion s.csr).inRange <;> rfl]
  simp

theorem planes_checks (i : Instr) (n : Byte) (hn : legalPlanes n = true) (m : RenderMode) (s : State)
    (h1 : scaleFails s.csr i = (decide (s.csr.scaleW = 0) || decide (s.csr.scaleH = 0)))
    (h2 : geometryFails s.csr i = !m.geometryOk)
    (h3 : i ≠ .frender) (h4 : writeRegion s.csr i = renderOut s.csr m.width)
    (h5 : readRegions s.csr i = [dataRegion s.csr, styleRegion s.csr]) (h6 : scalerIdentity s.csr i = false)
    (h7 : i ≠ .harvest) :
    (planesPlan n m s).error = firstError (commandChecks s.csr i) := by
  unfold planesPlan
  rw [if_pos hn]
  exact render_checks i m s h1 h2 h3 h4 h5 h6 h7

theorem bake_checks (i : Instr) (m : BakeMode) (s : State)
    (h1 : scaleFails s.csr i = false)
    (h2 : geometryFails s.csr i = false)
    (h3 : i ≠ .frender) (h4 : writeRegion s.csr i = bakedRegion s.csr (cellWidth m.cell7))
    (h5 : readRegions s.csr i = [blobRegion s.csr m.glyphs]) (h6 : scalerIdentity s.csr i = false)
    (h7 : i ≠ .harvest) :
    (bakePlan m s).error = firstError (commandChecks s.csr i) := by
  have : (bakePlan m s).error = firstError
      [ (!(blobRegion s.csr m.glyphs).inRange || !(bakedRegion s.csr (cellWidth m.cell7)).inRange, .range),
        ((bakedRegion s.csr (cellWidth m.cell7)).overlaps (blobRegion s.csr m.glyphs), .overlap) ] := rfl
  rw [this]
  unfold commandChecks noFontFails rangeFails overlapFails checkedReads
  rw [h1, h2, h4, h5, h6, if_neg h7]
  simp only [h3, decide_false, Bool.false_and, firstError_cons, List.any_cons, List.any_nil, Bool.not_false,
    Bool.true_and, Bool.or_false]
  rw [Bool.or_comm]
  simp

theorem scaler_checks (i : Instr) (sh sw : Nat) (s : State)
    (h1 : scaleFails s.csr i = (decide (sh = 0) || decide (sw = 0)))
    (h2 : geometryFails s.csr i = false)
    (h3 : i ≠ .frender) (h4 : writeRegion s.csr i = scalerOut s.csr sh sw)
    (h5 : readRegions s.csr i = [sourceRegion s.csr])
    (h6 : scalerIdentity s.csr i =
      (decide (sh = 1) && decide (sw = 1) && decide (s.csr.outBase = s.csr.srcBase)))
    (h7 : i ≠ .harvest) :
    (scalerPlan sh sw s).error = firstError (commandChecks s.csr i) := by
  have : (scalerPlan sh sw s).error = firstError
      [ (decide (sh = 0) || decide (sw = 0), .scale),
        (!(sourceRegion s.csr).inRange || !(scalerOut s.csr sh sw).inRange, .range),
        (!(decide (sh = 1) && decide (sw = 1) && decide (s.csr.outBase = s.csr.srcBase))
          && (scalerOut s.csr sh sw).overlaps (sourceRegion s.csr), .overlap) ] := rfl
  rw [this]
  unfold commandChecks noFontFails rangeFails overlapFails checkedReads
  rw [h1, h2, h4, h5, h6, if_neg h7]
  simp only [h3, decide_false, Bool.false_and, firstError_cons, List.any_cons, List.any_nil, Bool.or_false]
  rw [Bool.or_comm (!(sourceRegion s.csr).inRange)]
  simp

theorem frender_checks (s : State) : (planFrender s).error = firstError (commandChecks s.csr .frender) := by
  have : (planFrender s).error = firstError
      [ (decide (s.csr.zoom = 0) || decide (s.csr.scaleH = 0) || decide (s.csr.scaleW = 0), .scale),
        (!s.csr.font.valid, .noFont),
        (!(dataRegion s.csr).inRange || !(styleRegion s.csr).inRange
          || !(bakedRegion s.csr (cellWidth s.csr.font.cw7)).inRange || !(frenderOut s.csr).inRange, .range),
        ((frenderOut s.csr).overlaps (dataRegion s.csr) || (frenderOut s.csr).overlaps (styleRegion s.csr)
          || (frenderOut s.csr).overlaps (bakedRegion s.csr (cellWidth s.csr.font.cw7)), .overlap) ] := rfl
  rw [this]
  unfold commandChecks noFontFails rangeFails overlapFails checkedReads
  have h4 : writeRegion s.csr .frender = frenderOut s.csr := rfl
  have h5 : readRegions s.csr .frender =
    [dataRegion s.csr, styleRegion s.csr, bakedRegion s.csr (cellWidth s.csr.font.cw7)] := rfl
  rw [h4, h5, if_neg (by decide)]
  simp only [scaleFails, geometryFails, scalerIdentity, decide_true, Bool.true_and, firstError_cons, List.any_cons,
    List.any_nil, Bool.not_false, Bool.or_false]
  rw [show (!(frenderOut s.csr).inRange || (!(dataRegion s.csr).inRange || (!(styleRegion s.csr).inRange ||
      !(bakedRegion s.csr (cellWidth s.csr.font.cw7)).inRange))) =
      (!(dataRegion s.csr).inRange || !(styleRegion s.csr).inRange
          || !(bakedRegion s.csr (cellWidth s.csr.font.cw7)).inRange || !(frenderOut s.csr).inRange) by
    cases (frenderOut s.csr).inRange <;> cases (dataRegion s.csr).inRange <;> cases (styleRegion s.csr).inRange <;>
      cases (bakedRegion s.csr (cellWidth s.csr.font.cw7)).inRange <;> rfl]
  simp [Bool.or_assoc]

theorem harvest_checks (s : State) : (planHarvest s).error = firstError (commandChecks s.csr .harvest) := by
  have : (planHarvest s).error = firstError
      [ (!(planeRegion s.csr).inRange || !(listRegion s.csr).inRange, .range),
        ((planeRegion s.csr).overlaps (listRegion s.csr), .overlap) ] := rfl
  rw [this]
  unfold commandChecks noFontFails rangeFails overlapFails checkedReads
  have h4 : writeRegion s.csr .harvest = planeRegion s.csr := rfl
  have h5 : readRegions s.csr .harvest = [planeRegion s.csr, listRegion s.csr] := rfl
  rw [h4, h5, if_pos rfl]
  simp only [scaleFails, geometryFails, scalerIdentity, firstError_cons, List.any_cons, List.any_nil, Bool.not_false,
    Bool.or_false, Bool.true_and]
  simp

/-- The error of a command whose immediates are legal is its first failing check (60_exceptions R214). -/
theorem planOf_error (i : Instr) (s : State) (h : i.wellFormed = true) :
    (planOf i s).error = firstError (commandChecks s.csr i) := by
  cases i with
  | nop => rfl
  | palbuildDirect => rfl
  | palbuildAntic => rfl
  | palbuildGtia9 => rfl
  | palbuildGtia11 => rfl
  | renderBplLe n =>
    refine planes_checks (.renderBplLe n) n h (modeBplLe n.toNat (bytesPerRow s)) s rfl ?_ (by simp) rfl rfl
      rfl (by simp)
    simp [geometryFails, modeBplLe, modePlanes, bytesPerRow]
    rfl
  | renderBplBe n =>
    refine planes_checks (.renderBplBe n) n h (modeBplBe n.toNat (bytesPerRow s)) s rfl ?_ (by simp) rfl rfl
      rfl (by simp)
    simp [geometryFails, modeBplBe, modePlanes, bytesPerRow]
    rfl
  | renderBplIlLe n =>
    refine planes_checks (.renderBplIlLe n) n h (modeBplIlLe n.toNat (bytesPerRow s)) s rfl ?_ (by simp) rfl rfl
      rfl (by simp)
    simp [geometryFails, modeBplIlLe, modePlanes, bytesPerRow]
    rfl
  | renderBplIlBe n =>
    refine planes_checks (.renderBplIlBe n) n h (modeBplIlBe n.toNat (bytesPerRow s)) s rfl ?_ (by simp) rfl rfl
      rfl (by simp)
    simp [geometryFails, modeBplIlBe, modePlanes, bytesPerRow]
    rfl
  | renderA2HiresScreen =>
    refine render_checks .renderA2HiresScreen (modeA2HiresScreen (bytesPerRow s) s.csr.numRows.toNat) s rfl ?_
      (by simp) rfl rfl rfl (by simp)
    have hr : decide (192 < s.csr.numRows.toNat) = !decide (s.csr.numRows.toNat ≤ 192) := by
      rw [← decide_not, decide_eq_decide]
      omega
    simp [geometryFails, modeA2HiresScreen, bytesPerRow, hr]
    rfl
  | bakeGr0 => exact bake_checks _ _ s rfl rfl (by simp) rfl rfl rfl (by simp)
  | bakeAntic4 => exact bake_checks _ _ s rfl rfl (by simp) rfl rfl rfl (by simp)
  | bakeGr12Upper => exact bake_checks _ _ s rfl rfl (by simp) rfl rfl rfl (by simp)
  | bakeGr12Lower => exact bake_checks _ _ s rfl rfl (by simp) rfl rfl rfl (by simp)
  | bakeApple => exact bake_checks _ _ s rfl rfl (by simp) rfl rfl rfl (by simp)
  | frender => exact frender_checks s
  | iscale sh sw =>
    exact scaler_checks (.iscale sh sw) sh.toNat sw.toNat s (by simp [scaleFails, byte_toNat_eq_zero]) rfl (by simp)
      rfl rfl (by simp [scalerIdentity, byte_toNat_eq_one]) (by simp)
  | iwscale sw =>
    exact scaler_checks (.iwscale sw) 1 sw.toNat s (by simp [scaleFails, byte_toNat_eq_zero]) rfl (by simp)
      rfl rfl (by simp [scalerIdentity, byte_toNat_eq_one]) (by simp)
  | harvest => exact harvest_checks s
  | _ => exact render_checks _ _ s rfl rfl (by simp) rfl rfl rfl (by simp)

/-- A failed check ends the command with its code and only its acceptance effect (60_exceptions R215). -/
theorem exec_error (i : Instr) (s : State) (e : ErrCode) (h : (planOf i s).error = some e) :
    exec i s = .next ((acceptanceEffect i s).failedWith e) := by
  rw [exec_eq_runPlan, runPlan_of_error h]; rfl

end Sys2Proof.Machine
end

