-- ==== Sys2Proof/Laws/HostPort.lean ====
section
/-! SUPPORT. The CSR map by offset (10_state R23), what a host access at each kind of offset does (R54..R58), and what
a step can do (70_reset R247). -/

namespace Sys2Proof.Machine

/-! ### The map -/

theorem csrAt_config (r : ConfigReg) : csrAt r.offset = .config r := by cases r <;> decide

theorem ConfigReg.offset_lt (r : ConfigReg) : r.offset < 0x400 := by cases r <;> decide

theorem ConfigReg.offset_toNat (r : ConfigReg) : (BitVec.ofNat 13 r.offset).toNat = r.offset := by cases r <;> rfl

theorem ConfigReg.offset_wordAccess (r : ConfigReg) : wordAccess (BitVec.ofNat 13 r.offset) .word = true := by
  cases r <;> decide

theorem ConfigReg.clearsFont_iff (r : ConfigReg) :
    r.clearsFont = true ↔ r ∈ [ConfigReg.palCtrl, .highlightBg, .matchBg, .commentBg, .background, .dataBg, .anticPm,
      .anticPf, .anticBk, .fontBase, .fontLen, .bakeBase, .fontCtrl] := by cases r <;> decide

/-- Past the single registers the map is the CREG window, the PS window, or a search of the configuration registers. -/
theorem csrAt_above {off : Nat} (h : 0x8C < off) : csrAt off =
    if 0x400 ≤ off ∧ off < 0x800 then .creg (BitVec.ofNat 8 ((off - 0x400) / 4))
    else if 0x800 ≤ off ∧ off < 0x1C00 then
      .ps (StyleClass.ofIndex ((off - 0x800) / 0x400)) (BitVec.ofNat 8 ((off - 0x800) % 0x400 / 4))
    else .reserved := by
  have hn : ConfigReg.all.find? (fun r => r.offset = off) = none := by
    rw [List.find?_eq_none]
    intro r _
    have : r.offset < 0x8C := by cases r <;> decide
    simp only [decide_eq_true_eq]
    omega
  unfold csrAt
  rw [hn]
  repeat rw [if_neg (by omega)]

theorem csrAt_creg (k : Byte) : csrAt (0x400 + 4 * k.toNat) = .creg k := by
  have hk := k.isLt
  rw [csrAt_above (by omega), if_pos (by omega)]
  congr 1
  apply BitVec.eq_of_toNat_eq
  simp

theorem csrAt_ps (c : StyleClass) (k : Byte) : csrAt (0x800 + 0x400 * c.index + 4 * k.toNat) = .ps c k := by
  have hk := k.isLt
  have hc := c.index_lt
  rw [csrAt_above (by omega), if_neg (by omega), if_pos (by omega)]
  congr 1
  · rw [show (0x800 + 0x400 * c.index + 4 * k.toNat - 0x800) / 0x400 = c.index by omega]
    exact c.ofIndex_index
  · apply BitVec.eq_of_toNat_eq
    simp
    omega

theorem csrAt_reserved {off : Nat} (h : (0x90 ≤ off ∧ off < 0x400) ∨ 0x1C00 ≤ off) : csrAt off = .reserved := by
  rw [csrAt_above (by omega), if_neg (by omega), if_neg (by omega)]

theorem csrAt_psWindow {off : Nat} (h : 0x800 ≤ off ∧ off < 0x1C00) : ∃ c k, csrAt off = .ps c k := by
  rw [csrAt_above (by omega), if_neg (by omega), if_pos h]
  exact ⟨_, _, rfl⟩

theorem csrAt_cregWindow {off : Nat} (h : 0x400 ≤ off ∧ off < 0x800) : ∃ k, csrAt off = .creg k := by
  rw [csrAt_above (by omega), if_pos h]
  exact ⟨_, rfl⟩

/-- The aligned offsets 0x020..0x088 are the configuration registers. -/
theorem csrAt_configWindow {off : Nat} (h : 0x20 ≤ off ∧ off ≤ 0x88) (h4 : off % 4 = 0) :
    ∃ r, csrAt off = .config r := by
  have all : ∀ n : Fin 0x89, 0x20 ≤ n.val → n.val % 4 = 0 →
      (match csrAt n.val with | .config _ => true | _ => false) = true := by decide
  have := all ⟨off, by omega⟩ h.1 h4
  simp only at this
  split at this
  · exact ⟨_, ‹_›⟩
  · cases this

/-! ### Accesses -/

theorem hostAct_writeCsr {off : BitVec 13} (h : off.toNat % 4 = 0) (v : Word) (s : State) :
    hostAct (.writeCsr off .word v) s = writeCsr (csrAt off.toNat) v s := by
  have : wordAccess off .word = true := by simp [wordAccess, h]
  simp [hostAct, this]

theorem hostAct_readCsr {off : BitVec 13} (h : off.toNat % 4 = 0) (s : State) :
    hostAct (.readCsr off .word) s = { s with readData := readCsr (csrAt off.toNat) s, draws := s.draws + 1 } := by
  have : wordAccess off .word = true := by simp [wordAccess, h]
  simp [hostAct, this]

theorem hostAct_writeConfig (r : ConfigReg) (v : Word) (s : State) :
    hostAct (.writeCsr (BitVec.ofNat 13 r.offset) .word v) s = whenIdle (acceptConfig r v) s := by
  simp only [hostAct, r.offset_wordAccess, if_true, r.offset_toNat, csrAt_config]
  rfl

theorem hostAct_writeCreg (k : Byte) (v : Word) (s : State) :
    hostAct (.writeCsr (BitVec.ofNat 13 (0x400 + 4 * k.toNat)) .word v) s = whenIdle (acceptCreg k v) s := by
  have hk := k.isLt
  have ho : (BitVec.ofNat 13 (0x400 + 4 * k.toNat)).toNat = 0x400 + 4 * k.toNat := by
    rw [BitVec.toNat_ofNat]
    omega
  rw [hostAct_writeCsr (by rw [ho]; omega), ho, csrAt_creg]
  rfl

theorem whenIdle_of_idle {s : State} (h : s.phase = .idle) (f : State → State) : whenIdle f s = f s := by
  simp [whenIdle, h]

theorem whenIdle_of_run {s : State} (h : s.phase = .run) (f : State → State) : whenIdle f s = setWign s := by
  simp [whenIdle, h]

/-! ### Memory accesses during a command -/

/-- The running command has its work exactly when its word is a command and its checks pass (60_exceptions R214). -/
theorem runningWork_eq {s : State} {i : Instr} (h : decode s.csr.lastCmd = .ok i) :
    runningWork s = if (planOf i s).error = none then some (planOf i s).work else none := by
  unfold runningWork
  rw [h]
  simp only
  cases (planOf i s).error <;> simp

/-- Everything a host write of a memory byte does while a command does its work (20_memory R86, 70_reset R240). -/
theorem hostWriteByte_running {s : State} {w : Work} (hp : s.phase = .run) (hw : runningWork s = some w) {a : Nat}
    (ha : s.inAperture a = false) (v : Byte) :
    hostWriteByte s a v = { s with
      mem := s.mem.write a (if w.out.has a then Config.freeByte s.draws a else v)
      inTouched := if w.readRegions.any (·.has a) then (a, s.mem.read a) :: s.inTouched else s.inTouched
      outTouched := if w.out.has a then a :: s.outTouched else s.outTouched
      draws := s.draws + 1 } := by
  simp [hostWriteByte, ha, hp, hw]

/-! ### Steps -/

/-- What a step can do: the host's next action, a decode error's end, or the accepted command (70_reset R247). -/
theorem step_cases (s : State) :
    ((s.phase = .idle ∨ hostActsFirst s = true) ∧ step s = .next (hostStep s)) ∨
    (s.phase = .run ∧ hostActsFirst s = false ∧
      ((∃ e, decode s.csr.lastCmd = .error e ∧ step s = .next (takeError (decodeErrorCode e) none s)) ∨
       ∃ i, decode s.csr.lastCmd = .ok i ∧ step s = exec i s)) := by
  unfold step runCommand
  cases hp : s.phase with
  | idle => exact .inl ⟨.inl rfl, rfl⟩
  | run =>
    cases hf : hostActsFirst s with
    | true => exact .inl ⟨.inr rfl, by simp⟩
    | false =>
      refine .inr ⟨rfl, rfl, ?_⟩
      cases hd : decode s.csr.lastCmd with
      | error e => exact .inl ⟨e, rfl, by simp⟩
      | ok i => exact .inr ⟨i, rfl, by simp⟩

end Sys2Proof.Machine
end

