-- ==== Sys2Proof/Laws/Work.lean ====
section
/-! SUPPORT. The work of every command against the tables of the spec: it reads only its read regions and writes only its
write region (20_memory R76), and which tables it sets (41_palette R132, 42_font_baker R148, 46_jumpman R207). -/

namespace Sys2Proof.Machine

/-- The work of command i in state s keeps to the tables of 20_memory R76 and 41_palette R132. -/
structure KeepsTo (w : Work) (i : Instr) (s : State) : Prop where
  reads : ∀ a ∈ w.reads, ∃ r ∈ readRegions s.csr i, r.has a = true
  writes : ∀ a ∈ w.writes, (writeRegion s.csr i).has a = true
  ps : w.ps = (paletteSourceOf i).map (buildPalettes s)
  font : i ∉ [Instr.bakeGr0, .bakeAntic4, .bakeGr12Upper, .bakeGr12Lower, .bakeApple] → w.font = none
  hits : i ≠ .harvest → w.hits = none

theorem renderPlan_keepsTo {i : Instr} {m : RenderMode} {s : State}
    (hr : readRegions s.csr i = [dataRegion s.csr, styleRegion s.csr]) (hw : writeRegion s.csr i = renderOut s.csr m.width)
    (hp : paletteSourceOf i = some m.source) : KeepsTo (renderPlan m s).work i s where
  reads := by
    intro a ha
    obtain ⟨q, _, ha⟩ := List.mem_flatMap.1 ha
    rw [hr]
    rcases mem_pixelReads ha with ha | ha
    · exact ⟨_, List.mem_cons_self, ha⟩
    · exact ⟨_, List.mem_cons_of_mem _ List.mem_cons_self, ha⟩
  writes := fun a ha => hw ▸ (Region.mem_addrs _ _).1 ha
  ps := by rw [hp]; rfl
  font := fun _ => rfl
  hits := fun _ => rfl

theorem planesPlan_keepsTo {i : Instr} {n : Byte} {m : RenderMode} {s : State} (h : (planesPlan n m s).error = none)
    (hr : readRegions s.csr i = [dataRegion s.csr, styleRegion s.csr]) (hw : writeRegion s.csr i = renderOut s.csr m.width)
    (hp : paletteSourceOf i = some m.source) : KeepsTo (planesPlan n m s).work i s := by
  rw [(planesPlan_error h).2]
  exact renderPlan_keepsTo hr hw hp

theorem bakePlan_keepsTo {i : Instr} {m : BakeMode} {s : State} (hr : readRegions s.csr i = [blobRegion s.csr m.glyphs])
    (hw : writeRegion s.csr i = bakedRegion s.csr (cellWidth m.cell7)) (hp : paletteSourceOf i = some m.source)
    (hb : i ∈ [Instr.bakeGr0, .bakeAntic4, .bakeGr12Upper, .bakeGr12Lower, .bakeApple]) :
    KeepsTo (bakePlan m s).work i s where
  reads := by
    intro a ha
    rw [hr]
    refine ⟨_, List.mem_cons_self, mem_blobReads (m := m) (c := s.csr) ?_⟩
    simpa only [bakePlan] using ha
  writes := by
    intro a ha
    rw [hw]
    refine (Region.mem_addrs _ _).1 ?_
    simpa only [bakePlan] using ha
  ps := by rw [hp]; rfl
  font := fun h => absurd hb h
  hits := fun _ => rfl

theorem scalerPlan_keepsTo {i : Instr} {sh sw : Nat} {s : State} (hr : readRegions s.csr i = [sourceRegion s.csr])
    (hw : writeRegion s.csr i = scalerOut s.csr sh sw) (hp : paletteSourceOf i = none) :
    KeepsTo (scalerPlan sh sw s).work i s := by
  cases hid : decide (sh = 1) && decide (sw = 1) && decide (s.csr.outBase = s.csr.srcBase) with
  | true => constructor <;> simp [scalerPlan, hid, Work.none, hp]
  | false =>
    constructor
    · intro a ha
      rw [hr]
      exact ⟨_, List.mem_cons_self, (Region.mem_addrs _ _).1 (by simpa [scalerPlan, hid] using ha)⟩
    · intro a ha
      rw [hw]
      exact (Region.mem_addrs _ _).1 (by simpa [scalerPlan, hid, scalerOut] using ha)
    all_goals simp [scalerPlan, hid, Work.none, hp]

theorem planFrender_keepsTo (s : State) : KeepsTo (planFrender s).work .frender s where
  reads := by
    intro a ha
    obtain ⟨q, _, ha⟩ := List.mem_flatMap.1 ha
    show ∃ r ∈ [dataRegion s.csr, styleRegion s.csr, bakedRegion s.csr (cellWidth s.csr.font.cw7)], _
    rcases mem_fontPixelReads ha with ha | ha | ha
    · exact ⟨_, by simp, ha⟩
    · exact ⟨_, by simp, ha⟩
    · exact ⟨_, by simp, ha⟩
  writes := fun _ ha => (Region.mem_addrs _ _).1 ha
  ps := rfl
  font := fun _ => rfl
  hits := fun _ => rfl

theorem planHarvest_keepsTo (s : State) : KeepsTo (planHarvest s).work .harvest s where
  reads := by
    intro a ha
    show ∃ r ∈ [planeRegion s.csr, listRegion s.csr], _
    rcases List.mem_append.1 ha with ha | ha
    · obtain ⟨n, hn, ha⟩ := List.mem_flatMap.1 ha
      exact ⟨_, by simp, mem_peanutAddrs (List.mem_range.1 hn) ha⟩
    · exact ⟨_, by simp, mem_markedAddrs ha⟩
  writes := fun _ ha => mem_markedAddrs ha
  ps := rfl
  font := fun _ => rfl
  hits := fun h => absurd rfl h

theorem noWork_keepsTo {i : Instr} {w : Work} {s : State} (hr : w.reads = []) (hw : w.writes = [])
    (hp : w.ps = (paletteSourceOf i).map (buildPalettes s)) (hf : w.font = none) (hh : w.hits = none) :
    KeepsTo w i s where
  reads := by simp [hr]
  writes := by simp [hw]
  ps := hp
  font := fun _ => hf
  hits := fun _ => hh

/-- A command whose checks pass accesses only its regions and sets only its tables (20_memory R76, 41_palette R132). -/
theorem planOf_keepsTo (i : Instr) (s : State) (h : (planOf i s).error = none) : KeepsTo (planOf i s).work i s := by
  cases i with
  | nop => exact noWork_keepsTo rfl rfl rfl rfl rfl
  | palbuildDirect => exact noWork_keepsTo rfl rfl rfl rfl rfl
  | palbuildAntic => exact noWork_keepsTo rfl rfl rfl rfl rfl
  | palbuildGtia9 => exact noWork_keepsTo rfl rfl rfl rfl rfl
  | palbuildGtia11 => exact noWork_keepsTo rfl rfl rfl rfl rfl
  | renderBplLe n => exact planesPlan_keepsTo (i := .renderBplLe n) h rfl rfl rfl
  | renderBplBe n => exact planesPlan_keepsTo (i := .renderBplBe n) h rfl rfl rfl
  | renderBplIlLe n => exact planesPlan_keepsTo (i := .renderBplIlLe n) h rfl rfl rfl
  | renderBplIlBe n => exact planesPlan_keepsTo (i := .renderBplIlBe n) h rfl rfl rfl
  | bakeGr0 => exact bakePlan_keepsTo rfl rfl rfl (by simp)
  | bakeAntic4 => exact bakePlan_keepsTo rfl rfl rfl (by simp)
  | bakeGr12Upper => exact bakePlan_keepsTo rfl rfl rfl (by simp)
  | bakeGr12Lower => exact bakePlan_keepsTo rfl rfl rfl (by simp)
  | bakeApple => exact bakePlan_keepsTo rfl rfl rfl (by simp)
  | frender => exact planFrender_keepsTo s
  | iscale sh sw => exact scalerPlan_keepsTo rfl rfl rfl
  | iwscale sw => exact scalerPlan_keepsTo rfl rfl rfl
  | harvest => exact planHarvest_keepsTo s
  | _ => exact renderPlan_keepsTo rfl rfl rfl

/-- A failing access of a command is one of its addresses that fail (60_exceptions R216). -/
theorem failsAt_of_failing {i : Instr} {s t : State} {a : Nat} (h : (planOf i s).error = none)
    (hp : t.platform = s.platform) (ha : a ∈ (planOf i s).work.failing t) : s.failsAt i a := by
  have k := planOf_keepsTo i s h
  rcases Work.mem_failing.1 ha with ⟨hr, hb⟩ | ⟨hw, hb⟩
  · obtain ⟨r, hm, hh⟩ := k.reads a hr
    exact .inr ⟨r, hm, hh, by rw [← hb]; exact State.busError_congr hp.symm _ _⟩
  · exact .inl ⟨k.writes a hw, by rw [← hb]; exact State.busError_congr hp.symm _ _⟩

/-- The bytes a command leaves do not depend on its own acceptance effect. -/
theorem finalByte_acceptanceEffect (w : Work) (i : Instr) (s : State) (b : Bool) :
    w.finalByte (acceptanceEffect i s) b = w.finalByte s b := by cases i <;> rfl

theorem writesCsrs_acceptanceEffect (w : Work) (i : Instr) (s : State) :
    w.writesCsrs (acceptanceEffect i s) = w.writesCsrs s := by cases i <;> rfl

theorem pendingByte_acceptanceEffect (w : Work) (i : Instr) (s : State) :
    w.pendingByte (acceptanceEffect i s) = w.pendingByte s := by cases i <;> rfl

theorem failing_acceptanceEffect (w : Work) (i : Instr) (s : State) : w.failing (acceptanceEffect i s) = w.failing s := by
  cases i <;> rfl

end Sys2Proof.Machine
end

