-- ==== Sys2Proof/Laws/Locality.lean ====
section
/-! SUPPORT. The work of a command depends on memory only through the command's read regions (20_memory R76). -/

namespace Sys2Proof.Machine

/-- Two states that one command cannot tell apart: the same CSRs, CREG and platform, and the same engine reads and bytes
in the given regions. -/
structure AgreeOn (s t : State) (rs : List Region) : Prop where
  csr : t.csr = s.csr
  creg : t.creg = s.creg
  platform : t.platform = s.platform
  read : ∀ r ∈ rs, ∀ a, r.has a = true → ∀ occ, t.engineRead occ a = s.engineRead occ a
  mem : ∀ r ∈ rs, ∀ a, r.has a = true → t.mem.read a = s.mem.read a

/-- States that differ in memory alone, and not in the given regions, agree. -/
theorem AgreeOn.of_mem {s : State} {m : Memory} {rs : List Region}
    (h : ∀ r ∈ rs, ∀ a, r.has a = true → m.read a = s.mem.read a) : AgreeOn s { s with mem := m } rs where
  csr := rfl
  creg := rfl
  platform := rfl
  read := by
    intro r hr a ha occ
    show (if s.inAperture a then _ else match s.heldBefore a with | [] => m.read a | old => _) = _
    rw [h r hr a ha]
    rfl
  mem := h

/-- States that differ only in the model's bookkeeping, and in memory outside the given regions, agree on regions that lie
off the aperture and that the host has kept off. -/
theorem AgreeOn.of_quiet {s t : State} {rs : List Region} (hc : t.csr = s.csr) (hg : t.creg = s.creg)
    (hp : t.platform = s.platform) (ha : ∀ r ∈ rs, ∀ a, r.has a = true → s.inAperture a = false)
    (hs : ∀ r ∈ rs, ∀ a, r.has a = true → s.heldBefore a = [] ∧ t.heldBefore a = [])
    (hm : ∀ r ∈ rs, ∀ a, r.has a = true → t.mem.read a = s.mem.read a) : AgreeOn s t rs where
  csr := hc
  creg := hg
  platform := hp
  read := by
    intro r hr a h occ
    have hi := ha r hr a h
    have hi' : t.inAperture a = false := (State.inAperture_congr hp a).trans hi
    unfold State.engineRead
    rw [if_neg (by simp [hi']), if_neg (by simp [hi]), (hs r hr a h).1, (hs r hr a h).2]
    exact hm r hr a h
  mem := hm

theorem AgreeOn.busError {s t : State} {rs : List Region} (h : AgreeOn s t rs) (d : Dir) : t.busError d = s.busError d :=
  funext fun a => State.busError_congr h.platform d a

theorem AgreeOn.inAperture {s t : State} {rs : List Region} (h : AgreeOn s t rs) : t.inAperture = s.inAperture :=
  funext fun a => State.inAperture_congr h.platform a

/-- An engine read in an agreed region gives the same byte. -/
theorem AgreeOn.engineRead {s t : State} {rs : List Region} (h : AgreeOn s t rs) {r : Region} (hr : r ∈ rs) {a : Nat}
    (ha : r.has a = true) (occ : Nat) : t.engineRead occ a = s.engineRead occ a := h.read r hr a ha occ

theorem AgreeOn.dataByte {s t : State} {rs : List Region} (h : AgreeOn s t rs) (hr : dataRegion s.csr ∈ rs) (occ i : Nat) :
    dataByte t occ i = dataByte s occ i := by
  unfold Sys2Proof.Machine.dataByte
  rw [h.csr]
  split
  · rename_i hi
    refine h.engineRead hr ?_ occ
    rw [Region.has_iff]
    simp only [dataRegion]
    omega
  · rfl

theorem AgreeOn.styleByte {s t : State} {rs : List Region} (h : AgreeOn s t rs) (hr : styleRegion s.csr ∈ rs)
    (occ i : Nat) : styleByte t occ i = styleByte s occ i := by
  unfold Sys2Proof.Machine.styleByte
  rw [h.csr]
  split
  · rename_i hi
    refine h.engineRead hr ?_ occ
    rw [Region.has_iff]
    simp only [styleRegion]
    omega
  · rfl

theorem AgreeOn.buildPalettes {s t : State} {rs : List Region} (h : AgreeOn s t rs) (src : PaletteSource) :
    buildPalettes t src = buildPalettes s src := by
  have hstd : ∀ k, standardColour t k = standardColour s k := fun k => by
    simp only [standardColour, h.csr, h.platform]
  have hsrc : ∀ k, sourceColour t src k = sourceColour s src k := fun k => by
    cases src <;> simp only [sourceColour, h.csr, h.creg, hstd]
  simp only [Sys2Proof.Machine.buildPalettes, h.csr, hsrc]

/-- What two plans of one command share when only memory outside the read regions differs. -/
structure SamePlan (p q : Plan) : Prop where
  error : p.error = q.error
  reads : p.work.reads = q.work.reads
  writes : p.work.writes = q.work.writes
  out : p.work.out = q.work.out
  byteAt : ∀ k, k < q.work.out.len → p.work.byteAt k = q.work.byteAt k
  ps : p.work.ps = q.work.ps
  font : p.work.font = q.work.font
  hits : p.work.hits = q.work.hits

theorem SamePlan.refl (p : Plan) : SamePlan p p := ⟨rfl, rfl, rfl, rfl, fun _ _ => rfl, rfl, rfl, rfl⟩

theorem renderPlan_same {s t : State} {rs : List Region} (m : RenderMode) (h : AgreeOn s t rs)
    (hd : dataRegion s.csr ∈ rs) (hs : styleRegion s.csr ∈ rs) : SamePlan (renderPlan m t) (renderPlan m s) := by
  have hpix : ∀ p n occ y x, renderPixel m t p n occ y x = renderPixel m s p n occ y x := by
    intro p n occ y x
    have e1 : dataByte t (2 * occ) = dataByte s (2 * occ) := funext fun i => h.dataByte hd _ i
    have e2 : styleByte t (2 * occ + 1) = styleByte s (2 * occ + 1) := funext fun i => h.styleByte hs _ i
    unfold renderPixel
    rw [h.csr, e1, e2]
  constructor <;> simp only [renderPlan, h.csr, h.buildPalettes]
  intro k _
  simp only [imageByte, scaleImage, hpix]

theorem planesPlan_same {s t : State} {rs : List Region} (n : Byte) (m : RenderMode) (h : AgreeOn s t rs)
    (hd : dataRegion s.csr ∈ rs) (hs : styleRegion s.csr ∈ rs) : SamePlan (planesPlan n m t) (planesPlan n m s) := by
  unfold planesPlan
  split
  · exact renderPlan_same m h hd hs
  · exact SamePlan.refl _

theorem bakePlan_same {s t : State} {rs : List Region} (m : BakeMode) (h : AgreeOn s t rs)
    (hb : blobRegion s.csr m.glyphs ∈ rs) : SamePlan (bakePlan m t) (bakePlan m s) := by
  have hblob : ∀ occ i, blobByte t m.glyphs occ i = blobByte s m.glyphs occ i := by
    intro occ i
    unfold blobByte
    rw [h.csr]
    split
    · refine h.engineRead hb ?_ occ
      rw [Region.has_iff]
      simp only [blobRegion]
      omega
    · rfl
  constructor <;> simp only [bakePlan, h.csr, h.buildPalettes]
  intro k _
  simp only [bakedByte, bakePixel, hblob]

theorem scalerPlan_same {s t : State} {rs : List Region} (sh sw : Nat) (h : AgreeOn s t rs)
    (hs : sourceRegion s.csr ∈ rs) : SamePlan (scalerPlan sh sw t) (scalerPlan sh sw s) := by
  have hpix : ∀ occ y x, y < s.csr.srcH.toNat → x < s.csr.srcW.toNat → sourcePixel t occ y x = sourcePixel s occ y x := by
    intro occ y x hy hx
    have hin : ∀ ch, ch < 3 → (sourceRegion s.csr).has (s.csr.srcBase.toNat + 3 * (y * s.csr.srcW.toNat + x) + ch) = true := by
      intro ch hc
      rw [Region.has_iff]
      have := pixel_lt hy hx hc
      simp only [sourceRegion]
      omega
    simp only [sourcePixel, h.csr]
    rw [h.engineRead hs (by simpa using hin 0 (by omega)), h.engineRead hs (hin 1 (by omega)),
      h.engineRead hs (hin 2 (by omega))]
  cases hid : decide (sh = 1) && decide (sw = 1) && decide (s.csr.outBase = s.csr.srcBase) with
  | true => constructor <;> simp only [scalerPlan, h.csr, hid, if_true, implies_true]
  | false =>
    constructor <;> simp only [scalerPlan, h.csr, hid, if_false, Bool.false_eq_true]
    intro k hk
    simp only [outRegion] at hk
    have hw : 0 < s.csr.srcW.toNat * sw := by
      rcases Nat.eq_zero_or_pos (s.csr.srcW.toNat * sw) with h0 | h0
      · rw [h0] at hk; omega
      · exact h0
    have hk3 : k / 3 < s.csr.srcW.toNat * sw * (s.csr.srcH.toNat * sh) := by
      rw [Nat.mul_assoc] at hk
      omega
    have h1 : k / 3 / (s.csr.srcW.toNat * sw) < s.csr.srcH.toNat * sh := Nat.div_lt_of_lt_mul hk3
    have h2 : k / 3 % (s.csr.srcW.toNat * sw) < s.csr.srcW.toNat * sw := Nat.mod_lt _ hw
    simp only [imageByte, scaleImage]
    rw [hpix _ _ _ (Nat.div_lt_of_lt_mul (by rw [Nat.mul_comm sh]; exact h1))
      (Nat.div_lt_of_lt_mul (by rw [Nat.mul_comm sw]; exact h2))]

theorem planFrender_same {s t : State} {rs : List Region} (h : AgreeOn s t rs) (hd : dataRegion s.csr ∈ rs)
    (hs : styleRegion s.csr ∈ rs) (hb : bakedRegion s.csr (cellWidth s.csr.font.cw7) ∈ rs) :
    SamePlan (planFrender t) (planFrender s) := by
  have hcell : ∀ occ i, ¬ effectiveCount s.csr ≤ i → cellBytes t occ i = cellBytes s occ i := by
    intro occ i hi
    simp only [cellBytes, h.csr]
    rw [h.engineRead hd (cell_in_region _ hi), h.engineRead hs (cell_in_region _ hi)]
  have haddr : ∀ cw d u r x, glyphPixelAddr t cw d u r x = glyphPixelAddr s cw d u r x := by
    intro cw d u r x
    simp only [glyphPixelAddr, mapCharacter, h.csr, h.platform]
  have hpix : ∀ occ y x, fontPixel t (cellWidth s.csr.font.cw7) occ y x =
      fontPixel s (cellWidth s.csr.font.cw7) occ y x := by
    intro occ y x
    unfold fontPixel
    simp only [h.csr]
    split
    · rfl
    · rename_i hi
      have hin : ∀ ch, ch < 3 → ∀ d u, _ := fun ch hch d u =>
        fontPixel_in_baked s (cellWidth s.csr.font.cw7) d u (y % 8) (x % cellWidth s.csr.font.cw7) ch
          (Nat.mod_lt _ (by omega)) (Nat.mod_lt _ (cellWidth_pos _)) hch
      rw [hcell _ _ hi, haddr, h.engineRead hb (by simpa using hin 0 (by omega) _ _),
        h.engineRead hb (hin 1 (by omega) _ _), h.engineRead hb (hin 2 (by omega) _ _)]
  have hreads : ∀ occ y x, fontPixelReads t (cellWidth s.csr.font.cw7) occ y x =
      fontPixelReads s (cellWidth s.csr.font.cw7) occ y x := by
    intro occ y x
    unfold fontPixelReads
    simp only [h.csr, h.busError]
    split
    · rfl
    · rename_i hi
      rw [hcell _ _ hi, haddr]
  constructor <;> simp only [planFrender, h.csr, hreads]
  intro k _
  simp only [imageByte, scaleImage, hpix]

theorem planHarvest_same {s t : State} {rs : List Region} (h : AgreeOn s t rs) (hp : planeRegion s.csr ∈ rs)
    (hl : listRegion s.csr ∈ rs) : SamePlan (planHarvest t) (planHarvest s) := by
  have hrec : ∀ n, n < s.csr.jmCount.toNat → peanut t n = peanut s n := by
    intro n hn
    have hin : ∀ a ∈ peanutAddrs s.csr n, ∀ occ, t.engineRead occ a = s.engineRead occ a :=
      fun a ha occ => h.engineRead hl (mem_peanutAddrs hn ha) occ
    simp only [peanutAddrs, List.mem_cons, List.not_mem_nil, or_false, forall_eq_or_imp, forall_eq] at hin
    simp only [peanut, h.csr, hin]
  have hhit : hitRecords t = hitRecords s := by
    unfold hitRecords
    rw [h.csr]
    refine List.filter_congr fun n hn => ?_
    rw [hrec n (List.mem_range.1 hn)]
  have hlt : ∀ n ∈ hitRecords s, n < s.csr.jmCount.toNat := fun n hn => List.mem_range.1 (List.mem_filter.1 hn).1
  have hmark : markedAddrs t = markedAddrs s := by
    unfold markedAddrs markingRecords
    rw [hhit, h.csr, h.busError]
    refine List.map_congr_left fun n hn => ?_
    rw [hrec n (hlt n (List.mem_filter.1 hn).1)]
  constructor <;> simp only [planHarvest, h.csr, hmark, hhit]
  intro k hk
  unfold harvestByte
  have hk' : (planeRegion s.csr).has (s.csr.styleBase.toNat + k) = true := by
    rw [Region.has_iff]
    exact ⟨Nat.le_add_right _ _, Nat.add_lt_add_left hk _⟩
  simp only [h.csr, hhit, h.mem _ hp _ hk']
  have : ((hitRecords s).any fun n => peanutOffset s.csr (peanut t n) == k) =
      (hitRecords s).any fun n => peanutOffset s.csr (peanut s n) == k := by
    rw [Bool.eq_iff_iff, List.any_eq_true, List.any_eq_true]
    exact exists_congr fun n => and_congr_right fun hn => by rw [hrec n (hlt n hn)]
  rw [this]

/-- The plan of a command depends on memory only through the command's read regions (20_memory R76). -/
theorem planOf_same {s t : State} (i : Instr) (h : AgreeOn s t (readRegions s.csr i)) :
    SamePlan (planOf i t) (planOf i s) := by
  have hb : bytesPerRow t = bytesPerRow s := by simp only [bytesPerRow, h.csr]
  cases i with
  | nop => exact SamePlan.refl _
  | palbuildDirect => constructor <;> simp [planOf, planPalbuildDirect, palbuildPlan, h.buildPalettes]
  | palbuildAntic => constructor <;> simp [planOf, planPalbuildAntic, palbuildPlan, h.buildPalettes]
  | palbuildGtia9 => constructor <;> simp [planOf, planPalbuildGtia9, palbuildPlan, h.buildPalettes]
  | palbuildGtia11 => constructor <;> simp [planOf, planPalbuildGtia11, palbuildPlan, h.buildPalettes]
  | frender => exact planFrender_same h (by simp [readRegions]) (by simp [readRegions]) (by simp [readRegions])
  | iscale sh sw => exact scalerPlan_same _ _ h (by simp [readRegions])
  | iwscale sw => exact scalerPlan_same _ _ h (by simp [readRegions])
  | harvest => exact planHarvest_same h (by simp [readRegions]) (by simp [readRegions])
  | bakeGr0 =>
    simp only [planOf, planBakeGr0, h.csr]
    exact bakePlan_same _ h (by simp [readRegions, modeBakeGr0])
  | bakeAntic4 =>
    simp only [planOf, planBakeAntic4, h.csr]
    exact bakePlan_same _ h (by simp [readRegions, modeBakeAntic4])
  | bakeGr12Upper =>
    simp only [planOf, planBakeGr12Upper, h.csr]
    exact bakePlan_same _ h (by simp [readRegions, modeBakeGr12Upper])
  | bakeGr12Lower =>
    simp only [planOf, planBakeGr12Lower, h.csr]
    exact bakePlan_same _ h (by simp [readRegions, modeBakeGr12Lower])
  | bakeApple =>
    simp only [planOf, planBakeApple, h.csr]
    exact bakePlan_same _ h (by simp [readRegions, modeBakeApple])
  | renderBplLe n =>
    simp only [planOf, planRenderBplLe, hb]
    exact planesPlan_same _ _ h (by simp [readRegions]) (by simp [readRegions])
  | renderBplBe n =>
    simp only [planOf, planRenderBplBe, hb]
    exact planesPlan_same _ _ h (by simp [readRegions]) (by simp [readRegions])
  | renderBplIlLe n =>
    simp only [planOf, planRenderBplIlLe, hb]
    exact planesPlan_same _ _ h (by simp [readRegions]) (by simp [readRegions])
  | renderBplIlBe n =>
    simp only [planOf, planRenderBplIlBe, hb]
    exact planesPlan_same _ _ h (by simp [readRegions]) (by simp [readRegions])
  | _ =>
    simp only [planOf, planRenderBw1, planRenderBpp2, planRenderBpp4, planRenderAnticB, planRenderAnticC,
      planRenderAnticD, planRenderAnticE, planRenderA2Hires, planRenderA2HiresScreen, planRenderA2Artifact,
      planRenderGtia9, planRenderGtia10, planRenderGtia11, planRenderJumpman, planRenderMemmap, planRenderHeatmap,
      hb, h.csr]
    exact renderPlan_same _ h (by simp [readRegions]) (by simp [readRegions])

end Sys2Proof.Machine
end

