-- ==== Sys2Proof/Laws/Accesses.lean ====
section
/-! SUPPORT. The accesses of every command against the rules: the work of a command whose checks pass has the regions of
20_memory R76, and accesses every byte that its rule accesses (60_exceptions R216). -/

namespace Sys2Proof.Machine

/-- The regions of a command's work are those of its table row (20_memory R76). -/
structure HasRegions (w : Work) (i : Instr) (s : State) : Prop where
  reads : w.readRegions = readRegions s.csr i
  out : w.out = writeRegion s.csr i
  writes : i ≠ .harvest → w.writes = w.out.addrs

theorem renderPlan_hasRegions {i : Instr} {m : RenderMode} {s : State}
    (hr : readRegions s.csr i = [dataRegion s.csr, styleRegion s.csr])
    (hw : writeRegion s.csr i = renderOut s.csr m.width) : HasRegions (renderPlan m s).work i s where
  reads := hr.symm
  out := hw.symm
  writes := fun _ => rfl

theorem planesPlan_hasRegions {i : Instr} {n : Byte} {m : RenderMode} {s : State} (h : (planesPlan n m s).error = none)
    (hr : readRegions s.csr i = [dataRegion s.csr, styleRegion s.csr])
    (hw : writeRegion s.csr i = renderOut s.csr m.width) : HasRegions (planesPlan n m s).work i s := by
  rw [(planesPlan_error h).2]
  exact renderPlan_hasRegions hr hw

theorem scalerPlan_hasRegions {i : Instr} {sh sw : Nat} {s : State} (hr : readRegions s.csr i = [sourceRegion s.csr])
    (hw : writeRegion s.csr i = scalerOut s.csr sh sw)
    (hid : (decide (sh = 1) && decide (sw = 1) && decide (s.csr.outBase = s.csr.srcBase)) = false) :
    HasRegions (scalerPlan sh sw s).work i s := by
  constructor
  · rw [hr]; simp [scalerPlan, hid]
  · rw [hw]; simp [scalerPlan, hid, scalerOut]
  · intro _; simp [scalerPlan, hid]

/-- Outside the identity case of the scaler, a command whose checks pass has the regions of its table row. -/
theorem planOf_hasRegions (i : Instr) (s : State) (h : (planOf i s).error = none) (hid : scalerIdentity s.csr i = false) :
    HasRegions (planOf i s).work i s := by
  cases i with
  | nop => exact ⟨rfl, rfl, fun _ => rfl⟩
  | palbuildDirect => exact ⟨rfl, rfl, fun _ => rfl⟩
  | palbuildAntic => exact ⟨rfl, rfl, fun _ => rfl⟩
  | palbuildGtia9 => exact ⟨rfl, rfl, fun _ => rfl⟩
  | palbuildGtia11 => exact ⟨rfl, rfl, fun _ => rfl⟩
  | renderBplLe n => exact planesPlan_hasRegions (i := .renderBplLe n) h rfl rfl
  | renderBplBe n => exact planesPlan_hasRegions (i := .renderBplBe n) h rfl rfl
  | renderBplIlLe n => exact planesPlan_hasRegions (i := .renderBplIlLe n) h rfl rfl
  | renderBplIlBe n => exact planesPlan_hasRegions (i := .renderBplIlBe n) h rfl rfl
  | bakeGr0 => exact ⟨rfl, rfl, fun _ => by simp only [planOf, planBakeGr0, bakePlan]⟩
  | bakeAntic4 => exact ⟨rfl, rfl, fun _ => by simp only [planOf, planBakeAntic4, bakePlan]⟩
  | bakeGr12Upper => exact ⟨rfl, rfl, fun _ => by simp only [planOf, planBakeGr12Upper, bakePlan]⟩
  | bakeGr12Lower => exact ⟨rfl, rfl, fun _ => by simp only [planOf, planBakeGr12Lower, bakePlan]⟩
  | bakeApple => exact ⟨rfl, rfl, fun _ => by simp only [planOf, planBakeApple, bakePlan]⟩
  | frender => exact ⟨rfl, rfl, fun _ => rfl⟩
  | iscale sh sw =>
    exact scalerPlan_hasRegions rfl rfl (by simpa [scalerIdentity, byte_toNat_eq_one] using hid)
  | iwscale sw =>
    exact scalerPlan_hasRegions rfl rfl (by simpa [scalerIdentity, byte_toNat_eq_one] using hid)
  | harvest => exact ⟨rfl, rfl, fun h => absurd rfl h⟩
  | _ => exact renderPlan_hasRegions rfl rfl

/-! ### Every byte that a rule reads is read -/

/-- The byte index k is a content byte at an address of the data or style buffer (43_bitmap_renderers R155). -/
def contentAt (c : Csrs) (k a : Nat) : Prop :=
  k < effectiveCount c ∧ (a = c.dataBase.toNat + k ∨ a = c.styleBase.toNat + k)

theorem renderPlan_reads {m : RenderMode} {s : State} {k a y x : Nat} (hc : contentAt s.csr k a)
    (hy : y < s.csr.numRows.toNat) (hx : x < m.width) (hd : k ∈ (m.unpack y x).dataIdx)
    (hs : k ∈ (m.unpack y x).styleIdx) : a ∈ (renderPlan m s).work.reads := by
  show a ∈ (List.range (s.csr.numRows.toNat * m.width)).flatMap _
  refine List.mem_flatMap.2 ⟨y * m.width + x, List.mem_range.2 ?_, ?_⟩
  · have := Nat.mul_le_mul_right m.width hy
    rw [Nat.succ_mul] at this
    omega
  · have h1 : (y * m.width + x) / m.width = y := by
      rw [Nat.mul_comm, Nat.mul_add_div (by omega), Nat.div_eq_of_lt hx, Nat.add_zero]
    have h2 : (y * m.width + x) % m.width = x := by rw [Nat.mul_comm, Nat.mul_add_mod, Nat.mod_eq_of_lt hx]
    simp only [h1, h2, pixelReads, guardedAddrs, List.mem_append, List.mem_map, List.mem_filter, decide_eq_true_eq]
    rcases hc.2 with rfl | rfl
    · exact .inl ⟨k, ⟨hd, hc.1⟩, rfl⟩
    · exact .inr ⟨k, ⟨hs, hc.1⟩, rfl⟩

/-- A byte of a row-by-row image is byte j of some row y. -/
theorem row_of_index {k bpr rows : Nat} (h : k < bpr * rows) : ∃ y j, y < rows ∧ j < bpr ∧ k = y * bpr + j := by
  have hb : 0 < bpr := Nat.pos_of_ne_zero fun h0 => by simp [h0] at h
  exact ⟨k / bpr, k % bpr, Nat.div_lt_of_lt_mul h, Nat.mod_lt _ hb, (Nat.div_add_mod' k bpr).symm⟩

/-- A renderer of `per` pixels a byte, each from its own byte, reads every content byte of its rows. -/
theorem renderPlan_reads_single {m : RenderMode} {s : State} {a : Nat} (per : Nat) (f : Nat → Byte → Byte) (hp : 0 < per)
    (hw : m.width = per * s.csr.bpr.toNat)
    (hu : ∀ y x, m.unpack y x = .single (y * s.csr.bpr.toNat + x / per) (f x))
    (h : ∃ k, k < s.csr.bpr.toNat * s.csr.numRows.toNat ∧ contentAt s.csr k a) : a ∈ (renderPlan m s).work.reads := by
  obtain ⟨k, hk, hc⟩ := h
  obtain ⟨y, j, hy, hj, rfl⟩ := row_of_index hk
  have hx : per * j / per = j := Nat.mul_div_cancel_left _ hp
  refine renderPlan_reads (y := y) (x := per * j) hc hy (by rw [hw]; exact Nat.mul_lt_mul_of_pos_left hj hp) ?_ ?_ <;>
    rw [hu, hx] <;> simp [Unpacked.single]

/-- A renderer of one pixel a byte reads every content byte of its rows. -/
theorem renderPlan_reads_byte {m : RenderMode} {s : State} {a : Nat} (hw : m.width = s.csr.bpr.toNat)
    (hu : ∀ y x, m.unpack y x = .single (y * s.csr.bpr.toNat + x) fun b => b)
    (h : ∃ k, k < s.csr.bpr.toNat * s.csr.numRows.toNat ∧ contentAt s.csr k a) : a ∈ (renderPlan m s).work.reads :=
  renderPlan_reads_single 1 (fun _ b => b) (by omega) (by rw [hw, Nat.one_mul])
    (fun y x => by rw [hu, Nat.div_one]) h

theorem renderPlan_reads_artifact {s : State} {k a : Nat} (hk : k < s.csr.bpr.toNat * s.csr.numRows.toNat)
    (hc : contentAt s.csr k a) : a ∈ (renderPlan (modeA2Artifact (bytesPerRow s)) s).work.reads := by
  obtain ⟨y, j, hy, hj, rfl⟩ := row_of_index hk
  have hx : 7 * j / 7 = j := Nat.mul_div_cancel_left _ (by omega)
  refine renderPlan_reads (y := y) (x := 7 * j) hc hy (Nat.mul_lt_mul_of_pos_left hj (by omega)) ?_ ?_
  · rw [show bytesPerRow s = s.csr.bpr.toNat from rfl]
    simp only [modeA2Artifact]
    by_cases h : 2 * (7 * j / 14) + 1 < s.csr.bpr.toNat
    · rw [if_pos h]
      simp only [List.mem_cons, List.not_mem_nil, or_false]
      omega
    · rw [if_neg h]
      simp only [List.mem_cons, List.not_mem_nil, or_false]
      omega
  · simp [modeA2Artifact, bytesPerRow, hx]

theorem renderPlan_reads_screen {s : State} {k a y j : Nat} (hb : s.csr.bpr.toNat = 40)
    (hy : y < s.csr.numRows.toNat) (hj : j < 40) (hk : k = 1024 * (y % 8) + 128 * (y / 8 % 8) + 40 * (y / 64) + j)
    (hc : contentAt s.csr k a) :
    a ∈ (renderPlan (modeA2HiresScreen (bytesPerRow s) s.csr.numRows.toNat) s).work.reads := by
  have hx : 7 * j / 7 = j := Nat.mul_div_cancel_left _ (by omega)
  have ho : screenRowOffset y + j = k := by
    simp only [screenRowOffset]
    omega
  refine renderPlan_reads (y := y) (x := 7 * j) hc hy ?_ ?_ ?_
  · simp only [modeA2HiresScreen, bytesPerRow]
    omega
  · simp [modeA2HiresScreen, Unpacked.single, hx, ho]
  · simp [modeA2HiresScreen, Unpacked.single, hx, ho]

/-- A bitplane renderer whose byte layout covers its rows reads every content byte of them. -/
theorem planesPlan_reads {n : Byte} {s : State} {k a : Nat} {f : (rs g p : Nat) → Nat} {w : Nat → Nat}
    (he : (planesPlan n (modePlanes n.toNat (bytesPerRow s) f w) s).error = none)
    (hn : 0 < n.toNat) (hdiv : s.csr.bpr.toNat % n.toNat = 0)
    (hf : ∀ rs j, j < s.csr.bpr.toNat → ∃ g p, g < s.csr.bpr.toNat / n.toNat ∧ p < n.toNat ∧ f rs g p = rs + j)
    (hk : k < s.csr.bpr.toNat * s.csr.numRows.toNat) (hc : contentAt s.csr k a) :
    a ∈ (planesPlan n (modePlanes n.toNat (bytesPerRow s) f w) s).work.reads := by
  rw [(planesPlan_error he).2]
  obtain ⟨y, j, hy, hj, rfl⟩ := row_of_index hk
  obtain ⟨g, p, hg, hp, hfe⟩ := hf (y * s.csr.bpr.toNat) j hj
  have hx : 8 * g / 8 = g := Nat.mul_div_cancel_left _ (by omega)
  have hm : y * s.csr.bpr.toNat + j ∈ (List.range n.toNat).map (f (y * bytesPerRow s) (8 * g / 8)) := by
    rw [hx]
    exact List.mem_map.2 ⟨p, List.mem_range.2 hp, hfe⟩
  refine renderPlan_reads (y := y) (x := 8 * g) hc hy ?_ hm hm
  simp only [modePlanes, bytesPerRow]
  rw [Nat.lt_div_iff_mul_lt hn, ← Nat.div_add_mod s.csr.bpr.toNat n.toNat, hdiv]
  have := Nat.mul_le_mul_left n.toNat hg
  rw [Nat.mul_succ] at this
  have e : 8 * g * n.toNat = 8 * (n.toNat * g) := by rw [Nat.mul_assoc, Nat.mul_comm g]
  rw [e]
  omega

/-- A BAKE reads the glyph bytes of its source glyphs (42_font_baker R139). -/
theorem bakePlan_reads {m : BakeMode} {s : State} {k a slot : Nat} (hs : slot < 256) (hg : m.glyphOf slot = k / 8)
    (hl : k < s.csr.fontLen.toNat) (hb : k < 8 * m.glyphs) (ha : a = s.csr.fontBase.toNat + k) :
    a ∈ (bakePlan m s).work.reads := by
  have : (bakePlan m s).work.reads = blobReads m s.csr := by simp only [bakePlan]
  rw [this, blobReads, List.mem_filterMap]
  refine ⟨8 * slot + k % 8, List.mem_range.2 (by omega), ?_⟩
  have h1 : (8 * slot + k % 8) / 8 = slot := by omega
  have h2 : 8 * (k / 8) + (8 * slot + k % 8) % 8 = k := by omega
  simp only [h1, hg, h2, blobLength]
  rw [if_pos (by omega), ha]

/-- Outside its identity case the scaler reads its whole source (40_utilities R117). -/
theorem scalerPlan_reads {sh sw : Nat} {s : State} {a : Nat}
    (hid : (decide (sh = 1) && decide (sw = 1) && decide (s.csr.outBase = s.csr.srcBase)) = false)
    (h : (sourceRegion s.csr).has a = true) : a ∈ (scalerPlan sh sw s).work.reads := by
  simpa [scalerPlan, hid] using (Region.mem_addrs _ _).2 h

/-- FRENDER reads both bytes of every content cell (44_font_renderer R190). -/
theorem planFrender_reads_at {s : State} {k a row col : Nat} (hz : s.csr.zoom ≠ 0) (hh : s.csr.scaleH ≠ 0)
    (hw : s.csr.scaleW ≠ 0) (hk : k < s.csr.bpr.toNat * s.csr.numRows.toNat) (hr : row < 8)
    (hc : col < cellWidth s.csr.font.cw7)
    (h : ∀ occ y x, y / 8 * s.csr.bpr.toNat + x / cellWidth s.csr.font.cw7 = k → y % 8 = row →
      x % cellWidth s.csr.font.cw7 = col → a ∈ fontPixelReads s (cellWidth s.csr.font.cw7) occ y x) :
    a ∈ (planFrender s).work.reads := by
  have pos : ∀ b : Byte, b ≠ 0 → 0 < b.toNat := fun b hb => Nat.pos_of_ne_zero fun h0 => hb (BitVec.eq_of_toNat_eq h0)
  obtain ⟨cy, cx, hy, hx, rfl⟩ := row_of_index hk
  have hcw := cellWidth_pos s.csr.font.cw7
  let sh := s.csr.zoom.toNat * s.csr.scaleH.toNat
  let sw := s.csr.zoom.toNat * s.csr.scaleW.toNat
  have hsh : 0 < sh := Nat.mul_pos (pos _ hz) (pos _ hh)
  have hsw : 0 < sw := Nat.mul_pos (pos _ hz) (pos _ hw)
  have hX : cx * cellWidth s.csr.font.cw7 + col < s.csr.bpr.toNat * cellWidth s.csr.font.cw7 := by
    have := Nat.mul_le_mul_right (cellWidth s.csr.font.cw7) hx
    rw [Nat.succ_mul] at this
    omega
  have hXw : (cx * cellWidth s.csr.font.cw7 + col) * sw < s.csr.bpr.toNat * cellWidth s.csr.font.cw7 * sw :=
    Nat.mul_lt_mul_of_pos_right hX hsw
  have hY : (cy * 8 + row) * sh < s.csr.numRows.toNat * 8 * sh := Nat.mul_lt_mul_of_pos_right (by omega) hsh
  show a ∈ (List.range (s.csr.bpr.toNat * cellWidth s.csr.font.cw7 * sw * (s.csr.numRows.toNat * 8 * sh))).flatMap _
  generalize hW : s.csr.bpr.toNat * cellWidth s.csr.font.cw7 * sw = W at hXw
  generalize hH : s.csr.numRows.toNat * 8 * sh = H at hY
  refine List.mem_flatMap.2
    ⟨(cy * 8 + row) * sh * W + (cx * cellWidth s.csr.font.cw7 + col) * sw, List.mem_range.2 ?_, ?_⟩
  · have := Nat.mul_le_mul_right W hY
    rw [Nat.succ_mul] at this
    rw [Nat.mul_comm W]
    omega
  · have h1 : ((cy * 8 + row) * sh * W + (cx * cellWidth s.csr.font.cw7 + col) * sw) / W = (cy * 8 + row) * sh := by
      rw [Nat.mul_comm _ W, Nat.mul_add_div (by omega), Nat.div_eq_of_lt hXw, Nat.add_zero]
    have h2 : ((cy * 8 + row) * sh * W + (cx * cellWidth s.csr.font.cw7 + col) * sw) % W =
        (cx * cellWidth s.csr.font.cw7 + col) * sw := by rw [Nat.mul_comm _ W, Nat.mul_add_mod, Nat.mod_eq_of_lt hXw]
    show a ∈ fontPixelReads s _ _ (_ / W / sh) (_ % W / sw)
    rw [h1, h2, Nat.mul_div_cancel _ hsh, Nat.mul_div_cancel _ hsw]
    refine h _ _ _ ?_ (by omega) ?_
    · rw [show (cy * 8 + row) / 8 = cy by omega, Nat.mul_comm cx, Nat.mul_add_div hcw, Nat.div_eq_of_lt hc, Nat.add_zero]
    · rw [Nat.mul_comm cx, Nat.mul_add_mod, Nat.mod_eq_of_lt hc]

theorem planFrender_reads_cell {s : State} {k a : Nat} (hz : s.csr.zoom ≠ 0) (hh : s.csr.scaleH ≠ 0)
    (hw : s.csr.scaleW ≠ 0) (hk : k < s.csr.bpr.toNat * s.csr.numRows.toNat) (hc : contentAt s.csr k a) :
    a ∈ (planFrender s).work.reads := by
  refine planFrender_reads_at hz hh hw hk (row := 0) (col := 0) (by omega) (cellWidth_pos _) fun occ y x he _ _ => ?_
  have hlt : ¬ effectiveCount s.csr ≤ k := Nat.not_le.2 hc.1
  unfold fontPixelReads
  simp only [he, hlt, if_false]
  split <;> rcases hc.2 with rfl | rfl <;> simp

theorem planFrender_reads_baked {s : State} {k a row col ch : Nat} (hz : s.csr.zoom ≠ 0) (hh : s.csr.scaleH ≠ 0)
    (hw : s.csr.scaleW ≠ 0) (hk : k < s.csr.bpr.toNat * s.csr.numRows.toNat) (hlt : k < effectiveCount s.csr)
    (hd : s.readable (dataRegion s.csr)) (hs : s.readable (styleRegion s.csr)) (hq : s.inTouched = [])
    (hr : row < 8) (hc : col < cellWidth s.csr.font.cw7) (hch : ch < 3)
    (ha : a = glyphPixelAddr s (cellWidth s.csr.font.cw7) (s.mem.read (s.csr.dataBase.toNat + k))
      (s.mem.read (s.csr.styleBase.toNat + k)) row col + ch) : a ∈ (planFrender s).work.reads := by
  refine planFrender_reads_at hz hh hw hk hr hc fun occ y x he hy hx => ?_
  have hn : ¬ effectiveCount s.csr ≤ k := Nat.not_le.2 hlt
  have d := hd _ (cell_in_region s.csr.dataBase.toNat hn)
  have t := hs _ (cell_in_region s.csr.styleBase.toNat hn)
  unfold fontPixelReads
  simp only [he, hn, if_false, hy, hx, d.1, t.1, Bool.or_self, Bool.false_eq_true, cellBytes]
  rw [State.engineRead_memory d.2 hq, State.engineRead_memory t.2 hq, ← Nat.add_zero (glyphPixelAddr _ _ _ _ _ _)]
  rw [ha]
  have : ch = 0 ∨ ch = 1 ∨ ch = 2 := by omega
  rcases this with rfl | rfl | rfl <;> simp

/-- A peanut record of a list that nothing disturbs is what memory holds (46_jumpman R206). -/
theorem peanut_quiet {s : State} (hl : s.readable (listRegion s.csr)) (hq : s.inTouched = []) {n : Nat}
    (hn : n < s.csr.jmCount.toNat) :
    peanut s n = { x := s.mem.read (peanutAddr s.csr n), y := s.mem.read (peanutAddr s.csr n + 1)
                   px := s.mem.read (peanutAddr s.csr n + 2), py := s.mem.read (peanutAddr s.csr n + 3) } := by
  have h : ∀ a ∈ peanutAddrs s.csr n, ∀ occ, s.engineRead occ a = s.mem.read a :=
    fun a ha occ => State.engineRead_memory (hl a (mem_peanutAddrs hn ha)).2 hq occ
  simp only [peanutAddrs, List.mem_cons, List.not_mem_nil, or_false, forall_eq_or_imp, forall_eq] at h
  unfold peanut
  rw [h.1, h.2.1, h.2.2.1, h.2.2.2]

theorem peanutHits_quiet {s : State} (hl : s.readable (listRegion s.csr)) (hq : s.inTouched = []) {n : Nat}
    (hn : n < s.csr.jmCount.toNat) : peanutHits s.csr (peanut s n) = s.marks n := by
  rw [peanut_quiet hl hq hn]
  rfl

/-- The marked records of a list that nothing disturbs (46_jumpman R205). -/
theorem hitRecords_quiet {s : State} (hl : s.readable (listRegion s.csr)) (hq : s.inTouched = []) :
    hitRecords s = (List.range s.csr.jmCount.toNat).filter s.marks := by
  unfold hitRecords
  exact List.filter_congr fun n hn => peanutHits_quiet hl hq (List.mem_range.1 hn)

/-- HARVEST's marking accesses, where nothing disturbs the list, are those that `marksAt` names (46_jumpman R205). -/
theorem mem_markedAddrs_of_marksAt {s : State} {a : Nat} (h : s.marksAt a) : a ∈ markedAddrs s := by
  obtain ⟨hl, hk, n, hn, hm, rfl⟩ := h
  refine List.mem_map.2 ⟨n, ?_, ?_⟩
  · rw [markingRecords, hitRecords_quiet hl hk.1]
    refine List.mem_filter.2 ⟨List.mem_filter.2 ⟨List.mem_range.2 hn, hm⟩, ?_⟩
    simp only [Bool.not_eq_true', List.any_eq_false]
    intro b hb
    simp [(hl b (mem_peanutAddrs hn hb)).1]
  · rw [peanut_quiet hl hk.1 hn]
    rfl

/-- Every byte of the list is read (46_jumpman R205). -/
theorem planHarvest_reads_list {s : State} {a : Nat} (h : (listRegion s.csr).has a = true) :
    a ∈ (planHarvest s).work.reads := by
  rw [Region.has_iff] at h
  simp only [listRegion] at h
  refine List.mem_append_left _ (List.mem_flatMap.2 ⟨(a - s.csr.jmList.toNat) / 4, List.mem_range.2 (by omega), ?_⟩)
  simp only [peanutAddrs, peanutAddr, List.mem_cons, List.not_mem_nil, or_false]
  omega

theorem adjacent_covers {bpr n : Nat} (hn : 0 < n) (hd : bpr % n = 0) (rs j : Nat) (hj : j < bpr) :
    ∃ g p, g < bpr / n ∧ p < n ∧ rs + g * n + p = rs + j := by
  refine ⟨j / n, j % n, ?_, Nat.mod_lt _ hn, ?_⟩
  · rw [Nat.lt_div_iff_mul_lt hn, ← Nat.div_add_mod bpr n, hd]
    have h1 := Nat.div_mul_le_self j n
    have h2 : bpr = n * (bpr / n) := by have := Nat.div_add_mod bpr n; omega
    have h3 := Nat.div_add_mod' j n
    have h4 : j / n * n < n * (bpr / n) := by omega
    have h5 : j / n < bpr / n := by rw [Nat.mul_comm n] at h4; exact Nat.lt_of_mul_lt_mul_right h4
    have h6 := Nat.mul_le_mul_right n h5
    rw [Nat.succ_mul] at h6
    rw [Nat.mul_comm n (bpr / n)]
    omega
  · rw [Nat.add_assoc, Nat.div_add_mod']

theorem strips_cover {bpr n : Nat} (hd : bpr % n = 0) (rs j : Nat) (hj : j < bpr) :
    ∃ g p, g < bpr / n ∧ p < n ∧ rs + p * (bpr / n) + g = rs + j := by
  have h2 : bpr = n * (bpr / n) := by have := Nat.div_add_mod bpr n; omega
  have hb : 0 < bpr / n := Nat.pos_of_ne_zero fun h0 => by rw [h0] at h2; omega
  refine ⟨j % (bpr / n), j / (bpr / n), Nat.mod_lt _ hb, ?_, ?_⟩
  · exact Nat.div_lt_of_lt_mul (by rw [Nat.mul_comm, ← h2]; exact hj)
  · rw [Nat.add_assoc, Nat.div_add_mod']

/-- A command whose checks pass reads every byte that its rule reads (60_exceptions R216). -/
theorem mem_reads_of_readsAt {s : State} {i : Instr} {a : Nat} (he : (planOf i s).error = none) (h : s.readsAt i a) :
    a ∈ (planOf i s).work.reads := by
  have planes : ∀ n : Byte, ∀ m : RenderMode, (planesPlan n m s).error = none →
      0 < n.toNat ∧ m.geometryOk = true := fun n m hp => by
    have hl := (planesPlan_error hp).1
    rw [(planesPlan_error hp).2] at hp
    refine ⟨?_, ((renderPlan_error_eq_none m s).1 hp).2.2.1⟩
    simp only [legalPlanes, Bool.and_eq_true, decide_eq_true_eq] at hl
    omega
  cases i with
  | nop => exact h.elim
  | palbuildDirect => exact h.elim
  | palbuildAntic => exact h.elim
  | palbuildGtia9 => exact h.elim
  | palbuildGtia11 => exact h.elim
  | renderBw1 => exact renderPlan_reads_single 8 (fun x b => oneBit b x) (by omega) rfl (fun _ _ => rfl) h
  | renderBpp2 => exact renderPlan_reads_single 4 (fun x b => twoBits b x) (by omega) rfl (fun _ _ => rfl) h
  | renderBpp4 => exact renderPlan_reads_single 2 (fun x b => nibble b x) (by omega) rfl (fun _ _ => rfl) h
  | renderAnticB => exact renderPlan_reads_single 8 (fun x b => anticOneBitRegister (oneBit b x)) (by omega) rfl (fun _ _ => rfl) h
  | renderAnticC => exact renderPlan_reads_single 8 (fun x b => anticOneBitRegister (oneBit b x)) (by omega) rfl (fun _ _ => rfl) h
  | renderAnticD => exact renderPlan_reads_single 4 (fun x b => anticTwoBitRegister (twoBits b x)) (by omega) rfl (fun _ _ => rfl) h
  | renderAnticE => exact renderPlan_reads_single 4 (fun x b => anticTwoBitRegister (twoBits b x)) (by omega) rfl (fun _ _ => rfl) h
  | renderA2Hires => exact renderPlan_reads_single 7 (fun x b => sevenBit b x) (by omega) rfl (fun _ _ => rfl) h
  | renderA2HiresScreen =>
    obtain ⟨y, j, hy, hj, hc⟩ := h
    have hg := ((renderPlan_error_eq_none _ s).1 he).2.2.1
    simp only [modeA2HiresScreen, Bool.and_eq_true, decide_eq_true_eq] at hg
    exact renderPlan_reads_screen hg.1 hy hj rfl hc
  | renderA2Artifact => obtain ⟨k, hk, hc⟩ := h; exact renderPlan_reads_artifact hk hc
  | renderGtia9 => exact renderPlan_reads_single 2 (fun x b => nibble b x) (by omega) rfl (fun _ _ => rfl) h
  | renderGtia10 => exact renderPlan_reads_single 2 (fun x b => nibble b x) (by omega) rfl (fun _ _ => rfl) h
  | renderGtia11 => exact renderPlan_reads_single 2 (fun x b => nibble b x) (by omega) rfl (fun _ _ => rfl) h
  | renderBplLe n =>
    obtain ⟨k, hk, hc⟩ := h
    have hp := planes n _ he
    have hd : s.csr.bpr.toNat % n.toNat = 0 := of_decide_eq_true hp.2
    exact planesPlan_reads he hp.1 hd (adjacent_covers hp.1 hd) hk hc
  | renderBplBe n =>
    obtain ⟨k, hk, hc⟩ := h
    have hp := planes n _ he
    have hd : s.csr.bpr.toNat % n.toNat = 0 := of_decide_eq_true hp.2
    exact planesPlan_reads he hp.1 hd (adjacent_covers hp.1 hd) hk hc
  | renderBplIlLe n =>
    obtain ⟨k, hk, hc⟩ := h
    have hp := planes n _ he
    have hd : s.csr.bpr.toNat % n.toNat = 0 := of_decide_eq_true hp.2
    exact planesPlan_reads he hp.1 hd (strips_cover hd) hk hc
  | renderBplIlBe n =>
    obtain ⟨k, hk, hc⟩ := h
    have hp := planes n _ he
    have hd : s.csr.bpr.toNat % n.toNat = 0 := of_decide_eq_true hp.2
    exact planesPlan_reads he hp.1 hd (strips_cover hd) hk hc
  | renderJumpman => exact renderPlan_reads_byte rfl (fun _ _ => rfl) h
  | renderMemmap => exact renderPlan_reads_byte rfl (fun _ _ => rfl) h
  | renderHeatmap => exact renderPlan_reads_byte rfl (fun _ _ => rfl) h
  | bakeGr0 =>
    obtain ⟨k, _, hk, hl, ha⟩ := h
    exact bakePlan_reads (slot := k / 8) (by omega) (Nat.mod_eq_of_lt (by omega)) hl (by show k < 8 * 128; omega) ha
  | bakeAntic4 =>
    obtain ⟨k, _, hk, hl, ha⟩ := h
    exact bakePlan_reads (slot := k / 8) (by omega) (Nat.mod_eq_of_lt (by omega)) hl (by show k < 8 * 128; omega) ha
  | bakeGr12Upper =>
    obtain ⟨k, _, hk, hl, ha⟩ := h
    exact bakePlan_reads (slot := k / 8) (by omega) (Nat.mod_eq_of_lt (by omega)) hl (by show k < 8 * 128; omega) ha
  | bakeGr12Lower =>
    obtain ⟨k, hf, hk, hl, ha⟩ := h
    refine bakePlan_reads (slot := k / 8 - 64) (by omega) ?_ hl (by show k < 8 * 128; omega) ha
    show (k / 8 - 64) % 64 + 64 = k / 8
    omega
  | bakeApple =>
    obtain ⟨k, _, hk, hl, ha⟩ := h
    cases hg : s.csr.glyphs256 with
    | true =>
      rw [hg, if_pos rfl] at hk
      exact bakePlan_reads (slot := k / 8) (by omega) (by simp [modeBakeApple, hg]) hl
        (by simp only [modeBakeApple, hg, if_true]; omega) ha
    | false =>
      rw [hg, if_neg (by simp)] at hk
      refine bakePlan_reads (slot := k / 8) (by omega) ?_ hl
        (by simp only [modeBakeApple, hg, Bool.false_eq_true, if_false]; omega) ha
      simp only [modeBakeApple, hg, Bool.false_eq_true, if_false]
      omega
  | frender =>
    have hz := (planFrender_error_eq_none s).1 he
    rcases h with ⟨k, hk, hc⟩ | ⟨hd, hs, hq, k, row, col, ch, hk, hlt, hr, hu, hch, ha⟩
    · exact planFrender_reads_cell hz.1 hz.2.1 hz.2.2.1 hk hc
    · exact planFrender_reads_baked hz.1 hz.2.1 hz.2.2.1 hk hlt hd hs hq.1 hr hu hch ha
  | iscale sh sw => exact scalerPlan_reads (by simpa [scalerIdentity, byte_toNat_eq_one] using h.1) h.2
  | iwscale sw => exact scalerPlan_reads (by simpa [scalerIdentity, byte_toNat_eq_one] using h.1) h.2
  | harvest =>
    rcases h with h | h
    · exact planHarvest_reads_list h
    · exact List.mem_append_right _ (mem_markedAddrs_of_marksAt h)

end Sys2Proof.Machine
end

