-- ==== Sys2Proof/Laws/Encoding.lean ====
section
/-! SUPPORT. The four fields of a command word: a word built from fields has them (30_encoding R95). -/

namespace Sys2Proof

/-- Bit k of the word of four fields. -/
theorem wordOfFields_getLsbD (f : Byte × Byte × Byte × Byte) (k : Nat) :
    (wordOfFields f).getLsbD k =
      if k < 8 then f.1.getLsbD k
      else if k < 16 then f.2.1.getLsbD (k - 8)
      else if k < 24 then f.2.2.1.getLsbD (k - 16)
      else f.2.2.2.getLsbD (k - 24) := by
  unfold wordOfFields
  rw [BitVec.getLsbD_append, BitVec.getLsbD_append, BitVec.getLsbD_append]
  by_cases h1 : k < 8
  · simp [h1]
  · by_cases h2 : k < 16
    · rw [if_neg h1, if_pos (by omega), if_neg h1, if_pos h2]
    · by_cases h3 : k < 24
      · rw [if_neg h1, if_neg (by omega), if_pos (by omega), if_neg h1, if_neg h2, if_pos h3,
          show k - 8 - 8 = k - 16 by omega]
      · rw [if_neg h1, if_neg (by omega), if_neg (by omega), if_neg h1, if_neg h2, if_neg h3,
          show k - 8 - 8 - 8 = k - 24 by omega]

theorem opField_word (f : Byte × Byte × Byte × Byte) : opField (wordOfFields f) = f.1 := by
  refine BitVec.eq_of_getLsbD_eq fun k hk => ?_
  rw [opField, BitVec.getLsbD_extractLsb', wordOfFields_getLsbD]
  simp [hk]

theorem subField_word (f : Byte × Byte × Byte × Byte) : subField (wordOfFields f) = f.2.1 := by
  refine BitVec.eq_of_getLsbD_eq fun k hk => ?_
  rw [subField, BitVec.getLsbD_extractLsb', wordOfFields_getLsbD, if_neg (by omega), if_pos (by omega)]
  simp [hk]

theorem arg0Field_word (f : Byte × Byte × Byte × Byte) : arg0Field (wordOfFields f) = f.2.2.1 := by
  refine BitVec.eq_of_getLsbD_eq fun k hk => ?_
  rw [arg0Field, BitVec.getLsbD_extractLsb', wordOfFields_getLsbD, if_neg (by omega), if_neg (by omega),
    if_pos (by omega)]
  simp [hk]

theorem arg1Field_word (f : Byte × Byte × Byte × Byte) : arg1Field (wordOfFields f) = f.2.2.2 := by
  refine BitVec.eq_of_getLsbD_eq fun k hk => ?_
  rw [arg1Field, BitVec.getLsbD_extractLsb', wordOfFields_getLsbD, if_neg (by omega), if_neg (by omega),
    if_neg (by omega)]
  simp [hk]

/-- A word is the word of its four fields. -/
theorem wordOfFields_fields (w : Word) : wordOfFields (opField w, subField w, arg0Field w, arg1Field w) = w := by
  refine BitVec.eq_of_getLsbD_eq fun k hk => ?_
  rw [wordOfFields_getLsbD]
  simp only [opField, subField, arg0Field, arg1Field, BitVec.getLsbD_extractLsb']
  split
  · simp [*]
  · split
    · rw [show decide (k - 8 < 8) = true by simp; omega, show 8 + (k - 8) = k by omega, Bool.true_and]
    · split
      · rw [show decide (k - 16 < 8) = true by simp; omega, show 16 + (k - 16) = k by omega, Bool.true_and]
      · rw [show decide (k - 24 < 8) = true by simp; omega, show 24 + (k - 24) = k by omega, Bool.true_and]

end Sys2Proof
end

