-- ==== Sys2Proof/Laws/PerInstr.lean ====
section
/-! SUPPORT. Facts about each command as syntax: its word fits its row of spec/opcode_table.json (30_encoding R97..R102). -/

namespace Sys2Proof.Laws.TableRow

/-- The mask and the match of a command's row in spec/opcode_table.json. -/
def row : Instr → Word × Word
  | .nop => (0xFFFFFFFF, 0x00000000)
  | .palbuildDirect => (0xFFFFFFFF, 0x00000001)
  | .palbuildAntic => (0xFFFFFFFF, 0x00000101)
  | .palbuildGtia9 => (0xFFFFFFFF, 0x00000201)
  | .palbuildGtia11 => (0xFFFFFFFF, 0x00000301)
  | .renderBw1 => (0xFFFFFFFF, 0x00000002)
  | .renderBpp2 => (0xFFFFFFFF, 0x00000102)
  | .renderBpp4 => (0xFFFFFFFF, 0x00000202)
  | .renderAnticB => (0xFFFFFFFF, 0x00000302)
  | .renderAnticC => (0xFFFFFFFF, 0x00000402)
  | .renderAnticD => (0xFFFFFFFF, 0x00000502)
  | .renderAnticE => (0xFFFFFFFF, 0x00000602)
  | .renderA2Hires => (0xFFFFFFFF, 0x00000702)
  | .renderA2HiresScreen => (0xFFFFFFFF, 0x00000802)
  | .renderA2Artifact => (0xFFFFFFFF, 0x00000902)
  | .renderGtia9 => (0xFFFFFFFF, 0x00000A02)
  | .renderGtia10 => (0xFFFFFFFF, 0x00000B02)
  | .renderGtia11 => (0xFFFFFFFF, 0x00000C02)
  | .renderBplLe _ => (0xFF00FFFF, 0x00000D02)
  | .renderBplBe _ => (0xFF00FFFF, 0x00000E02)
  | .renderBplIlLe _ => (0xFF00FFFF, 0x00000F02)
  | .renderBplIlBe _ => (0xFF00FFFF, 0x00001002)
  | .renderJumpman => (0xFFFFFFFF, 0x00001102)
  | .renderMemmap => (0xFFFFFFFF, 0x00001202)
  | .renderHeatmap => (0xFFFFFFFF, 0x00001302)
  | .bakeGr0 => (0xFFFFFFFF, 0x00000003)
  | .bakeAntic4 => (0xFFFFFFFF, 0x00000103)
  | .bakeGr12Upper => (0xFFFFFFFF, 0x00000203)
  | .bakeGr12Lower => (0xFFFFFFFF, 0x00000303)
  | .bakeApple => (0xFFFFFFFF, 0x00000403)
  | .frender => (0xFFFFFFFF, 0x00000004)
  | .iscale _ _ => (0x0000FFFF, 0x00000005)
  | .iwscale _ => (0x00FFFFFF, 0x00000006)
  | .harvest => (0xFFFFFFFF, 0x00000007)

/-- The encoder's word of a command agrees with the command's row on every bit that the row fixes. -/
def Statement (i : Instr) : Prop := encode i &&& (row i).1 = (row i).2

theorem nop : Statement .nop := by unfold Statement; decide
theorem palbuildDirect : Statement .palbuildDirect := by unfold Statement; decide
theorem palbuildAntic : Statement .palbuildAntic := by unfold Statement; decide
theorem palbuildGtia9 : Statement .palbuildGtia9 := by unfold Statement; decide
theorem palbuildGtia11 : Statement .palbuildGtia11 := by unfold Statement; decide
theorem renderBw1 : Statement .renderBw1 := by unfold Statement; decide
theorem renderBpp2 : Statement .renderBpp2 := by unfold Statement; decide
theorem renderBpp4 : Statement .renderBpp4 := by unfold Statement; decide
theorem renderAnticB : Statement .renderAnticB := by unfold Statement; decide
theorem renderAnticC : Statement .renderAnticC := by unfold Statement; decide
theorem renderAnticD : Statement .renderAnticD := by unfold Statement; decide
theorem renderAnticE : Statement .renderAnticE := by unfold Statement; decide
theorem renderA2Hires : Statement .renderA2Hires := by unfold Statement; decide
theorem renderA2HiresScreen : Statement .renderA2HiresScreen := by unfold Statement; decide
theorem renderA2Artifact : Statement .renderA2Artifact := by unfold Statement; decide
theorem renderGtia9 : Statement .renderGtia9 := by unfold Statement; decide
theorem renderGtia10 : Statement .renderGtia10 := by unfold Statement; decide
theorem renderGtia11 : Statement .renderGtia11 := by unfold Statement; decide
theorem renderBplLe (n : Byte) : Statement (.renderBplLe n) := by
  unfold Statement
  refine BitVec.eq_of_getLsbD_eq fun k hk => ?_
  rw [BitVec.getLsbD_and, encode, wordOfFields_getLsbD]
  interval_cases k <;> simp [row, Instr.fields]
theorem renderBplBe (n : Byte) : Statement (.renderBplBe n) := by
  unfold Statement
  refine BitVec.eq_of_getLsbD_eq fun k hk => ?_
  rw [BitVec.getLsbD_and, encode, wordOfFields_getLsbD]
  interval_cases k <;> simp [row, Instr.fields]
theorem renderBplIlLe (n : Byte) : Statement (.renderBplIlLe n) := by
  unfold Statement
  refine BitVec.eq_of_getLsbD_eq fun k hk => ?_
  rw [BitVec.getLsbD_and, encode, wordOfFields_getLsbD]
  interval_cases k <;> simp [row, Instr.fields]
theorem renderBplIlBe (n : Byte) : Statement (.renderBplIlBe n) := by
  unfold Statement
  refine BitVec.eq_of_getLsbD_eq fun k hk => ?_
  rw [BitVec.getLsbD_and, encode, wordOfFields_getLsbD]
  interval_cases k <;> simp [row, Instr.fields]
theorem renderJumpman : Statement .renderJumpman := by unfold Statement; decide
theorem renderMemmap : Statement .renderMemmap := by unfold Statement; decide
theorem renderHeatmap : Statement .renderHeatmap := by unfold Statement; decide
theorem bakeGr0 : Statement .bakeGr0 := by unfold Statement; decide
theorem bakeAntic4 : Statement .bakeAntic4 := by unfold Statement; decide
theorem bakeGr12Upper : Statement .bakeGr12Upper := by unfold Statement; decide
theorem bakeGr12Lower : Statement .bakeGr12Lower := by unfold Statement; decide
theorem bakeApple : Statement .bakeApple := by unfold Statement; decide
theorem frender : Statement .frender := by unfold Statement; decide
theorem iscale (sh sw : Byte) : Statement (.iscale sh sw) := by
  unfold Statement
  refine BitVec.eq_of_getLsbD_eq fun k hk => ?_
  rw [BitVec.getLsbD_and, encode, wordOfFields_getLsbD]
  interval_cases k <;> simp [row, Instr.fields]
theorem iwscale (sw : Byte) : Statement (.iwscale sw) := by
  unfold Statement
  refine BitVec.eq_of_getLsbD_eq fun k hk => ?_
  rw [BitVec.getLsbD_and, encode, wordOfFields_getLsbD]
  interval_cases k <;> simp [row, Instr.fields]
theorem harvest : Statement .harvest := by unfold Statement; decide

end Sys2Proof.Laws.TableRow
end

