-- ==== Sys2Proof/Tests/Slice0.lean ====
section
/-! SUPPORT. The model's own tests: ill-formed commands, every command word written out from 30_encoding, the vectors of
95_test_vectors (V and S numbers), and for each statement with hypotheses a state that meets them. -/

namespace Sys2Proof.Tests

-- One theorem at a time: checked side by side, the many kernel evaluations below ask for too many threads.
set_option Elab.async false

open Sys2Proof.Machine

/-! ## Well-formed commands (30_encoding R101) -/

theorem test_wellFormed_refuses_no_planes : Instr.wellFormed (.renderBplLe 0) = false
    ∧ Instr.wellFormed (.renderBplBe 0) = false ∧ Instr.wellFormed (.renderBplIlLe 0) = false
    ∧ Instr.wellFormed (.renderBplIlBe 0) = false := by decide

theorem test_wellFormed_refuses_five_planes : Instr.wellFormed (.renderBplLe 5) = false
    ∧ Instr.wellFormed (.renderBplBe 5) = false ∧ Instr.wellFormed (.renderBplIlLe 5) = false
    ∧ Instr.wellFormed (.renderBplIlBe 5) = false := by decide

theorem test_wellFormed_admits_one_to_four_planes :
    ∀ n ∈ ([1, 2, 3, 4] : List Byte), Instr.wellFormed (.renderBplLe n) = true ∧ Instr.wellFormed (.renderBplBe n) = true
      ∧ Instr.wellFormed (.renderBplIlLe n) = true ∧ Instr.wellFormed (.renderBplIlBe n) = true := by decide

/-! ## Decoding (30_encoding R95..R102): ARG1, ARG0, SUB, OP from the most significant byte down -/

theorem test_decode_utilities : decode 0x00000000 = .ok .nop ∧ decode 0x03020005 = .ok (.iscale 2 3)
    ∧ decode 0xFF000005 = .ok (.iscale 0 0xFF) ∧ decode 0x03000006 = .ok (.iwscale 3) := by decide

theorem test_decode_palbuild : decode 0x00000001 = .ok .palbuildDirect ∧ decode 0x00000101 = .ok .palbuildAntic
    ∧ decode 0x00000201 = .ok .palbuildGtia9 ∧ decode 0x00000301 = .ok .palbuildGtia11 := by decide

theorem test_decode_packed_renderers : decode 0x00000002 = .ok .renderBw1 ∧ decode 0x00000102 = .ok .renderBpp2
    ∧ decode 0x00000202 = .ok .renderBpp4 := by decide

theorem test_decode_antic_renderers : decode 0x00000302 = .ok .renderAnticB ∧ decode 0x00000402 = .ok .renderAnticC
    ∧ decode 0x00000502 = .ok .renderAnticD ∧ decode 0x00000602 = .ok .renderAnticE := by decide

theorem test_decode_apple_renderers : decode 0x00000702 = .ok .renderA2Hires
    ∧ decode 0x00000802 = .ok .renderA2HiresScreen ∧ decode 0x00000902 = .ok .renderA2Artifact := by decide

theorem test_decode_gtia_renderers : decode 0x00000A02 = .ok .renderGtia9 ∧ decode 0x00000B02 = .ok .renderGtia10
    ∧ decode 0x00000C02 = .ok .renderGtia11 := by decide

theorem test_decode_bitplanes : decode 0x00010D02 = .ok (.renderBplLe 1) ∧ decode 0x00020E02 = .ok (.renderBplBe 2)
    ∧ decode 0x00030F02 = .ok (.renderBplIlLe 3) ∧ decode 0x00041002 = .ok (.renderBplIlBe 4) := by decide

theorem test_decode_byte_renderers : decode 0x00001102 = .ok .renderJumpman ∧ decode 0x00001202 = .ok .renderMemmap
    ∧ decode 0x00001302 = .ok .renderHeatmap := by decide

theorem test_decode_bake : decode 0x00000003 = .ok .bakeGr0 ∧ decode 0x00000103 = .ok .bakeAntic4
    ∧ decode 0x00000203 = .ok .bakeGr12Upper ∧ decode 0x00000303 = .ok .bakeGr12Lower
    ∧ decode 0x00000403 = .ok .bakeApple := by decide

theorem test_decode_text_and_jumpman : decode 0x00000004 = .ok .frender ∧ decode 0x00000007 = .ok .harvest := by decide

/-- V129..V140, V81. -/
theorem test_decode_errors : decode 0xFF000008 = .error .badOpcode ∧ decode 0x01001402 = .error .rendererNotFound
    ∧ decode 0x00000503 = .error .rendererNotFound ∧ decode 0x00000100 = .error .reservedField
    ∧ decode 0x00000401 = .error .reservedField ∧ decode 0x00010002 = .error .reservedField
    ∧ decode 0x01000003 = .error .reservedField ∧ decode 0x02020105 = .error .reservedField
    ∧ decode 0x04010006 = .error .reservedField ∧ decode 0x00000104 = .error .reservedField
    ∧ decode 0x00000D02 = .error .reservedField ∧ decode 0x00050D02 = .error .reservedField := by decide

/-! ## A board for the vectors -/

/-- Reset with ROMs that number their entries: STD(i) is `0x0001ii` and each character map is the identity. -/
def board : State :=
  { State.reset with
    platform := { State.reset.platform with
      ntscRgb := Table.ofFn fun k => ⟨0, 1, BitVec.ofNat 8 k⟩
      palRgb := Table.ofFn fun k => ⟨0, 2, BitVec.ofNat 8 k⟩
      cmapInternal := Table.ofFn fun k => BitVec.ofNat 8 k
      cmapAtascii := Table.ofFn fun k => BitVec.ofNat 8 k } }

/-- Memory with a list of bytes stored from `a` on. -/
def poke (m : Memory) (a : Nat) (bytes : List Nat) : Memory :=
  bytes.zipIdx.foldl (fun m x => m.write (a + x.2) (BitVec.ofNat 8 x.1)) m

/-- The setup of 95_test_vectors section 2: one row of the given data at 0x1000, the style plane at 0x1800, output at
0x4000, EMPTY_BG 112233, CREG entry k the colour `0000kk`, ANTIC register k the value k + 1. -/
def row (data style : List Nat) : State :=
  { board with
    mem := poke (poke [] 0x1000 data) 0x1800 style
    creg := Table.ofFn fun k => ⟨0, 0, BitVec.ofNat 8 k⟩
    csr := { Csrs.reset with
      dataBase := 0x1000, styleBase := 0x1800, outBase := 0x4000
      dataLen := BitVec.ofNat 32 data.length, count := BitVec.ofNat 32 data.length
      bpr := BitVec.ofNat 16 data.length, numRows := 1, nreg := 256
      emptyBg := ⟨0x11, 0x22, 0x33⟩
      antic := ⟨#[1, 2, 3, 4, 5, 6, 7, 8, 9], rfl⟩ } }

/-- A change of the CSRs of a state. -/
def csrs (s : State) (f : Csrs → Csrs) : State := { s with csr := f s.csr }

/-- The state that a command leaves. -/
def after (i : Instr) (s : State) : State :=
  match exec i s with
  | .next t => t
  | .fault _ => s
  | .refused _ => s

/-- The first n pixels that a command which succeeds leaves at 0x4000, as words `RRGGBB`. -/
def pixels (i : Instr) (n : Nat) (s : State) : List Nat :=
  let t := after i s
  if t.csr.status.done then (List.range n).map fun q => (packRgb (t.mem.colourAt (0x4000 + 3 * q))).toNat else []

/-- The ERRCODE that a command ends with. -/
def errorOf (i : Instr) (s : State) : Option ErrCode := (after i s).csr.status.errCode

/-! ## Utilities and palettes -/

/-- V12. -/
theorem test_nop : statusWord (after .nop { board with csr :=
    { Csrs.reset with status := { done := false, err := true, wign := false, errCode := some .scale } } }) = 2 := by
  decide +kernel

/-- V5, V6: 010203 040506 scaled 2 by 3. -/
theorem test_iscale : pixels (.iscale 2 3) 12 (csrs { board with mem := poke [] 0x1000 [1, 2, 3, 4, 5, 6] } fun c =>
      { c with srcBase := 0x1000, srcW := 2, srcH := 1, outBase := 0x4000 }) =
    [0x010203, 0x010203, 0x010203, 0x040506, 0x040506, 0x040506,
     0x010203, 0x010203, 0x010203, 0x040506, 0x040506, 0x040506] := by decide +kernel

/-- V7. -/
theorem test_iwscale : pixels (.iwscale 3) 7 (csrs { board with mem := poke [] 0x1000 [1, 2, 3, 4, 5, 6] } fun c =>
      { c with srcBase := 0x1000, srcW := 2, srcH := 1, outBase := 0x4000 }) =
    [0x010203, 0x010203, 0x010203, 0x040506, 0x040506, 0x040506, 0] := by decide +kernel

/-- V9, V10: a copy that is not the identity must not overlap; RANGE precedes the identity case. -/
theorem test_iscale_errors : errorOf (.iscale 1 1) (csrs board fun c =>
      { c with srcBase := 0x1000, outBase := 0x1003, srcW := 2, srcH := 1 }) = some .overlap
    ∧ errorOf (.iscale 1 1) (csrs board fun c =>
      { c with srcBase := 0xFFFFFFFE, outBase := 0xFFFFFFFE, srcW := 1, srcH := 1 }) = some .range := by decide +kernel

/-- V21. -/
theorem test_palbuild_direct :
    let t := after .palbuildDirect { board with
      creg := Table.put board.creg 1 ⟨0xFF, 0xFF, 0xFF⟩
      csr := { Csrs.reset with highlightBg := ⟨0xFF, 0xFF, 0⟩ } }
    ([0x000, 0x001, 0x002, 0x100, 0x101, 0x201, 0x301, 0x401].map fun k =>
        (packRgb (Table.get (t.ps.bank (.ofIndex (k / 256))) (BitVec.ofNat 8 k))).toNat) =
      [0, 0xFFFFFF, 0, 0x7F7F00, 0xFFFF7F, 0x7F7F7F, 0x7F7F7F, 0xFFFFFF] := by decide +kernel

/-- V23, V24, V25: entries of the normal bank of the three register-driven sources. -/
theorem test_palbuild_registers :
    let normal := fun (i : Instr) (s : State) (k : Byte) => (packRgb (Table.get (after i s).ps.normal k)).toNat
    let antic := csrs board fun c => { c with antic := ⟨#[0, 0, 0, 0, 0, 0x0A, 0, 0, 0], rfl⟩ }
    let ramp := csrs board fun c => { c with antic := ⟨#[0, 0, 0, 0, 0, 0, 0, 0, 0x94], rfl⟩ }
    [4, 5, 8, 9].map (normal .palbuildAntic antic) = [0x100, 0x10A, 0x100, 0]
      ∧ [0, 15, 16].map (normal .palbuildGtia9 ramp) = [0x190, 0x19F, 0]
      ∧ [0, 15, 16].map (normal .palbuildGtia11 ramp) = [0x104, 0x1F4, 0] := by decide +kernel

/-! ## Renderers -/

/-- V35 and V36. -/
theorem test_render_bw1 : pixels .renderBw1 8 (row [0xC1] [0]) = [1, 1, 0, 0, 0, 0, 0, 1]
    ∧ pixels .renderBw1 16 (csrs (row [0xAA, 0x55] [0]) fun c => { c with count := 1 }) =
      [1, 0, 1, 0, 1, 0, 1, 0, 0x112233, 0x112233, 0x112233, 0x112233, 0x112233, 0x112233, 0x112233, 0x112233] := by
  decide +kernel

/-- V39 and V40: with NREG 2 the indices 2 and 3 clamp to 0. -/
theorem test_render_bpp2 : pixels .renderBpp2 4 (row [0x1B] [0]) = [0, 1, 2, 3]
    ∧ pixels .renderBpp2 4 (csrs (row [0x1B] [0]) fun c => { c with nreg := 2 }) = [0, 1, 0, 0] := by decide +kernel

/-- V41 and V42. -/
theorem test_render_bpp4 : pixels .renderBpp4 2 (row [0x3F] [0]) = [3, 15]
    ∧ pixels .renderBpp4 2 (csrs (row [0x3F] [0]) fun c => { c with nreg := 4 }) = [3, 0] := by decide +kernel

/-- V43 and V44. -/
theorem test_render_antic_one_bit : pixels .renderAnticB 8 (row [0x80] [0]) =
      [0x105, 0x109, 0x109, 0x109, 0x109, 0x109, 0x109, 0x109]
    ∧ pixels .renderAnticC 8 (row [0x01] [0]) = [0x109, 0x109, 0x109, 0x109, 0x109, 0x109, 0x109, 0x105] := by
  decide +kernel

/-- V45, at 2 x 2, and V46, at 2 x 1 in the highlight bank: Blend(000107, FFFF00) is 7F8003. -/
theorem test_render_antic_two_bits :
    pixels .renderAnticD 16 (csrs (row [0x1B] [0]) fun c => { c with scaleW := 2, scaleH := 2 }) =
      [0x109, 0x109, 0x105, 0x105, 0x106, 0x106, 0x107, 0x107, 0x109, 0x109, 0x105, 0x105, 0x106, 0x106, 0x107, 0x107]
    ∧ pixels .renderAnticE 8 (csrs (row [0xFF] [0x80]) fun c => { c with scaleW := 2, highlightBg := ⟨0xFF, 0xFF, 0⟩ }) =
      [0x7F8003, 0x7F8003, 0x7F8003, 0x7F8003, 0x7F8003, 0x7F8003, 0x7F8003, 0x7F8003] := by decide +kernel

/-- V47 and V48. -/
theorem test_render_a2_hires : pixels .renderA2Hires 7 (row [0x81] [0]) = [1, 0, 0, 0, 0, 0, 0]
    ∧ pixels .renderA2Hires 14 (row [0x40, 0x01] [0]) = [0, 0, 0, 0, 0, 0, 1, 1, 0, 0, 0, 0, 0, 0] := by decide +kernel

/-- V49 and S4, on the pixel itself: row 1 starts at byte 1024; and V88. -/
theorem test_render_a2_hires_screen :
    let s := csrs { row [] [] with mem := [(0x1400, 1)] } fun c =>
      { c with bpr := 40, numRows := 2, count := 8192, dataLen := 8192 }
    let p := buildPalettes s .direct
    let at' := fun y x => renderPixel (modeA2HiresScreen 40 2) s p 256 0 y x
    at' 1 0 = ⟨0, 0, 1⟩ ∧ at' 1 1 = ⟨0, 0, 0⟩ ∧ at' 0 0 = ⟨0, 0, 0⟩
      ∧ errorOf .renderA2HiresScreen (csrs s fun c => { c with numRows := 193 }) = some .geometry := by decide +kernel

/-- V54 and V58. -/
theorem test_render_a2_artifact : pixels .renderA2Artifact 14 (row [0x81, 0x00] [0]) =
      [4, 4, 0, 0, 0, 0, 0, 0, 0, 0, 0, 0, 0, 0]
    ∧ pixels .renderA2Artifact 14 (row [0x40, 0x80] [0]) = [0, 0, 0, 0, 0, 0, 2, 2, 0, 0, 0, 0, 0, 0] := by decide +kernel

/-- V64, V65, V66, V67. -/
theorem test_render_gtia :
    let background := fun (b : Byte) (s : State) =>
      csrs s fun c => { c with antic := ⟨#[1, 2, 3, 4, 5, 6, 7, 8, b], rfl⟩ }
    pixels .renderGtia9 2 (background 0x90 (row [0x0F] [0])) = [0x190, 0x19F]
      ∧ pixels .renderGtia10 2 (row [0x8C] [0]) = [0x109, 0x101]
      ∧ pixels .renderGtia10 2 (row [0x48] [0]) = [0x105, 0x109]
      ∧ pixels .renderGtia11 2 (background 0x06 (row [0x1F] [0])) = [0x116, 0x1F6] := by decide +kernel

/-- V70, V71. -/
theorem test_render_bpl : pixels (.renderBplLe 3) 8 (row [0xFF, 0x0F, 0x33] [0]) = [1, 1, 5, 5, 3, 3, 7, 7]
    ∧ pixels (.renderBplBe 3) 8 (row [0xFF, 0x0F, 0x33] [0]) = [4, 4, 5, 5, 6, 6, 7, 7] := by decide +kernel

/-- V76, V77. -/
theorem test_render_bpl_il :
    pixels (.renderBplIlLe 3) 16 (row [0xAA, 0x00, 0xFF, 0x0F, 0x00, 0xF0] [0]) =
      [3, 2, 3, 2, 3, 2, 3, 2, 4, 4, 4, 4, 2, 2, 2, 2]
    ∧ pixels (.renderBplIlBe 3) 16 (row [0xAA, 0x00, 0xFF, 0x0F, 0x00, 0xF0] [0]) =
      [6, 2, 6, 2, 6, 2, 6, 2, 1, 1, 1, 1, 2, 2, 2, 2] := by decide +kernel

/-- V80, and V78: plane 1 past cnt reads 0 and the group is content. -/
theorem test_render_bpl_bounds : errorOf (.renderBplLe 3) (row [1, 2, 3, 4] [0]) = some .geometry
    ∧ pixels (.renderBplLe 2) 8 (csrs (row [0xF0, 0xCC] [0]) fun c => { c with count := 1 }) =
      [1, 1, 1, 1, 0, 0, 0, 0] := by decide +kernel

/-- V82, V83, V84. -/
theorem test_render_bytes :
    pixels .renderJumpman 1 (csrs (row [0xFF] [0x20]) fun c => { c with commentBg := ⟨0xFF, 0, 0⟩ }) = [0x7F007F]
    ∧ pixels .renderMemmap 3 (row [0x00, 0x80, 0xFF] [0]) = [0, 0x80, 0xFF]
    ∧ pixels .renderHeatmap 3 (csrs (row [0, 1, 2] [0]) fun c => { c with nreg := 2 }) = [0, 1, 0] := by decide +kernel

/-- V89..V92, V141. -/
theorem test_render_checks :
    (after .renderBw1 (csrs (row [0xAA] [0]) fun c => { c with outBase := 0xFFFFFFE8 })).csr.status.done = true
    ∧ errorOf .renderBw1 (csrs (row [0xAA] [0]) fun c => { c with outBase := 0xFFFFFFF0 }) = some .range
    ∧ errorOf .renderBw1 (csrs (row [0xAA] [0]) fun c => { c with outBase := 0x1000 }) = some .overlap
    ∧ (after .renderBw1 (csrs (row [0xAA] [0]) fun c => { c with styleBase := 0x1000 })).csr.status.done = true
    ∧ errorOf .renderBw1 (csrs (row [0xAA] [0]) fun c => { c with scaleH := 0 }) = some .scale := by decide +kernel

/-! ## Baker -/

/-- A font at 0x1000 whose glyph g has its row 0 byte `b`, pf0..pf3 in ANTIC registers 4..7 and bak in 8. -/
def fontWith (g b : Nat) : State :=
  csrs { row [] [] with mem := poke [] (0x1000 + 8 * g) [b] } fun c =>
    { c with fontBase := 0x1000, fontLen := 2048, bakeBase := 0x10000 }

/-- Row 0 of a slot of class 0 in one frame, as a BAKE computes it. -/
def bakedRow (m : BakeMode) (s : State) (frame slot : Nat) : List Nat :=
  (List.range (cellWidth m.cell7)).map fun col =>
    (packRgb (bakePixel m s (buildPalettes s m.source) (sourceCount s.csr m.source) 0 .normal frame slot 0 col)).toNat

/-- V100, and V101 with REVERSE. pf1 is 0x106, pf2 0x107. -/
theorem test_bake_gr0 :
    let s := fontWith 1 0x81
    let r := csrs s fun c => { c with reverse := true }
    let normal := [0x106, 0x107, 0x107, 0x107, 0x107, 0x107, 0x107, 0x106]
    let inverse := [0x107, 0x106, 0x106, 0x106, 0x106, 0x106, 0x106, 0x107]
    bakedRow (modeBakeGr0 s.csr) s 0 0x01 = normal ∧ bakedRow (modeBakeGr0 s.csr) s 1 0x81 = inverse
      ∧ bakedRow (modeBakeGr0 r.csr) r 0 0x01 = inverse ∧ bakedRow (modeBakeGr0 r.csr) r 0 0x81 = normal := by
  decide +kernel

/-- S5 with all four pairs in one row: bak, pf0, pf1, pf2 doubled, and pf3 in the inverse half. -/
theorem test_bake_antic4 :
    let s := fontWith 0 0x1B
    bakedRow (modeBakeAntic4 s.csr) s 0 0 = [0x109, 0x109, 0x105, 0x105, 0x106, 0x106, 0x107, 0x107]
      ∧ bakedRow (modeBakeAntic4 s.csr) s 0 128 = [0x109, 0x109, 0x105, 0x105, 0x106, 0x106, 0x108, 0x108] := by
  decide +kernel

/-- V102, V104. -/
theorem test_bake_gr12_upper :
    let s := fontWith 0x21 0xF0
    let r := csrs s fun c => { c with reverse := true }
    bakedRow (modeBakeGr12Upper s.csr) s 0 0x21 = [0x105, 0x105, 0x105, 0x105, 0x109, 0x109, 0x109, 0x109]
      ∧ bakedRow (modeBakeGr12Upper s.csr) s 0 0xE1 = [0x108, 0x108, 0x108, 0x108, 0x109, 0x109, 0x109, 0x109]
      ∧ bakedRow (modeBakeGr12Upper r.csr) r 0 0x21 = [0x109, 0x109, 0x109, 0x109, 0x105, 0x105, 0x105, 0x105] := by
  decide +kernel

/-- V103. -/
theorem test_bake_gr12_lower :
    let s := fontWith 0x61 0x0F
    bakedRow (modeBakeGr12Lower s.csr) s 0 0x21 = [0x109, 0x109, 0x109, 0x109, 0x105, 0x105, 0x105, 0x105] := by
  decide +kernel

/-- V105 with bg 0, fg 1: blinking slot 0x41 in both frames, and slot 0xC1. -/
theorem test_bake_apple :
    let s := csrs (fontWith 0x41 0x03) fun c => { c with hasBlink := true }
    bakedRow (modeBakeApple s.csr) s 0 0x41 = [0, 0, 1, 1, 1, 1, 1]
      ∧ bakedRow (modeBakeApple s.csr) s 1 0x41 = [1, 1, 0, 0, 0, 0, 0]
      ∧ bakedRow (modeBakeApple s.csr) s 0 0xC1 = [1, 1, 0, 0, 0, 0, 0] := by decide +kernel

/-- V94..V98, V110. -/
theorem test_bake_layout :
    bakeOffset 8 0 1 0 0 0 = 49152 ∧ bakeOffset 8 0 0 0x21 7 7 = 6525 ∧ bakeOffset 8 4 1 255 7 7 + 2 = 491519
      ∧ bakeOffset 7 0 1 0x41 0 0 = 53928 ∧ bakeOffset 7 4 1 255 7 6 + 2 = 430079
      ∧ errorOf .bakeGr0 (csrs board fun c => { c with bakeBase := 0xFFF90000 }) = some .range
      ∧ fontStateWord { Csrs.reset with font := (modeBakeApple Csrs.reset).fontState } = 0x43 := by decide +kernel

/-! ## FRENDER -/

/-- A screen of one cell with a valid CW 8 table at 0x10000. -/
def textScreen : State :=
  csrs { row [0x21] [0x40] with mem := poke (poke [] 0x1000 [0x21]) 0x1800 [0x40] } fun c =>
    { c with bakeBase := 0x10000, frame := true, font := { valid := true, cw7 := false, bmode := 0 } }

/-- V116: pixel (2, 5) of the cell is the one stored at BAKE_BASE + 252159. -/
theorem test_frender : (pixels .frender 64
    { textScreen with mem := poke textScreen.mem (0x10000 + 252159) [0xAA, 0xBB, 0xCC] }).zipIdx.filter (·.1 ≠ 0) =
    [(0xAABBCC, 21)] := by decide +kernel

/-- V111, V112. -/
theorem test_frender_errors : errorOf .frender board = some .noFont
    ∧ errorOf .frender (csrs board fun c => { c with zoom := 0 }) = some .scale := by decide +kernel

/-! ## HARVEST -/

/-- The plane and list of V125: records (16, 0, 5, 2) and (0, 3, 1, 1), and 0x08 in the two named plane bytes. -/
def peanuts : State :=
  { board with
    mem := poke (poke (poke [] 0x1000 [16, 0, 5, 2, 0, 3, 1, 1]) 0x1809 [0x08]) 0x1815 [0x28]
    csr := { Csrs.reset with styleBase := 0x1800, bpr := 8, numRows := 4, jmList := 0x1000, jmCount := 2 } }

/-- V125, V128. -/
theorem test_harvest :
    let t := after .harvest peanuts
    t.csr.jmHits = 1 ∧ t.mem.read (0x1800 + 21) = 0x28 ∧ t.mem.read (0x1800 + 9) = 8 := by decide +kernel

/-- V127, V153. -/
theorem test_harvest_overlap :
    let t := after .harvest (csrs peanuts fun c => { c with jmList := 0x1800, jmHits := 7 })
    t.csr.status.errCode = some .overlap ∧ t.csr.jmHits = 0 := by decide +kernel

/-! ## The host's side -/

/-- V26..V28, V156. -/
theorem test_config_fields :
    let write := fun (off : BitVec 13) (v : Word) => readCsr (csrAt off.toNat) (hostAct (.writeCsr off .word v) board)
    write 0x03C 0x00010000 = 0x00010002 ∧ write 0x03C 0x00000101 = 2 ∧ write 0x03C 0x00000100 = 0x100
      ∧ write 0x034 0xFF010101 = 0x00010101 := by decide +kernel

/-- V155. -/
theorem test_reserved_offsets : csrAt 0x090 = .reserved ∧ csrAt 0x3FC = .reserved ∧ csrAt 0x1C00 = .reserved
    ∧ csrAt 0x1FFC = .reserved ∧ csrAt 0x1800 = .ps .data 0 := by decide

/-- V162: a soft reset restores GEOM and keeps CREG. -/
theorem test_soft_reset :
    let s := hostAct (.writeCsr 0x004 .word 1)
      (hostAct (.writeCsr 0x030 .word 0x00010001) (hostAct (.writeCsr 0x40C .word 0x00123456) board))
    readCsr (csrAt 0x030) s = 0 ∧ readCsr (csrAt 0x40C) s = 0x00123456 := by decide +kernel

/-- A word access is the only size that a CSR answers (10_state R58). -/
theorem test_csr_sizes : ∀ size ∈ [AccessSize.byte, .half, .wide],
    (hostAct (.writeCsr 0x030 size 0x00010001) board).csr.bpr = 0 ∧ (hostAct (.readCsr 0x000 size) board).readData = 0 := by
  decide +kernel

/-- 20_memory R86: a host write of a plane byte during HARVEST leaves JM_HITS and the plane bytes of no record alone. -/
theorem test_harvest_host_write :
    let s := { peanuts with inTouched := [(0x1800, 0)], outTouched := [0x1800] }
    let t := after .harvest s
    t.csr.jmHits = 1 ∧ t.csr.status.done = true ∧ (planHarvest s).work.finalByte s false 9 = 8 := by decide +kernel

/-- 60_exceptions R216: a write into the aperture that the platform fails changes no CSR and no CREG entry. -/
theorem test_failing_aperture_write :
    let s := csrs { row [0xC1] [0] with platform := { board.platform with busErrors := [⟨0x80000000, 0x2000, true, true⟩] } }
      fun c => { c with outBase := 0x80000400 }
    let t := after .renderBw1 s
    t.csr.status.errCode = some .bus ∧ t.csr.outBase = 0x80000400 ∧ Table.get t.creg 7 = ⟨0, 0, 7⟩ := by decide +kernel

/-! ## States that meet the hypotheses of the statements -/

/-- A state with a command accepted and no host action pending. -/
def running (w : Word) (s : State) : State := { acceptWord w s with hostQ := [] }

theorem witness_DecodeInvertsEncode : Instr.wellFormed (.renderBplIlBe 4) = true ∧ Instr.wellFormed (.iscale 0 255) = true
    ∧ Instr.wellFormed .harvest = true := by decide

theorem witness_EveryCommandHasOneWord : decode 0x00041002 = .ok (.renderBplIlBe 4) := by decide

theorem witness_StepRunsDecodedCommand :
    let s := running 0x00020D02 board
    s.phase = .run ∧ hostActsFirst s = false ∧ decode s.csr.lastCmd = .ok (.renderBplLe 2)
      ∧ Instr.wellFormed (.renderBplLe 2) = true := by decide +kernel

theorem witness_CommandAcceptance :
    let s := { board with hostQ := [.writeCsr 0x008 .word 0x00000403, .wait] }
    s.phase = .idle ∧ s.hostQ = .writeCsr 0x008 .word 0x00000403 :: [.wait] := by decide +kernel

theorem witness_IllegalWordEndsInError :
    (running 8 board).phase = .run ∧ hostActsFirst (running 8 board) = false
      ∧ 8 ≤ (running 8 board).csr.lastCmd.toNat % 256
      ∧ (running 0x1402 board).csr.lastCmd.toNat % 256 = 2 ∧ 0x14 ≤ (running 0x1402 board).csr.lastCmd.toNat / 256 % 256
      ∧ (running 0x0503 board).csr.lastCmd.toNat % 256 = 3 ∧ 0x05 ≤ (running 0x0503 board).csr.lastCmd.toNat / 256 % 256
      ∧ decode (running 0x00050D02 board).csr.lastCmd = .error .reservedField := by decide +kernel

/-- Each alternative of the reserved-field test: NOP with ARG1, PALBUILD SUB 4, BAKE with ARG0, a bitplane RENDER of five
planes, ISCALE with SUB and IWSCALE with ARG0. -/
theorem witness_IllegalWordEndsInError_reserved :
    let op := fun w : Word => w.toNat % 256
    let sub := fun w : Word => w.toNat / 256 % 256
    let a0 := fun w : Word => w.toNat / 65536 % 256
    let a1 := fun w : Word => w.toNat / 16777216
    (op 0x01000000 = 0 ∧ a1 0x01000000 ≠ 0) ∧ (op 0x0401 = 1 ∧ 3 < sub 0x0401)
      ∧ (op 0x10003 = 3 ∧ a0 0x10003 ≠ 0 ∧ ¬ 5 ≤ sub 0x10003)
      ∧ (op 0x50D02 = 2 ∧ 0x0D ≤ sub 0x50D02 ∧ sub 0x50D02 ≤ 0x10 ∧ 4 < a0 0x50D02)
      ∧ (op 0x0105 = 5 ∧ sub 0x0105 ≠ 0) ∧ (op 0x10006 = 6 ∧ a0 0x10006 ≠ 0) := by decide

/-- The decidable part of `RenderReady`, off the aperture and without bus errors. -/
theorem renderReady_of (s : State) (width : Nat) (hb : s.platform.busErrors = [])
    (h : (s.csr.scaleW ≠ 0 ∧ s.csr.scaleH ≠ 0) ∧ (dataRegion s.csr).inRange = true ∧ (styleRegion s.csr).inRange = true
      ∧ (renderOut s.csr width).inRange = true ∧ (renderOut s.csr width).overlaps (dataRegion s.csr) = false
      ∧ (renderOut s.csr width).overlaps (styleRegion s.csr) = false)
    (ha : (dataRegion s.csr).base + (dataRegion s.csr).len ≤ s.platform.csrBase.toNat
      ∧ (styleRegion s.csr).base + (styleRegion s.csr).len ≤ s.platform.csrBase.toNat
      ∧ (renderOut s.csr width).base + (renderOut s.csr width).len ≤ s.platform.csrBase.toNat)
    (hh : s.inTouched = [] ∧ s.outTouched = []) : s.RenderReady width where
  scaleW := h.1.1
  scaleH := h.1.2
  dataIn := h.2.1
  styleIn := h.2.2.1
  outIn := h.2.2.2.1
  offData := h.2.2.2.2.1
  offStyle := h.2.2.2.2.2
  dataRead := State.readable_of_apart hb (.inl ha.1)
  styleRead := State.readable_of_apart hb (.inl ha.2.1)
  outWrite := State.writable_of_apart hb (.inl ha.2.2)
  host := hh

/-- Two rows of twelve bytes, the last two past cnt, at 2 x 3: for every packed, ANTIC, Apple, GTIA and byte renderer, and
for each plane count. -/
def twoRows : State :=
  csrs (row [1, 2, 3, 4, 5, 6, 7, 8, 9, 10, 11, 12, 13, 14, 15, 16, 17, 18, 19, 20, 21, 22] [0x80, 0x40]) fun c =>
    { c with bpr := 12, numRows := 2, scaleW := 2, scaleH := 3 }

theorem witness_RenderPackedPixels : twoRows.RenderReady (8 * twoRows.csr.bpr.toNat)
    ∧ twoRows.RenderReady (4 * twoRows.csr.bpr.toNat) ∧ twoRows.RenderReady (2 * twoRows.csr.bpr.toNat) :=
  ⟨renderReady_of _ _ rfl (by decide +kernel) (by decide +kernel) ⟨rfl, rfl⟩,
    renderReady_of _ _ rfl (by decide +kernel) (by decide +kernel) ⟨rfl, rfl⟩,
    renderReady_of _ _ rfl (by decide +kernel) (by decide +kernel) ⟨rfl, rfl⟩⟩

theorem witness_RenderAnticModes : twoRows.RenderReady (8 * twoRows.csr.bpr.toNat)
    ∧ twoRows.RenderReady (4 * twoRows.csr.bpr.toNat) :=
  ⟨witness_RenderPackedPixels.1, witness_RenderPackedPixels.2.1⟩

theorem witness_RenderAppleHires : twoRows.RenderReady (7 * twoRows.csr.bpr.toNat) :=
  renderReady_of _ _ rfl (by decide +kernel) (by decide +kernel) ⟨rfl, rfl⟩

theorem witness_RenderAppleArtifact : twoRows.RenderReady (7 * twoRows.csr.bpr.toNat) := witness_RenderAppleHires

/-- The full screen of 192 lines. -/
def fullScreen : State :=
  csrs (row [1] [0]) fun c => { c with bpr := 40, numRows := 192, dataLen := 8192, count := 8192
                                       dataBase := 0x10000, styleBase := 0x20000, outBase := 0x100000 }

theorem witness_RenderAppleScreenOrder : fullScreen.csr.bpr.toNat = 40 ∧ fullScreen.csr.numRows.toNat ≤ 192
    ∧ fullScreen.RenderReady 280 :=
  ⟨rfl, by decide +kernel, renderReady_of _ _ rfl (by decide +kernel) (by decide +kernel) ⟨rfl, rfl⟩⟩

theorem witness_RenderGtiaModes : twoRows.RenderReady (2 * twoRows.csr.bpr.toNat) := witness_RenderPackedPixels.2.2

theorem witness_RenderPlanes : ∀ n ∈ ([1, 2, 3, 4] : List Byte), 1 ≤ n.toNat ∧ n.toNat ≤ 4
    ∧ twoRows.csr.bpr.toNat % n.toNat = 0 ∧ twoRows.RenderReady (8 * twoRows.csr.bpr.toNat / n.toNat) := by
  intro n hn
  simp only [List.mem_cons, List.not_mem_nil, or_false] at hn
  rcases hn with rfl | rfl | rfl | rfl <;>
    exact ⟨by decide, by decide, rfl, renderReady_of _ _ rfl (by decide +kernel) (by decide +kernel) ⟨rfl, rfl⟩⟩

theorem witness_RenderAdjacentPlanes : ∀ n ∈ ([1, 2, 3, 4] : List Byte), 1 ≤ n.toNat ∧ n.toNat ≤ 4
    ∧ twoRows.csr.bpr.toNat % n.toNat = 0 ∧ twoRows.RenderReady (8 * twoRows.csr.bpr.toNat / n.toNat) :=
  witness_RenderPlanes

theorem witness_RenderInterleavedPlanes : ∀ n ∈ ([1, 2, 3, 4] : List Byte), 1 ≤ n.toNat ∧ n.toNat ≤ 4
    ∧ twoRows.csr.bpr.toNat % n.toNat = 0 ∧ twoRows.RenderReady (8 * twoRows.csr.bpr.toNat / n.toNat) :=
  witness_RenderPlanes

theorem witness_RenderBytePixels : twoRows.RenderReady twoRows.csr.bpr.toNat :=
  renderReady_of _ _ rfl (by decide +kernel) (by decide +kernel) ⟨rfl, rfl⟩

/-- The decidable part of `BakeReady`, off the aperture and without bus errors. -/
theorem bakeReady_of (s : State) (glyphs cw : Nat) (hb : s.platform.busErrors = [])
    (h : (blobRegion s.csr glyphs).inRange = true ∧ (bakedRegion s.csr cw).inRange = true
      ∧ (bakedRegion s.csr cw).overlaps (blobRegion s.csr glyphs) = false)
    (ha : (blobRegion s.csr glyphs).base + (blobRegion s.csr glyphs).len ≤ s.platform.csrBase.toNat
      ∧ (bakedRegion s.csr cw).base + (bakedRegion s.csr cw).len ≤ s.platform.csrBase.toNat)
    (hh : s.inTouched = [] ∧ s.outTouched = []) : s.BakeReady glyphs cw where
  fontIn := h.1
  outIn := h.2.1
  offFont := h.2.2
  fontRead := State.readable_of_apart hb (.inl ha.1)
  outWrite := State.writable_of_apart hb (.inl ha.2)
  host := hh

theorem witness_BakeEightWide : (fontWith 0x41 3).BakeReady 128 8 :=
  bakeReady_of _ _ _ rfl (by decide +kernel) (by decide +kernel) ⟨rfl, rfl⟩

theorem witness_BakeGr0Tables : (fontWith 0x41 3).BakeReady 128 8 := witness_BakeEightWide

theorem witness_BakeAntic4Tables : (fontWith 0x41 3).BakeReady 128 8 := witness_BakeEightWide

theorem witness_BakeGr12Tables : (fontWith 0x41 3).BakeReady 128 8 := witness_BakeEightWide

theorem witness_BakeAppleTables : (fontWith 0x41 3).csr.glyphs256 = false ∧ (fontWith 0x41 3).BakeReady 128 7
    ∧ (csrs (fontWith 0xC1 3) fun c => { c with glyphs256 := true }).BakeReady 256 7 :=
  ⟨rfl, bakeReady_of _ _ _ rfl (by decide +kernel) (by decide +kernel) ⟨rfl, rfl⟩,
    bakeReady_of _ _ _ rfl (by decide +kernel) (by decide +kernel) ⟨rfl, rfl⟩⟩

/-- A blinking slot at each end of 64..127, and a slot on either side that does not blink. -/
theorem witness_BlinkFramesDifferOnlyInBlinkSlots :
    let s := csrs (fontWith 0x41 3) fun c => { c with hasBlink := true }
    Instr.bakeApple ∈ [Instr.bakeGr0, .bakeAntic4, .bakeGr12Upper, .bakeGr12Lower, .bakeApple]
      ∧ s.BakeReady (if Instr.bakeApple = .bakeApple ∧ s.csr.glyphs256 = true then 256 else 128)
          (if Instr.bakeApple = .bakeApple then 7 else 8)
      ∧ s.csr.glyphs256 = false ∧ s.csr.hasBlink = true ∧ (∀ slot ∈ [63, 64, 127, 128], slot < 256) ∧ 7 < 8 ∧ 6 < 7 :=
  ⟨by decide, bakeReady_of _ _ _ rfl (by decide +kernel) (by decide +kernel) ⟨rfl, rfl⟩, rfl, rfl, by decide,
    by decide, by decide⟩

/-- The same statement's case of a bake without blink: an Atari mode. -/
theorem witness_BlinkFramesDifferOnlyInBlinkSlots_atari :
    let s := fontWith 0x41 3
    Instr.bakeGr0 ∈ [Instr.bakeGr0, .bakeAntic4, .bakeGr12Upper, .bakeGr12Lower, .bakeApple]
      ∧ s.BakeReady (if Instr.bakeGr0 = .bakeApple ∧ s.csr.glyphs256 = true then 256 else 128)
          (if Instr.bakeGr0 = .bakeApple then 7 else 8)
      ∧ 255 < 256 ∧ 7 < 8 :=
  ⟨by decide, witness_BakeEightWide, by decide, by decide⟩

theorem witness_FrenderDrawsText : textScreen.FontReady where
  zoom := by decide +kernel
  scaleH := by decide +kernel
  scaleW := by decide +kernel
  valid := rfl
  dataIn := by decide +kernel
  styleIn := by decide +kernel
  bakedIn := by decide +kernel
  outIn := by decide +kernel
  offData := by decide +kernel
  offStyle := by decide +kernel
  offBaked := by decide +kernel
  dataRead := State.readable_of_apart rfl (.inl (by decide +kernel))
  styleRead := State.readable_of_apart rfl (.inl (by decide +kernel))
  bakedRead := State.readable_of_apart rfl (.inl (by decide +kernel))
  outWrite := State.writable_of_apart rfl (.inl (by decide +kernel))
  host := ⟨rfl, rfl⟩

/-- The source of V5. -/
def twoPixels : State :=
  csrs { board with mem := poke [] 0x1000 [1, 2, 3, 4, 5, 6] } fun c =>
    { c with srcBase := 0x1000, srcW := 2, srcH := 1, outBase := 0x4000 }

theorem scalerReady_of (s : State) (sh sw : Nat) (hb : s.platform.busErrors = [])
    (h : sh ≠ 0 ∧ sw ≠ 0 ∧ (sourceRegion s.csr).inRange = true ∧ (scalerOut s.csr sh sw).inRange = true
      ∧ (scalerOut s.csr sh sw).overlaps (sourceRegion s.csr) = false)
    (ha : (sourceRegion s.csr).base + (sourceRegion s.csr).len ≤ s.platform.csrBase.toNat
      ∧ (scalerOut s.csr sh sw).base + (scalerOut s.csr sh sw).len ≤ s.platform.csrBase.toNat)
    (hh : s.inTouched = [] ∧ s.outTouched = []) : s.ScalerReady sh sw where
  factorH := h.1
  factorW := h.2.1
  srcIn := h.2.2.1
  outIn := h.2.2.2.1
  offSource := h.2.2.2.2
  srcRead := State.readable_of_apart hb (.inl ha.1)
  outWrite := State.writable_of_apart hb (.inl ha.2)
  host := hh

theorem witness_ScalerCopiesBlocks :
    (twoPixels.ScalerReady 2 3 ∧ scalerIdentity twoPixels.csr (.iscale 2 3) = false)
      ∧ (twoPixels.ScalerReady 1 255 ∧ scalerIdentity twoPixels.csr (.iwscale 255) = false)
      ∧ (twoPixels.ScalerReady 1 1 ∧ scalerIdentity twoPixels.csr (.iwscale 1) = false) :=
  ⟨⟨scalerReady_of _ _ _ rfl (by decide +kernel) (by decide +kernel) ⟨rfl, rfl⟩, by decide +kernel⟩,
    ⟨scalerReady_of _ _ _ rfl (by decide +kernel) (by decide +kernel) ⟨rfl, rfl⟩, by decide +kernel⟩,
    ⟨scalerReady_of _ _ _ rfl (by decide +kernel) (by decide +kernel) ⟨rfl, rfl⟩, by decide +kernel⟩⟩

theorem witness_ScalerIdentityChangesNothing :
    let s := csrs twoPixels fun c => { c with outBase := 0x1000 }
    scalerIdentity s.csr (.iscale 1 1) = true ∧ scalerIdentity s.csr (.iwscale 1) = true
      ∧ (sourceRegion s.csr).inRange = true := by decide +kernel

/-- `peanuts` has a record that marks and one that does not. -/
theorem witness_HarvestMarksInvalidCells : peanuts.HarvestReady ∧ peanuts.marks 0 = true ∧ peanuts.marks 1 = false :=
  ⟨{ planeIn := by decide +kernel
     listIn := by decide +kernel
     offList := by decide +kernel
     planeRead := State.readable_of_apart rfl (.inl (by decide +kernel))
     planeWrite := State.writable_of_apart rfl (.inl (by decide +kernel))
     listRead := State.readable_of_apart rfl (.inl (by decide +kernel))
     host := ⟨rfl, rfl⟩ }, by decide +kernel, by decide +kernel⟩

/-! ### Errors -/

theorem witness_ZeroFactorEndsInScale :
    scaleFails (csrs (row [1] [0]) fun c => { c with scaleH := 0 }).csr .renderHeatmap = true
      ∧ scaleFails (csrs textScreen fun c => { c with zoom := 0 }).csr .frender = true
      ∧ scaleFails twoPixels.csr (.iscale 0 1) = true ∧ scaleFails twoPixels.csr (.iwscale 0) = true
      ∧ Instr.wellFormed (.iscale 0 1) = true := by decide +kernel

theorem witness_BadGeometryEndsInGeometry :
    let tall := csrs fullScreen fun c => { c with numRows := 193 }
    Instr.wellFormed (.renderBplBe 3) = true ∧ scaleFails (row [1, 2, 3, 4] [0]).csr (.renderBplBe 3) = false
      ∧ geometryFails (row [1, 2, 3, 4] [0]).csr (.renderBplBe 3) = true
      ∧ scaleFails tall.csr .renderA2HiresScreen = false ∧ geometryFails tall.csr .renderA2HiresScreen = true := by
  decide +kernel

theorem witness_FrenderWithoutFontEndsInNoFont : scaleFails board.csr .frender = false
    ∧ board.csr.font.valid = false := by decide +kernel

theorem witness_RegionPastEndEndsInRange :
    let high := csrs board fun c => { c with bakeBase := 0xFFF90000 }
    Instr.wellFormed .bakeGr0 = true ∧ scaleFails high.csr .bakeGr0 = false ∧ geometryFails high.csr .bakeGr0 = false
      ∧ noFontFails high.csr .bakeGr0 = false ∧ rangeFails high.csr .bakeGr0 = true := by decide +kernel

theorem witness_OverlappingRegionsEndInOverlap :
    let s := csrs peanuts fun c => { c with jmList := 0x181F }
    Instr.wellFormed .harvest = true ∧ scaleFails s.csr .harvest = false ∧ geometryFails s.csr .harvest = false
      ∧ noFontFails s.csr .harvest = false ∧ rangeFails s.csr .harvest = false ∧ overlapFails s.csr .harvest = true := by
  decide +kernel

/-- A platform on which one range fails reads and writes. -/
def faulty (s : State) (base : Nat) : State :=
  { s with platform := { s.platform with busErrors := [⟨base, 1, true, true⟩] } }

/-- Regions below the aperture never meet it. -/
theorem off_aperture {s : State} {r : Region} (h : r.base + r.len ≤ s.platform.csrBase.toNat) (b : Nat)
    (hb : r.has b = true) : s.inAperture b = false := by
  rw [Region.has_iff] at hb
  exact State.inAperture_eq_false (.inl (by omega))

/-- A write: the last byte of the output fails. -/
theorem witness_FailingAccessEndsInBus :
    let s := faulty (row [0xC1] [0]) 0x4017
    Instr.wellFormed .renderBw1 = true ∧ scaleFails s.csr .renderBw1 = false ∧ geometryFails s.csr .renderBw1 = false
      ∧ noFontFails s.csr .renderBw1 = false ∧ rangeFails s.csr .renderBw1 = false
      ∧ overlapFails s.csr .renderBw1 = false ∧ Instr.renderBw1 ≠ .harvest ∧ s.busError .write 0x4017 = true
      ∧ (∀ b, (writeRegion s.csr .renderBw1).has b = true → s.inAperture b = false)
      ∧ s.accesses .renderBw1 .write 0x4017 := by
  intro s
  have checks : Instr.wellFormed .renderBw1 = true ∧ (scaleFails s.csr .renderBw1 || geometryFails s.csr .renderBw1
      || noFontFails s.csr .renderBw1 || rangeFails s.csr .renderBw1 || overlapFails s.csr .renderBw1) = false
      ∧ s.busError .write 0x4017 = true := by decide +kernel
  simp only [Bool.or_eq_false_iff] at checks
  obtain ⟨wf, ⟨⟨⟨⟨h1, h2⟩, h3⟩, h4⟩, h5⟩, hb⟩ := checks
  exact ⟨wf, h1, h2, h3, h4, h5, by decide, hb, off_aperture (by decide +kernel), rfl, by decide +kernel⟩

/-- Reads of the same command: its data byte and its style byte, each on a board where it alone fails. -/
theorem witness_FailingAccessEndsInBus_content :
    (row [0xC1] [0]).accesses .renderBw1 .read 0x1000 ∧ (row [0xC1] [0]).accesses .renderBw1 .read 0x1800
      ∧ (faulty (row [0xC1] [0]) 0x1800).busError .read 0x1800 = true
      ∧ fullScreen.accesses .renderA2HiresScreen .read 0x11FD0 :=
  ⟨⟨0, by decide +kernel, by decide +kernel, .inl rfl⟩, ⟨0, by decide +kernel, by decide +kernel, .inr rfl⟩,
    by decide +kernel, 191, 0, by decide +kernel, by decide, by decide +kernel, .inl (by decide +kernel)⟩

/-- Reads of a glyph byte by a BAKE, of a source byte by the scaler, and of a baked pixel by FRENDER. -/
theorem witness_FailingAccessEndsInBus_tables :
    (fontWith 0x41 3).accesses .bakeGr12Lower .read (0x1000 + 512) ∧ (fontWith 0x41 3).accesses .bakeGr0 .read 0x1000
      ∧ twoPixels.accesses (.iscale 2 3) .read 0x1005 ∧ twoPixels.accesses (.iwscale 3) .read 0x1000
      ∧ textScreen.accesses .frender .read (0x10000 + 252159) :=
  ⟨⟨512, by decide, by decide, by decide +kernel, rfl⟩, ⟨0, by decide, by decide, by decide +kernel, rfl⟩,
    ⟨by decide +kernel, by decide +kernel⟩, ⟨by decide +kernel, by decide +kernel⟩,
    .inr ⟨witness_FrenderDrawsText.dataRead, witness_FrenderDrawsText.styleRead, ⟨rfl, rfl⟩, 0, 2, 5, 0,
      by decide +kernel, by decide +kernel, by decide, by decide, by decide, by decide +kernel⟩⟩

/-- The last byte of the list, and the plane byte of a marking record for a read and for a write. -/
theorem witness_FailingAccessEndsHarvestInBus :
    let s := faulty peanuts 0x1007
    let p := faulty peanuts 0x1815
    rangeFails s.csr .harvest = false ∧ overlapFails s.csr .harvest = false
      ∧ (∀ b, (planeRegion s.csr).has b = true → s.inAperture b = false)
      ∧ s.accesses .harvest .read 0x1007 ∧ s.busError .read 0x1007 = true
      ∧ p.accesses .harvest .read 0x1815 ∧ p.busError .read 0x1815 = true
      ∧ p.accesses .harvest .write 0x1815 ∧ p.busError .write 0x1815 = true := by
  intro s p
  have hm : p.marksAt 0x1815 :=
    ⟨fun b hb => ⟨by
        rw [Region.has_iff] at hb
        have h : 0x1000 ≤ b ∧ b < 0x1008 := hb
        simp only [p, faulty, State.busError, List.any_cons, List.any_nil, Bool.or_false, Bool.and_eq_false_iff,
          decide_eq_false_iff_not]
        omega,
      off_aperture (r := listRegion p.csr) (by decide +kernel) b hb⟩, ⟨rfl, rfl⟩, 0, by decide +kernel,
      by decide +kernel, by decide +kernel⟩
  exact ⟨by decide +kernel, by decide +kernel, off_aperture (by decide +kernel), .inl (by decide +kernel),
    by decide +kernel, .inr hm, by decide +kernel, hm, by decide +kernel⟩

/-! ### The host's side -/

/-- NREG fields on each side of the legal range. -/
theorem witness_ConfigReadsBackWhatWasWritten : board.phase = .idle
    ∧ [0x00000000, 0x00000001, 0x00000100, 0x00000101].map nregIllegal = [true, false, false, true] := by decide +kernel

theorem witness_CregWindowReadsBack : board.phase = .idle := rfl

theorem witness_BusyWritesOnlySetWign : (running 0 board).phase = .run
    ∧ ([0x008, 0x020, 0x088, 0x400, 0x7FC] : List (BitVec 13)).all (fun off => decide (off.toNat % 4 = 0
      ∧ (off.toNat = 0x008 ∨ (0x020 ≤ off.toNat ∧ off.toNat ≤ 0x088) ∨ (0x400 ≤ off.toNat ∧ off.toNat ≤ 0x7FC)))) = true :=
  ⟨rfl, by decide +kernel⟩

theorem witness_ReadOnlyAndReservedOffsets : board.phase = .idle
    ∧ ([0x000, 0x08C, 0x090, 0x3FC, 0x800, 0x1FFC] : List (BitVec 13)).all (fun off => decide (off.toNat % 4 = 0
      ∧ (off.toNat ∈ [0x000, 0x014, 0x018, 0x01C, 0x08C] ∨ (0x090 ≤ off.toNat ∧ off.toNat < 0x400)
        ∨ 0x800 ≤ off.toNat))) = true
    ∧ (0x090 ≤ (0x3FC : BitVec 13).toNat ∧ (0x3FC : BitVec 13).toNat < 0x400) ∧ 0x1C00 ≤ (0x1C00 : BitVec 13).toNat
    ∧ (0x800 : BitVec 13).toNat = 0x800 + 0x400 * StyleClass.normal.index + 4 * (0 : Byte).toNat
    ∧ (0x1BFC : BitVec 13).toNat = 0x800 + 0x400 * StyleClass.data.index + 4 * (255 : Byte).toNat := by
  refine ⟨rfl, ?_⟩
  decide +kernel

theorem witness_CsrAccessSize : AccessSize.half ≠ .word ∧ AccessSize.wide ≠ .word ∧ (0x009 : BitVec 13).toNat % 4 ≠ 0 := by
  decide

theorem witness_BakeInputWritesInvalidateFont : textScreen.phase = .idle ∧ textScreen.csr.font.valid = true := ⟨rfl, rfl⟩

theorem witness_InterruptLineFollowsStatus : board.phase = .idle := rfl

theorem board_invariant : MachineInv board where
  memory := reset_memory_wf
  nreg := by decide +kernel
  oneEnd := by decide +kernel
  errCode := rfl
  running := by intro h; cases h
  resting := fun _ => ⟨rfl, rfl, rfl⟩

/-- The first and the last byte of the aperture, and the bytes on each side of it. -/
theorem witness_HostMemoryReadsBack : MachineInv board ∧ board.phase = .idle
    ∧ [0x80000000, 0x80001FFF].map board.inAperture = [true, true]
    ∧ [0x7FFFFFFF, 0x80002000].map board.inAperture = [false, false] :=
  ⟨board_invariant, rfl, by decide +kernel, by decide +kernel⟩

/-- A command accepted in a state that keeps the invariant leaves one that keeps it. -/
theorem running_invariant {s : State} (h : MachineInv s) (w : Word) : MachineInv (running w s) where
  memory := h.memory
  nreg := h.nreg
  oneEnd := by simp [running, acceptWord]
  errCode := rfl
  running := fun _ => ⟨rfl, rfl⟩
  resting := by intro hp; cases hp

/-- The invariant of a state that holds nothing of a command: its memory's form, NREG and STATUS are one finite check. -/
theorem resting_invariant {s : State} (hp : s.phase = .idle)
    (h : s.mem.wf ∧ (1 ≤ s.csr.nreg.toNat ∧ s.csr.nreg.toNat ≤ 256)
      ∧ s.csr.status = { done := false, err := false, wign := false, errCode := none })
    (hr : s.runFor = 0 ∧ s.hostKeptOff) : MachineInv s where
  memory := h.1
  nreg := h.2.1
  oneEnd := by simp [h.2.2]
  errCode := by rw [h.2.2]; rfl
  running := by intro hr; rw [hp] at hr; cases hr
  resting := fun _ => hr

/-- RENDER.BW1 in a state where nothing fails and the host kept off before, and a byte of its output, one of its data and
one of neither. -/
theorem witness_HostWritesDuringCommand :
    let s := running 0x00000002 (row [0xC1] [0])
    let i := Instr.renderBw1
    MachineInv s ∧ s.writable (writeRegion s.csr i) ∧ (∀ r ∈ readRegions s.csr i, s.readable r) ∧ s.hostKeptOff
      ∧ s.phase = .run ∧ decode s.csr.lastCmd = .ok i
      ∧ [scaleFails s.csr i, geometryFails s.csr i, noFontFails s.csr i, rangeFails s.csr i, overlapFails s.csr i,
          scalerIdentity s.csr i].any id = false
      ∧ [0x4000, 0x1000, 0x4018].map (fun a => (s.inAperture a, (writeRegion s.csr i).has a,
          (readRegions s.csr i).any (·.has a))) = [(false, true, false), (false, false, true), (false, false, false)] := by
  intro s i
  refine ⟨running_invariant (resting_invariant rfl (by decide +kernel) ⟨rfl, rfl, rfl⟩) _,
    State.writable_of_apart rfl (.inl (by decide +kernel)), ?_, ⟨rfl, rfl⟩, rfl, by decide +kernel⟩
  intro r hr
  simp only [readRegions, i, List.mem_cons, List.not_mem_nil, or_false] at hr
  rcases hr with rfl | rfl <;> exact State.readable_of_apart rfl (.inl (by decide +kernel))

/-- HARVEST with a byte of its plane that no record names, one that a record marks, and a byte of its list. -/
theorem witness_HostWritesDuringCommand_harvest :
    let s := running 7 peanuts
    MachineInv s ∧ s.HarvestReady ∧ s.marksAt 0x1815 ∧ s.phase = .run ∧ decode s.csr.lastCmd = .ok .harvest
      ∧ rangeFails s.csr .harvest = false ∧ overlapFails s.csr .harvest = false
      ∧ [0x1800, 0x1815, 0x1003].map (fun a => (s.inAperture a, (planeRegion s.csr).has a, (listRegion s.csr).has a)) =
          [(false, true, false), (false, true, false), (false, false, true)] := by
  intro s
  have ready : s.HarvestReady :=
    { planeIn := by decide +kernel
      listIn := by decide +kernel
      offList := by decide +kernel
      planeRead := State.readable_of_apart rfl (.inl (by decide +kernel))
      planeWrite := State.writable_of_apart rfl (.inl (by decide +kernel))
      listRead := State.readable_of_apart rfl (.inl (by decide +kernel))
      host := ⟨rfl, rfl⟩ }
  exact ⟨running_invariant (resting_invariant rfl (by decide +kernel) ⟨rfl, rfl, rfl⟩) _, ready,
    ⟨ready.listRead, ready.host, 0, by decide +kernel⟩, rfl, by decide +kernel⟩

theorem witness_InFlightReadIsOldOrFinal :
    let s := running 0x00000002 (row [0xC1] [0])
    s.phase = .run ∧ decode s.csr.lastCmd = .ok .renderBw1 ∧ (∃ t, exec .renderBw1 s = .next t)
      ∧ s.inAperture (0x4000 : Word).toNat = false ∧ (writeRegion s.csr .renderBw1).has (0x4000 : Word).toNat = true
      ∧ (writeRegion s.csr .renderBw1).has (0x4018 : Word).toNat = false :=
  ⟨rfl, by decide +kernel, (exec_cases _ _).elim (fun ⟨_, _, h⟩ => ⟨_, h⟩) (fun ⟨_, h⟩ => ⟨_, h⟩), by decide +kernel,
    by decide +kernel, by decide +kernel⟩

/-- In IDLE, with a word accepted that is no command, and during a command whose output is off the aperture. -/
theorem witness_SoftResetRestoresCsrs :
    let s := running 0x00000002 (row [0xC1] [0])
    (1 : Word).getLsbD 0 = true ∧ board.phase = .idle
      ∧ decode (running 8 board).csr.lastCmd = .error .badOpcode
      ∧ s.phase = .run ∧ decode s.csr.lastCmd = .ok .renderBw1
      ∧ ∀ a, (writeRegion s.csr .renderBw1).has a = true → s.inAperture a = false :=
  ⟨by decide, rfl, by decide +kernel, rfl, by decide +kernel, off_aperture (by decide +kernel)⟩

/-- A RENDER.BW1 of one row, which succeeds. -/
theorem bw1_succeeds :
    let s := running 0x00000002 (row [0xC1] [0])
    ∃ t, exec .renderBw1 s = .next t ∧ t.csr.status.done = true ∧ t.csr.status.errCode = none := by
  intro s
  obtain ⟨m, h, _⟩ := renderPlan_quiet (m := modeBw1 (bytesPerRow s)) (s := s) rfl
    (renderReady_of _ _ rfl (by decide +kernel) (by decide +kernel) ⟨rfl, rfl⟩)
  exact ⟨_, h, rfl, rfl⟩

theorem witness_SoftResetStopsCommandAnywhere :
    let s := running 0x00000002 (row [0xC1] [0])
    s.phase = .run ∧ (1 : Word).getLsbD 0 = true ∧ decode s.csr.lastCmd = .ok .renderBw1
      ∧ (∃ t, exec .renderBw1 s = .next t)
      ∧ ∀ a, (writeRegion s.csr .renderBw1).has a = true → s.inAperture a = false :=
  ⟨rfl, by decide, by decide +kernel, bw1_succeeds.elim fun t h => ⟨t, h.1⟩, off_aperture (by decide +kernel)⟩

theorem witness_ScreenRowOffsets : 0 < 192 ∧ 191 < 192 ∧ 0 < 40 ∧ 39 < 40
    ∧ screenRowOffset 191 + 39 = screenRowOffset 191 + 39 := by decide

theorem witness_ScalingLaws : 0 < 1 ∧ 2 < 3 := by decide

/-! ### The whole machine -/

theorem witness_StepKeepsInvariant :
    let s := { board with hostQ := [.writeCsr 0x008 .word 0x00000002] }
    MachineInv s ∧ step s = .next (hostStep s) :=
  ⟨⟨reset_memory_wf, board_invariant.nreg, board_invariant.oneEnd, rfl, (by intro h; cases h), fun _ => ⟨rfl, rfl, rfl⟩⟩, rfl⟩

/-- A command whose checks pass and none of whose accesses fails. -/
theorem witness_EveryCommandEnds :
    let s := row [0xC1] [0]
    Instr.wellFormed .renderBw1 = true ∧ scaleFails s.csr .renderBw1 = false ∧ geometryFails s.csr .renderBw1 = false
      ∧ noFontFails s.csr .renderBw1 = false ∧ rangeFails s.csr .renderBw1 = false
      ∧ overlapFails s.csr .renderBw1 = false ∧ ∀ a, ¬ s.failsAt .renderBw1 a := by
  intro s
  have none : ∀ a, ¬ s.failsAt .renderBw1 a := by
    rintro a (⟨_, h⟩ | ⟨_, _, _, h⟩) <;> rw [State.busError_of_none rfl] at h <;> cases h
  exact ⟨rfl, rfl, rfl, rfl, by decide +kernel, by decide +kernel, none⟩

theorem witness_BusyEndsInBoundedSteps : (running 0x00000403 board).phase = .run := rfl

theorem witness_CommandWritesOnlyItsRegion :
    let s := running 0x00000002 (row [0xC1] [0])
    (∃ t, exec .renderBw1 s = .next t) ∧ (writeRegion s.csr .renderBw1).has 0x4018 = false
      ∧ ∀ a, (writeRegion s.csr .renderBw1).has a = true → s.inAperture a = false :=
  ⟨bw1_succeeds.elim fun t h => ⟨t, h.1⟩, by decide +kernel, off_aperture (by decide +kernel)⟩

/-- Memory changed at an address that the command does not read. -/
theorem witness_OutputDependsOnlyOnReadRegions :
    let s := running 0x00000002 (row [0xC1] [0])
    let m := s.mem.write 0x9000 7
    (∀ r ∈ readRegions s.csr .renderBw1, ∀ a, r.has a = true → m.read a = s.mem.read a)
      ∧ (∃ t, exec .renderBw1 s = .next t ∧ t.csr.status.done = true)
      ∧ ∃ u, exec .renderBw1 { s with mem := m } = .next u := by
  refine ⟨?_, ?_, (exec_cases _ _).elim (fun ⟨_, _, h⟩ => ⟨_, h⟩) (fun ⟨_, h⟩ => ⟨_, h⟩)⟩
  · intro r hr a ha
    refine Memory.read_write_other _ _ _ _ ?_
    rintro rfl
    have : (readRegions (running 0x00000002 (row [0xC1] [0])).csr .renderBw1).all (!·.has 0x9000) = true := by
      decide +kernel
    have := List.all_eq_true.1 this r hr
    rw [ha] at this
    cases this
  · obtain ⟨t, h, hd, _⟩ := bw1_succeeds
    exact ⟨t, h, hd⟩

end Sys2Proof.Tests
end

section
/-! The family 10_state: CSR accesses of the wrong size or alignment (R58), and what a read of each register returns
right after a power-on reset (R68). -/

namespace Sys2Proof.Machine

/-! ### Access size and alignment -/

/-- An access that is no word, or not aligned, is none that the aperture answers (10_state R58). -/
theorem wordAccess_eq_false {off : BitVec 13} {size : AccessSize} (h : size ≠ .word ∨ off.toNat % 4 ≠ 0) :
    wordAccess off size = false := by
  rcases h with hsize | halign
  · simp [wordAccess, hsize]
  · simp [wordAccess, halign]

theorem hostAct_writeCsr_ignored {off : BitVec 13} {size : AccessSize} (h : wordAccess off size = false) (v : Word)
    (s : State) : hostAct (.writeCsr off size v) s = s := by
  simp [hostAct, h]

theorem hostAct_readCsr_zero {off : BitVec 13} {size : AccessSize} (h : wordAccess off size = false) (s : State) :
    (hostAct (.readCsr off size) s).readData = 0 := by
  simp [hostAct, h]

/-- A CSR read of any size, at any offset and in either phase, changes only what the host has read and the counter of
free draws: no register is cleared by reading it (10_state R58). -/
theorem hostAct_readCsr_frame (off : BitVec 13) (size : AccessSize) (s : State) :
    hostAct (.readCsr off size) s =
      { s with readData := (hostAct (.readCsr off size) s).readData, draws := s.draws + 1 } := rfl

/-- Settles O39: an access that is no aligned word fails the one test that every CSR access passes through, and the read
arm sets two fields only. -/
theorem csrAccessSize : Obligations.CsrAccessSize := by
  intro s off size v
  refine ⟨fun h => ?_, hostAct_readCsr_frame off size s⟩
  have ignored : wordAccess off size = false := wordAccess_eq_false h
  exact ⟨hostAct_writeCsr_ignored ignored v s, hostAct_readCsr_zero ignored s⟩

/-! ### Registers after a power-on reset -/

/-- A black colour register reads 0: most colour registers are black after a reset. -/
@[simp] theorem packRgb_black : packRgb .black = 0 := by decide

/-- The four bytes of each ANTIC register come from a vector of zeros after a reset. -/
@[simp] theorem antic_reset (k : Nat) (h : k < 9) : Csrs.reset.antic[k] = 0 := by
  simp [Csrs.reset]

theorem readConfig_reset_scale : readConfig Csrs.reset .scale = 0x00010101 := by decide

theorem readConfig_reset_palCtrl : readConfig Csrs.reset .palCtrl = 0x00000002 := by decide

/-- Every configuration register but SCALE and PAL_CTRL reads 0 after a reset (10_state R68). -/
theorem readConfig_reset_zero {r : ConfigReg} (hscale : r ≠ .scale) (hpal : r ≠ .palCtrl) :
    readConfig Csrs.reset r = 0 := by
  cases r with
  | scale => exact absurd rfl hscale
  | palCtrl => exact absurd rfl hpal
  | highlightBg | matchBg | commentBg | background | dataBg | emptyBg => exact packRgb_black
  | anticPm | anticPf | anticBk => simp [readConfig]
  | fontCtrl | fontSel => decide
  | geom | srcDim | jmOffs | jmCount => decide
  | dataBase | styleBase | dataLen | count | outBase | fontBase | fontLen | bakeBase | srcBase | jmList => rfl

theorem statusWord_reset : statusWord State.reset = 0 := by decide

theorem irqEnWord_reset : irqEnWord Csrs.reset = 0 := by decide

theorem fontStateWord_reset : fontStateWord Csrs.reset = 0 := by decide

theorem irqLine_reset : irqLine State.reset = false := rfl

/-- Settles O53: the registers that are not configuration by their fields at reset, the configuration registers by the
three values R68 has for them. -/
theorem resetValues : Obligations.ResetValues := by
  refine ⟨rfl, rfl, statusWord_reset, irqEnWord_reset, rfl, rfl, fontStateWord_reset, rfl, fun r => ?_, irqLine_reset⟩
  change readConfig Csrs.reset r = _
  split
  case h_1 => exact readConfig_reset_scale
  case h_2 => exact readConfig_reset_palCtrl
  case h_3 hscale hpal => exact readConfig_reset_zero hscale hpal

end Sys2Proof.Machine
end

section
/-! The family 30_encoding: the four fields of a command word as numbers, the decoder's outcome by field tests (R101,
R103..R105), and the step that runs a word which is no command. -/

namespace Sys2Proof

/-! ### The fields of a word (30_encoding R95) -/

theorem opField_toNat (w : Word) : (opField w).toNat = w.toNat % 256 := by
  simp [opField]

theorem subField_toNat (w : Word) : (subField w).toNat = w.toNat / 256 % 256 := by
  simp [subField, Nat.shiftRight_eq_div_pow]

theorem arg0Field_toNat (w : Word) : (arg0Field w).toNat = w.toNat / 65536 % 256 := by
  simp [arg0Field, Nat.shiftRight_eq_div_pow]

/-- ARG1 is the top byte, so no remainder is taken. -/
theorem arg1Field_toNat (w : Word) : (arg1Field w).toNat = w.toNat / 16777216 := by
  have hw : w.toNat < 2 ^ 32 := w.isLt
  simp only [arg1Field, BitVec.extractLsb'_toNat, Nat.shiftRight_eq_div_pow]
  omega

/-- A field test on numbers is the decoder's test on bytes. -/
theorem toNat_eq_zero_iff (b : Byte) : b.toNat = 0 ↔ b = 0 := by
  rw [← BitVec.toNat_inj]
  rfl

/-! ### The decoder of each OP (30_encoding R96..R102, R110) -/

/-- The bitplane renderers are the SUB values 0x0D..0x10, and take ARG0 as their plane count (30_encoding R101). -/
theorem decodeRender_eq_decodePlanes {sub : Byte} (hlo : 0x0D ≤ sub.toNat) (hhi : sub.toNat ≤ 0x10) (n : Byte) :
    ∃ mk, decodeRender sub n = decodePlanes mk n := by
  unfold decodeRender
  interval_cases sub.toNat <;> exact ⟨_, rfl⟩

/-- Every other SUB that names a renderer takes no ARG0 (30_encoding R101). -/
theorem decodeRender_eq_decodePlain {sub : Byte} (hsub : sub.toNat < 0x14)
    (hplain : ¬ (0x0D ≤ sub.toNat ∧ sub.toNat ≤ 0x10)) (n : Byte) : ∃ i, decodeRender sub n = decodePlain i n := by
  unfold decodeRender
  obtain hlo | hhi : sub.toNat < 0x0D ∨ 0x10 < sub.toNat := by omega
  · interval_cases sub.toNat <;> exact ⟨_, rfl⟩
  · interval_cases sub.toNat <;> exact ⟨_, rfl⟩

/-- OP 0x00, 0x04 and 0x07 are the commands of format Z (30_encoding R96, R97). -/
theorem decode_of_formatZ {w : Word} (hop : (opField w).toNat = 0 ∨ (opField w).toNat = 4 ∨ (opField w).toNat = 7) :
    ∃ i, decode w = decodeZ i (subField w) (arg0Field w) (arg1Field w) := by
  obtain hop | hop | hop := hop
  · exact ⟨.nop, by simp [decode, hop, ← BitVec.toNat_inj]⟩
  · exact ⟨.frender, by simp [decode, hop, ← BitVec.toNat_inj]⟩
  · exact ⟨.harvest, by simp [decode, hop, ← BitVec.toNat_inj]⟩

theorem decode_of_palbuild {w : Word} (hop : (opField w).toNat = 1) :
    decode w = if arg0Field w = 0 ∧ arg1Field w = 0 then decodePalbuild (subField w) else .error .reservedField := by
  simp [decode, hop, ← BitVec.toNat_inj]

theorem decode_of_render {w : Word} (hop : (opField w).toNat = 2) (hsub : (subField w).toNat < 0x14) :
    decode w = if arg1Field w = 0 then decodeRender (subField w) (arg0Field w) else .error .reservedField := by
  simp [decode, hop, hsub, ← BitVec.toNat_inj]

theorem decode_of_bake {w : Word} (hop : (opField w).toNat = 3) (hsub : (subField w).toNat < 0x05) :
    decode w = if arg0Field w = 0 ∧ arg1Field w = 0 then decodeBake (subField w) else .error .reservedField := by
  simp [decode, hop, hsub, ← BitVec.toNat_inj]

theorem decode_of_iscale {w : Word} (hop : (opField w).toNat = 5) :
    decode w = if subField w = 0 then .ok (.iscale (arg0Field w) (arg1Field w)) else .error .reservedField := by
  simp [decode, hop, ← BitVec.toNat_inj]

theorem decode_of_iwscale {w : Word} (hop : (opField w).toNat = 6) :
    decode w = if subField w = 0 ∧ arg0Field w = 0 then .ok (.iwscale (arg1Field w)) else .error .reservedField := by
  simp [decode, hop, ← BitVec.toNat_inj]

/-! ### Words that are no command (30_encoding R103..R105) -/

/-- An OP above 0x07 is illegal, whatever the other fields are (30_encoding R104). -/
theorem decode_badOpcode {w : Word} (hop : 8 ≤ (opField w).toNat) : decode w = .error .badOpcode := by
  simp [decode, hop]

/-- RENDER and BAKE know only the SUB values of their tables (30_encoding R105). -/
theorem decode_rendererNotFound {w : Word}
    (h : ((opField w).toNat = 2 ∧ 0x14 ≤ (subField w).toNat) ∨ ((opField w).toNat = 3 ∧ 0x05 ≤ (subField w).toNat)) :
    decode w = .error .rendererNotFound := by
  obtain ⟨hop, hsub⟩ | ⟨hop, hsub⟩ := h
  · simp [decode, hop, hsub, ← BitVec.toNat_inj]
  · simp [decode, hop, hsub, ← BitVec.toNat_inj]

/-- Format Z reserves all three fields after OP (30_encoding R96, R103). -/
theorem decode_reservedField_of_formatZ {w : Word}
    (hop : (opField w).toNat = 0 ∨ (opField w).toNat = 4 ∨ (opField w).toNat = 7)
    (h : (subField w).toNat ≠ 0 ∨ (arg0Field w).toNat ≠ 0 ∨ (arg1Field w).toNat ≠ 0) :
    decode w = .error .reservedField := by
  obtain ⟨i, hdecode⟩ := decode_of_formatZ hop
  simp only [ne_eq, toNat_eq_zero_iff] at h
  rw [hdecode, decodeZ, if_neg (by tauto)]

theorem decodePalbuild_reservedField {sub : Byte} (hsub : 3 < sub.toNat) :
    decodePalbuild sub = .error .reservedField := by
  unfold decodePalbuild
  split
  case h_5 => rfl
  all_goals omega

theorem decode_reservedField_of_palbuild {w : Word} (hop : (opField w).toNat = 1)
    (h : 3 < (subField w).toNat ∨ (arg0Field w).toNat ≠ 0 ∨ (arg1Field w).toNat ≠ 0) :
    decode w = .error .reservedField := by
  simp only [ne_eq, toNat_eq_zero_iff] at h
  rw [decode_of_palbuild hop]
  split
  case isTrue hargs => exact decodePalbuild_reservedField (by tauto)
  case isFalse => rfl

theorem decodePlanes_reservedField {n : Byte} (mk : Byte → Instr) (h : n.toNat < 1 ∨ 4 < n.toNat) :
    decodePlanes mk n = .error .reservedField := by
  have illegal : ¬ (1 ≤ n.toNat ∧ n.toNat ≤ 4) := by omega
  simp [decodePlanes, legalPlanes, illegal]

/-- ARG0 of a renderer: a plane count in 1..4 for the bitplane renderers and 0 for the others (30_encoding R101). -/
theorem decodeRender_reservedField {sub n : Byte} (hsub : sub.toNat < 0x14)
    (h : if 0x0D ≤ sub.toNat ∧ sub.toNat ≤ 0x10 then n.toNat < 1 ∨ 4 < n.toNat else n.toNat ≠ 0) :
    decodeRender sub n = .error .reservedField := by
  split at h
  case isTrue hplanes =>
    obtain ⟨mk, hrender⟩ := decodeRender_eq_decodePlanes hplanes.1 hplanes.2 n
    rw [hrender, decodePlanes_reservedField mk h]
  case isFalse hplain =>
    obtain ⟨i, hrender⟩ := decodeRender_eq_decodePlain hsub hplain n
    rw [hrender, decodePlain, if_neg (mt (toNat_eq_zero_iff n).2 h)]

theorem decode_reservedField_of_render {w : Word} (hop : (opField w).toNat = 2) (hsub : (subField w).toNat < 0x14)
    (h : (arg1Field w).toNat ≠ 0 ∨
      (if 0x0D ≤ (subField w).toNat ∧ (subField w).toNat ≤ 0x10 then (arg0Field w).toNat < 1 ∨ 4 < (arg0Field w).toNat
        else (arg0Field w).toNat ≠ 0)) :
    decode w = .error .reservedField := by
  rw [decode_of_render hop hsub]
  split
  case isTrue harg1 => exact decodeRender_reservedField hsub (h.resolve_left (not_not_intro (by simp [harg1])))
  case isFalse => rfl

theorem decode_reservedField_of_bake {w : Word} (hop : (opField w).toNat = 3) (hsub : (subField w).toNat < 0x05)
    (h : (arg0Field w).toNat ≠ 0 ∨ (arg1Field w).toNat ≠ 0) : decode w = .error .reservedField := by
  simp only [ne_eq, toNat_eq_zero_iff] at h
  rw [decode_of_bake hop hsub, if_neg (by tauto)]

theorem decode_reservedField_of_iscale {w : Word} (hop : (opField w).toNat = 5) (h : (subField w).toNat ≠ 0) :
    decode w = .error .reservedField := by
  rw [decode_of_iscale hop, if_neg (mt (toNat_eq_zero_iff _).2 h)]

theorem decode_reservedField_of_iwscale {w : Word} (hop : (opField w).toNat = 6)
    (h : (subField w).toNat ≠ 0 ∨ (arg0Field w).toNat ≠ 0) : decode w = .error .reservedField := by
  simp only [ne_eq, toNat_eq_zero_iff] at h
  rw [decode_of_iwscale hop, if_neg (by tauto)]

/-- Settles O4: each command word of R111 by its own decoding, each illegal word by the field test that it fails. -/
theorem decodeExamples : Obligations.DecodeExamples := by
  refine ⟨?nop, ?palbuildAntic, ?renderBw1, ?renderAnticE, ?renderBplLe, ?bakeApple, ?frender, ?iscale, ?iwscale, ?harvest,
    ?illegalOp, ?unknownRenderer, ?reservedArg0⟩
  case illegalOp => exact decode_badOpcode (by decide)
  case unknownRenderer => exact decode_rendererNotFound (by decide)
  case reservedArg0 => exact decode_reservedField_of_render (by decide) (by decide) (by decide)
  all_goals decide

end Sys2Proof

namespace Sys2Proof.Machine

/-! ### The step that runs a word which is no command -/

/-- A word that does not decode ends in the error response with its code, and the rest of the state stays (30_encoding
R103..R105, 60_exceptions R213). -/
theorem step_of_decode_error {s : State} (hrun : s.phase = .run) (hfirst : hostActsFirst s = false) {e : DecodeError}
    (hdecode : decode s.csr.lastCmd = .error e) : step s = .next (s.failedWith (decodeErrorCode e)) := by
  rw [← takeError_check]
  simp [step, runCommand, hrun, hfirst, hdecode]

/-- Settles O7: the field tests give the decode error, and the step that runs the word gives its error response. -/
theorem illegalWordEndsInError : Obligations.IllegalWordEndsInError := by
  intro s hrun hfirst
  simp only [← opField_toNat, ← subField_toNat, ← arg0Field_toNat, ← arg1Field_toNat]
  have ends {e : DecodeError} (hdecode : decode s.csr.lastCmd = .error e) :
      step s = .next (s.failedWith (decodeErrorCode e)) := step_of_decode_error hrun hfirst hdecode
  refine ⟨fun hop => ends (decode_badOpcode hop), fun hunknown => ends (decode_rendererNotFound hunknown),
    fun hknown hreserved => ends (e := .reservedField) ?_, ends⟩
  rcases hreserved with ⟨hop, h⟩ | ⟨hop, h⟩ | ⟨hop, h⟩ | ⟨hop, h⟩ | ⟨hop, h⟩ | ⟨hop, h⟩
  · exact decode_reservedField_of_formatZ hop h
  · exact decode_reservedField_of_palbuild hop h
  · exact decode_reservedField_of_bake hop (by omega) h
  · exact decode_reservedField_of_render hop (by omega) h
  · exact decode_reservedField_of_iscale hop h
  · exact decode_reservedField_of_iwscale hop h

end Sys2Proof.Machine
end

section
/-! The family 40_utilities: the bit-reverse table (R113) and its laws (R120). -/

namespace Sys2Proof.Machine

/-! ### Single bits of the table's entries -/

theorem bitOf_getLsbD (b : Byte) (i j : Nat) : (bitOf b i).getLsbD j = (decide (j = 0) && b.getLsbD i) := by
  by_cases hj : j = 0 <;> simp [bitOf, hj]

/-- A bit of an accumulated or is set when the start or one of the terms sets it. -/
theorem foldl_or_getLsbD {α : Type} (f : α → Byte) (xs : List α) (acc : Byte) (j : Nat) :
    (xs.foldl (fun acc x => acc ||| f x) acc).getLsbD j = (acc.getLsbD j || xs.any fun x => (f x).getLsbD j) := by
  induction xs generalizing acc with
  | nil => simp
  | cons x xs ih => simp [ih, Bool.or_assoc]

/-- Of the eight terms of R113 only the one of index 7 - j reaches bit j. -/
theorem bitReverse_term_getLsbD (b : Byte) {i j : Nat} (hi : i < 8) (hj : j < 8) :
    (bitOf b i <<< (7 - i)).getLsbD j = (decide (i = 7 - j) && b.getLsbD i) := by
  have hplace : (j < 8 ∧ ¬ j < 7 - i ∧ j - (7 - i) = 0) ↔ i = 7 - j := by omega
  simp only [BitVec.getLsbD_shiftLeft, bitOf_getLsbD, ← hplace, Bool.decide_and, decide_not, Bool.and_assoc]

theorem bitReverse_getLsbD (b : Byte) {j : Nat} (hj : j < 8) : (bitReverse b).getLsbD j = b.getLsbD (7 - j) := by
  have hstart : (0 : Byte).getLsbD j = false := BitVec.getLsbD_zero
  rw [bitReverse, foldl_or_getLsbD, hstart, Bool.false_or, Bool.eq_iff_iff, List.any_eq_true]
  constructor
  · rintro ⟨i, hi, hterm⟩
    rw [bitReverse_term_getLsbD b (List.mem_range.1 hi) hj, Bool.and_eq_true, decide_eq_true_iff] at hterm
    exact hterm.1 ▸ hterm.2
  · intro hbit
    have hi : 7 - j < 8 := by omega
    exact ⟨7 - j, List.mem_range.2 hi, by simp only [bitReverse_term_getLsbD b hi hj, hbit, decide_true, Bool.and_self]⟩

theorem bitReverse_bitReverse (b : Byte) : bitReverse (bitReverse b) = b := by
  apply BitVec.eq_of_getLsbD_eq
  intro j hj
  have hback : 7 - (7 - j) = j := by omega
  rw [bitReverse_getLsbD _ hj, bitReverse_getLsbD _ (by omega), hback]

/-! ### The bytes that read the same in both bit orders (R120) -/

/-- The byte whose low half is `n` and whose high half mirrors it. -/
def palindrome (n : BitVec 4) : Byte := bitReverse (n.setWidth 8) ||| n.setWidth 8

theorem palindrome_getLsbD (n : BitVec 4) {j : Nat} (hj : j < 8) :
    (palindrome n).getLsbD j = (n.getLsbD (7 - j) || n.getLsbD j) := by
  have hmirror : 7 - j < 8 := by omega
  simp only [palindrome, BitVec.getLsbD_or, bitReverse_getLsbD _ hj, BitVec.getLsbD_setWidth, hj, hmirror, decide_true,
    Bool.true_and]

theorem bitReverse_palindrome (n : BitVec 4) : bitReverse (palindrome n) = palindrome n := by
  apply BitVec.eq_of_getLsbD_eq
  intro j hj
  have hback : 7 - (7 - j) = j := by omega
  rw [bitReverse_getLsbD _ hj, palindrome_getLsbD _ (by omega), palindrome_getLsbD _ hj, hback, Bool.or_comm]

theorem setWidth_palindrome (n : BitVec 4) : (palindrome n).setWidth 4 = n := by
  apply BitVec.eq_of_getLsbD_eq
  intro j hj
  have hhigh : n.getLsbD (7 - j) = false := BitVec.getLsbD_of_ge _ _ (by omega)
  simp [palindrome_getLsbD n (show j < 8 by omega), hj, hhigh]

/-- A byte that the table fixes is determined by its low half. -/
theorem palindrome_setWidth {b : Byte} (hfixed : bitReverse b = b) : palindrome (b.setWidth 4) = b := by
  apply BitVec.eq_of_getLsbD_eq
  intro j hj
  have hmirror : b.getLsbD (7 - j) = b.getLsbD j := by rw [← bitReverse_getLsbD b hj, hfixed]
  rw [palindrome_getLsbD _ hj, BitVec.getLsbD_setWidth, BitVec.getLsbD_setWidth, hmirror]
  obtain hlow | hhigh : j < 4 ∨ 7 - j < 4 := by omega
  · simp [hlow]
  · simp [hhigh]

/-- The fixed bytes correspond to their low halves, of which there are 2 ^ 4. -/
theorem countP_bitReverse_fixed :
    ((List.range 256).countP fun k => bitReverse (BitVec.ofNat 8 k) == BitVec.ofNat 8 k) = 16 := by
  have hcount : Nat.count (fun k => bitReverse (BitVec.ofNat 8 k) = BitVec.ofNat 8 k) 256
      = (Finset.univ : Finset (BitVec 4)).card := by
    rw [Nat.count_eq_card_filter_range]
    refine Finset.card_nbij' (fun k => (BitVec.ofNat 8 k).setWidth 4) (fun n => (palindrome n).toNat) ?_ ?_ ?_ ?_
    · exact fun _ _ => Finset.mem_coe.2 (Finset.mem_univ _)
    · intro n _
      simpa [bitReverse_palindrome] using (palindrome n).isLt
    · intro k hk
      obtain ⟨hlt, hfixed⟩ : k < 256 ∧ bitReverse (BitVec.ofNat 8 k) = BitVec.ofNat 8 k := by simpa using hk
      simp only [palindrome_setWidth hfixed, BitVec.toNat_ofNat]
      omega
    · intro n _
      simp only [BitVec.ofNat_toNat, BitVec.setWidth_eq, setWidth_palindrome]
  calc _ = (Finset.univ : Finset (BitVec 4)).card := hcount
    _ = 16 := by simp only [Finset.card_univ, ← FinEnum.card_eq_fintypeCard, FinEnum.card_bitVec, Nat.reducePow]

/-- Settles O47: the laws by single bits, the count by the low halves of the fixed bytes, the listed values by evaluation. -/
theorem bitReverseTable : Obligations.BitReverseTable := by
  refine ⟨fun b i => ?bits, ?values, bitReverse_bitReverse, countP_bitReverse_fixed, ?fixed⟩
  case bits =>
    have hback : 7 - (7 - i.val) = i.val := by omega
    rw [bitReverse_getLsbD b (by omega), hback]
  case values => decide
  case fixed => decide

end Sys2Proof.Machine
end

section
/-! The family 41_palette: Blend (R125) and Dim (R126), channel by channel. -/

namespace Sys2Proof.Machine

/-- The average of two bytes is a byte: nothing of it is cut off (41_palette R125). -/
theorem blendChannel_toNat (x y : Byte) : (blendChannel x y).toNat = (x.toNat + y.toNat) / 2 := by
  have hfits : (x.toNat + y.toNat) / 2 < 2 ^ 8 := by omega
  rw [blendChannel, BitVec.toNat_ofNat, Nat.mod_eq_of_lt hfits]

@[simp] theorem blendChannel_self (x : Byte) : blendChannel x x = x := by
  apply BitVec.eq_of_toNat_eq
  rw [blendChannel_toNat]
  omega

@[simp] theorem blend_self (a : RGB) : blend a a = a := by
  simp only [blend, blendChannel_self]

/-- The clamped integer is a byte (00_scope R9). -/
theorem clamp8_toNat (v : Int) : ((clamp8 v).toNat : Int) = max 0 (min 255 v) := by
  have hfits : (max 0 (min 255 v)).toNat < 2 ^ 8 := by omega
  rw [clamp8, BitVec.toNat_ofNat, Nat.mod_eq_of_lt hfits, Int.toNat_of_nonneg (le_max_left 0 _)]

theorem dimChannel_toNat (x p q : Byte) :
    ((dimChannel x p q).toNat : Int) = max 0 (min 255 ((x.toNat : Int) - (p.toNat - q.toNat))) :=
  clamp8_toNat _

/-- Equal backgrounds shift by 0, and the clamp leaves a byte as it is (41_palette R126). -/
@[simp] theorem dimChannel_self (x p : Byte) : dimChannel x p p = x := by
  have hvalue := dimChannel_toNat x p p
  apply BitVec.eq_of_toNat_eq
  omega

@[simp] theorem dim_self (a w : RGB) : dim a w w = a := by
  simp only [dim, dimChannel_self]

/-- A window background at or above the data background darkens by the difference, down to 0 (41_palette R126). -/
theorem dimChannel_toNat_of_le (x : Byte) {p q : Byte} (hle : q.toNat ≤ p.toNat) :
    (dimChannel x p q).toNat = x.toNat - (p.toNat - q.toNat) := by
  have hvalue := dimChannel_toNat x p q
  omega

/-- Settles O49: each colour by its three channels, the two examples of Blend by evaluation. -/
theorem blendAndDim : Obligations.BlendAndDim := by
  intro a w d
  have hdarker (x : Byte) : (dimChannel x 255 224).toNat = x.toNat - 31 := dimChannel_toNat_of_le x (by decide)
  refine ⟨?average_r, ?average_g, ?average_b, blend_self a, by decide, by decide,
    ?shifted_r, ?shifted_g, ?shifted_b, dim_self a w, hdarker a.r, hdarker a.g, hdarker a.b⟩
  case average_r | average_g | average_b => exact blendChannel_toNat _ _
  case shifted_r | shifted_g | shifted_b => exact dimChannel_toNat _ _ _

end Sys2Proof.Machine
end

section
/-! The family 45_style_composer: the style class by the size of the style byte (R199), and the ignore mask (R200, R203). -/

namespace Sys2Proof.Machine

/-- Where no higher bit is set, the test of the one bit i in the cascade of R199 compares the byte with 2 ^ i. -/
theorem and_twoPow_eq_iff_le (b : Byte) {i : Nat} (hi : i < 8) (hhigher : b.toNat < 2 ^ (i + 1)) :
    b &&& BitVec.twoPow 8 i = BitVec.twoPow 8 i ↔ 2 ^ i ≤ b.toNat := by
  have hpos : 0 < 2 ^ i := Nat.two_pow_pos i
  have hquot : b.toNat / 2 ^ i < 2 := Nat.div_lt_of_lt_mul (by rwa [← Nat.pow_succ])
  calc b &&& BitVec.twoPow 8 i = BitVec.twoPow 8 i
      ↔ (b.toNat.testBit i).toNat * 2 ^ i = 2 ^ i := by
        rw [BitVec.toNat_eq, BitVec.toNat_and, BitVec.toNat_twoPow_of_lt hi, Nat.and_two_pow]
    _ ↔ b.toNat / 2 ^ i = 1 := by
        rw [Nat.mul_eq_right hpos.ne', Nat.toNat_testBit, Nat.mod_eq_of_lt hquot]
    _ ↔ 2 ^ i ≤ b.toNat := by rw [← Nat.one_le_div_iff hpos]; omega

/-- The cascade of single-bit tests is a cascade of thresholds: each test stands where the higher bits are clear (R199). -/
theorem styleClass_eq_of_le (b : Byte) :
    styleClass b =
      if 128 ≤ b.toNat then .highlight else if 64 ≤ b.toNat then .matched else if 32 ≤ b.toNat then .comment
      else if 16 ≤ b.toNat then .data else .normal := by
  have hbyte : b.toNat < 256 := b.isLt
  unfold styleClass
  refine ite_congr (propext (and_twoPow_eq_iff_le b (i := 7) (by decide) hbyte)) (fun _ => rfl) fun h128 => ?_
  refine ite_congr (propext (and_twoPow_eq_iff_le b (i := 6) (by decide) (by omega))) (fun _ => rfl) fun h64 => ?_
  refine ite_congr (propext (and_twoPow_eq_iff_le b (i := 5) (by decide) (by omega))) (fun _ => rfl) fun h32 => ?_
  exact ite_congr (propext (and_twoPow_eq_iff_le b (i := 4) (by decide) (by omega))) (fun _ => rfl) fun _ => rfl

theorem styleClass_index (b : Byte) :
    (styleClass b).index =
      if 128 ≤ b.toNat then 1 else if 64 ≤ b.toNat then 2 else if 32 ≤ b.toNat then 3 else if 16 ≤ b.toNat then 4
      else 0 := by
  rw [styleClass_eq_of_le]
  simp only [apply_ite StyleClass.index]
  rfl

theorem styleClass_index_eq_zero_iff (b : Byte) : (styleClass b).index = 0 ↔ b.toNat < 16 := by
  rw [styleClass_index]
  grind

/-- The ignore mask clears the low four bits (R200). -/
theorem and_ignoreMask_toNat (b : Byte) : (b &&& 0xF0).toNat = b.toNat / 16 * 16 := by
  have hmask : (0xF0 : Byte) = BitVec.allOnes 8 <<< 4 := by decide
  have hbyte : b.toNat < 256 := b.isLt
  rw [hmask, ← BitVec.shiftLeft_ushiftRight, BitVec.toNat_shiftLeft, BitVec.toNat_ushiftRight, Nat.shiftRight_eq_div_pow, Nat.shiftLeft_eq]
  omega

/-- Every threshold is a multiple of 16, so the bits under the mask never decide (R203). -/
theorem styleClass_and_ignoreMask (b : Byte) : styleClass (b &&& 0xF0) = styleClass b := by
  have hthreshold (k : Nat) : 16 * k ≤ b.toNat / 16 * 16 ↔ 16 * k ≤ b.toNat := by omega
  simp only [styleClass_eq_of_le, and_ignoreMask_toNat, hthreshold 8, hthreshold 4, hthreshold 2, hthreshold 1]

theorem and_ignoreMask_eq_zero_iff (b : Byte) : b &&& 0xF0 = 0 ↔ b.toNat < 16 := by
  rw [← toNat_eq_zero_iff, and_ignoreMask_toNat]
  omega

/-- Settles O50: the cascade as thresholds of the style byte, which the ignore mask rounds down to a multiple of 16. -/
theorem styleClassPrecedence : Obligations.StyleClassPrecedence := by
  intro s
  refine ⟨styleClass_index s, ?normal, (styleClass_and_ignoreMask s).symm⟩
  case normal => rw [styleClass_index_eq_zero_iff, and_ignoreMask_eq_zero_iff]

end Sys2Proof.Machine
end

section
/-! The family 46_jumpman: the harvest-grid predicate (R204) and its values (R210). -/

namespace Sys2Proof.Machine

theorem invalidCell_iff (hx hy x y : Nat) :
    invalidCell hx hy x y = true ↔ (x + 0x30 + hx) % 32 < 7 ∨ (2 * y + 0x20 + hy) % 32 < 5 := by
  simp only [invalidCell, Bool.or_eq_true, decide_eq_true_eq]

/-- The x part marks 7 columns of every 32; an offset of up to 16 moves them left by as much, without wrapping (46_jumpman R210). -/
theorem invalidColumn_iff (x : Nat) {hx : Nat} (hle : hx ≤ 16) :
    (x + 0x30 + hx) % 32 < 7 ↔ 16 - hx ≤ x % 32 ∧ x % 32 ≤ 22 - hx := by
  omega

/-- The y part has period 16: it doubles y before the low five bits are kept (46_jumpman R210). -/
theorem invalidRow_iff (y : Nat) : (2 * y + 0x20 + 0) % 32 < 5 ↔ y % 16 ≤ 2 := by
  omega

theorem invalidCell_iff_of_le (x y : Nat) {hx : Nat} (hle : hx ≤ 16) :
    invalidCell hx 0 x y = true ↔ (16 - hx ≤ x % 32 ∧ x % 32 ≤ 22 - hx) ∨ y % 16 ≤ 2 := by
  rw [invalidCell_iff, invalidColumn_iff x hle, invalidRow_iff]

/-- Settles O52: the offsets 0 and 1 are cases of one column range, and the three valid cells are evaluated. -/
theorem harvestGridCells : Obligations.HarvestGridCells := by
  intro x y hx hy
  have hno_offset := invalidCell_iff_of_le x y (hx := 0) (by decide)
  have hoffset_one := invalidCell_iff_of_le x y (hx := 1) (by decide)
  exact ⟨invalidCell_iff hx hy x y, hno_offset, hoffset_one, by decide, by decide, by decide⟩

end Sys2Proof.Machine
end

section
/-! The family 30_encoding, both directions: the encoder and the decoder are inverse to each other (R95..R102, R107, R108), and
a word that passes every field test decodes (R110). -/

namespace Sys2Proof

/-! ### Decoding an encoded command -/

theorem decodePlanes_of_legal {n : Byte} (hn : legalPlanes n = true) (mk : Byte → Instr) :
    decodePlanes mk n = .ok (mk n) := if_pos hn

theorem decodePlain_zero (i : Instr) : decodePlain i 0 = .ok i := rfl

/-- The word of a bitplane renderer with a legal plane count (30_encoding R101). -/
theorem decode_planesWord {sub n : Byte} {mk : Byte → Instr} (hsub : sub.toNat < 0x14) (hn : legalPlanes n = true)
    (hmk : decodeRender sub n = decodePlanes mk n) : decode (wordOfFields (0x02, sub, n, 0)) = .ok (mk n) := by
  rw [decode_of_render (by rw [opField_word]; rfl) (by rwa [subField_word]), subField_word, arg0Field_word,
    arg1Field_word, if_pos rfl, hmk, decodePlanes_of_legal hn]

/-- Settles O1: the four fields of the word are the command's, and each command's fields lead the decoder back to it. -/
theorem decodeInvertsEncode : Obligations.DecodeInvertsEncode := by
  intro i hwf
  cases i with
  | renderBplLe n => exact decode_planesWord (by decide) hwf rfl
  | renderBplBe n => exact decode_planesWord (by decide) hwf rfl
  | renderBplIlLe n => exact decode_planesWord (by decide) hwf rfl
  | renderBplIlBe n => exact decode_planesWord (by decide) hwf rfl
  | iscale sh sw =>
    rw [encode, decode_of_iscale (by rw [opField_word]; rfl), subField_word, arg0Field_word, arg1Field_word]
    rfl
  | iwscale sw =>
    rw [encode, decode_of_iwscale (by rw [opField_word]; rfl), subField_word, arg0Field_word, arg1Field_word]
    rfl
  | _ => decide

/-! ### A command has one word -/

/-- What the decoder's parts have in common: the command they answer is well formed and its fields are those they read. -/
def Instr.HasFields (i : Instr) (op sub arg0 arg1 : Byte) : Prop :=
  i.wellFormed = true ∧ i.fields = (op, sub, arg0, arg1)

theorem byte_eq_of_toNat {b : Byte} {k : Nat} (h : b.toNat = k) : b = BitVec.ofNat 8 k := by
  rw [← h, BitVec.ofNat_toNat, BitVec.setWidth_eq]

theorem hasFields_of_decodeZ {op sub arg0 arg1 : Byte} {i j : Instr} (hi : i.HasFields op 0 0 0)
    (h : decodeZ i sub arg0 arg1 = .ok j) : j.HasFields op sub arg0 arg1 := by
  unfold decodeZ at h
  split at h
  case isTrue hzero =>
    obtain ⟨rfl, rfl, rfl⟩ := hzero
    cases h
    exact hi
  case isFalse => cases h

theorem hasFields_of_decodePlain {sub arg0 : Byte} {i j : Instr} (hi : i.HasFields 0x02 sub 0 0)
    (h : decodePlain i arg0 = .ok j) : j.HasFields 0x02 sub arg0 0 := by
  unfold decodePlain at h
  split at h
  case isTrue hzero =>
    subst hzero
    cases h
    exact hi
  case isFalse => cases h

theorem hasFields_of_decodePlanes {sub n : Byte} {mk : Byte → Instr} {j : Instr}
    (hmk : legalPlanes n = true → (mk n).HasFields 0x02 sub n 0) (h : decodePlanes mk n = .ok j) :
    j.HasFields 0x02 sub n 0 := by
  unfold decodePlanes at h
  split at h
  case isTrue hn =>
    cases h
    exact hmk hn
  case isFalse => cases h

theorem hasFields_of_decodePalbuild {sub : Byte} {i : Instr} (h : decodePalbuild sub = .ok i) :
    i.HasFields 0x01 sub 0 0 := by
  unfold decodePalbuild at h
  split at h
  case h_5 => cases h
  all_goals
    rename_i hsub
    cases byte_eq_of_toNat hsub
    cases h
    exact ⟨rfl, rfl⟩

theorem hasFields_of_decodeBake {sub : Byte} {i : Instr} (h : decodeBake sub = .ok i) : i.HasFields 0x03 sub 0 0 := by
  unfold decodeBake at h
  split at h
  case h_6 => cases h
  all_goals
    rename_i hsub
    cases byte_eq_of_toNat hsub
    cases h
    exact ⟨rfl, rfl⟩

theorem hasFields_of_decodeRender {sub arg0 : Byte} {i : Instr} (h : decodeRender sub arg0 = .ok i) :
    i.HasFields 0x02 sub arg0 0 := by
  unfold decodeRender at h
  split at h
  case h_21 => cases h
  case h_14 hsub | h_15 hsub | h_16 hsub | h_17 hsub =>
    cases byte_eq_of_toNat hsub
    refine hasFields_of_decodePlanes ?_ h
    exact fun hn => ⟨hn, rfl⟩
  all_goals
    rename_i hsub
    cases byte_eq_of_toNat hsub
    exact hasFields_of_decodePlain ⟨rfl, rfl⟩ h

/-- The decoder ignores no field: each one is the answered command's (30_encoding R103, R107). -/
theorem hasFields_of_decode {w : Word} {i : Instr} (h : decode w = .ok i) :
    i.HasFields (opField w) (subField w) (arg0Field w) (arg1Field w) := by
  unfold decode at h
  simp only at h
  split at h
  · cases h
  split at h
  · cases h
  split at h
  · cases h
  split at h
  case h_1 hop => rw [byte_eq_of_toNat hop]; exact hasFields_of_decodeZ ⟨rfl, rfl⟩ h
  case h_2 hop =>
    rw [byte_eq_of_toNat hop]
    split at h
    case isTrue hargs => rw [hargs.1, hargs.2]; exact hasFields_of_decodePalbuild h
    case isFalse => cases h
  case h_3 hop =>
    rw [byte_eq_of_toNat hop]
    split at h
    case isTrue harg => rw [harg]; exact hasFields_of_decodeRender h
    case isFalse => cases h
  case h_4 hop =>
    rw [byte_eq_of_toNat hop]
    split at h
    case isTrue hargs => rw [hargs.1, hargs.2]; exact hasFields_of_decodeBake h
    case isFalse => cases h
  case h_5 hop => rw [byte_eq_of_toNat hop]; exact hasFields_of_decodeZ ⟨rfl, rfl⟩ h
  case h_6 hop =>
    rw [byte_eq_of_toNat hop]
    split at h
    case isTrue hsub => rw [hsub]; cases h; exact ⟨rfl, rfl⟩
    case isFalse => cases h
  case h_7 hop =>
    rw [byte_eq_of_toNat hop]
    split at h
    case isTrue hargs => rw [hargs.1, hargs.2]; cases h; exact ⟨rfl, rfl⟩
    case isFalse => cases h
  case h_8 hop => rw [byte_eq_of_toNat hop]; exact hasFields_of_decodeZ ⟨rfl, rfl⟩ h
  case h_9 => cases h

/-- Settles O2: the decoded command has the word's four fields, and a word is determined by them. -/
theorem everyCommandHasOneWord : Obligations.EveryCommandHasOneWord := by
  intro w i h
  obtain ⟨hwf, hfields⟩ := hasFields_of_decode h
  exact ⟨hwf, by rw [encode, hfields, wordOfFields_fields]⟩

/-! ### A word that passes every field test decodes -/

theorem decodeZ_zero (i : Instr) : decodeZ i 0 0 0 = .ok i := rfl

theorem decodePalbuild_ok {sub : Byte} (hsub : sub.toNat ≤ 3) : ∃ i, decodePalbuild sub = .ok i := by
  unfold decodePalbuild
  interval_cases sub.toNat <;> exact ⟨_, rfl⟩

theorem decodeBake_ok {sub : Byte} (hsub : sub.toNat < 5) : ∃ i, decodeBake sub = .ok i := by
  unfold decodeBake
  interval_cases sub.toNat <;> exact ⟨_, rfl⟩

theorem decodeRender_ok {sub n : Byte} (hsub : sub.toNat < 0x14)
    (h : ¬ if 0x0D ≤ sub.toNat ∧ sub.toNat ≤ 0x10 then n.toNat < 1 ∨ 4 < n.toNat else n.toNat ≠ 0) :
    ∃ i, decodeRender sub n = .ok i := by
  split at h
  case isTrue hplanes =>
    obtain ⟨mk, hrender⟩ := decodeRender_eq_decodePlanes hplanes.1 hplanes.2 n
    have legal : legalPlanes n = true := by
      simp only [legalPlanes, Bool.and_eq_true, decide_eq_true_eq]
      omega
    exact ⟨mk n, by rw [hrender, decodePlanes_of_legal legal]⟩
  case isFalse hplain =>
    obtain ⟨i, hrender⟩ := decodeRender_eq_decodePlain hsub hplain n
    rw [not_not, toNat_eq_zero_iff] at h
    exact ⟨i, by rw [hrender, h, decodePlain_zero]⟩

/-- RENDER and BAKE words whose SUB is past their tables (30_encoding R105). -/
def unknownRenderer (op sub : Nat) : Prop := (op = 2 ∧ 0x14 ≤ sub) ∨ (op = 3 ∧ 0x05 ≤ sub)

/-- A reserved field is set, by the field tests of each OP (30_encoding R101, R103). -/
def reservedSet (op sub a0 a1 : Nat) : Prop :=
  ((op = 0 ∨ op = 4 ∨ op = 7) ∧ (sub ≠ 0 ∨ a0 ≠ 0 ∨ a1 ≠ 0))
    ∨ (op = 1 ∧ (3 < sub ∨ a0 ≠ 0 ∨ a1 ≠ 0))
    ∨ (op = 3 ∧ (a0 ≠ 0 ∨ a1 ≠ 0))
    ∨ (op = 2 ∧ (a1 ≠ 0 ∨ (if 0x0D ≤ sub ∧ sub ≤ 0x10 then a0 < 1 ∨ 4 < a0 else a0 ≠ 0)))
    ∨ (op = 5 ∧ sub ≠ 0)
    ∨ (op = 6 ∧ (sub ≠ 0 ∨ a0 ≠ 0))

theorem decode_reservedField_of_reservedSet {w : Word} (hknown : ¬ unknownRenderer (opField w).toNat (subField w).toNat)
    (h : reservedSet (opField w).toNat (subField w).toNat (arg0Field w).toNat (arg1Field w).toNat) :
    decode w = .error .reservedField := by
  unfold unknownRenderer at hknown
  rcases h with ⟨hop, h⟩ | ⟨hop, h⟩ | ⟨hop, h⟩ | ⟨hop, h⟩ | ⟨hop, h⟩ | ⟨hop, h⟩
  · exact decode_reservedField_of_formatZ hop h
  · exact decode_reservedField_of_palbuild hop h
  · exact decode_reservedField_of_bake hop (by omega) h
  · exact decode_reservedField_of_render hop (by omega) h
  · exact decode_reservedField_of_iscale hop h
  · exact decode_reservedField_of_iwscale hop h

/-- The tests of R110 are all the tests there are. -/
theorem decode_ok_of_tests {w : Word} (hop : (opField w).toNat < 8)
    (hknown : ¬ unknownRenderer (opField w).toNat (subField w).toNat)
    (hclear : ¬ reservedSet (opField w).toNat (subField w).toNat (arg0Field w).toNat (arg1Field w).toNat) :
    ∃ i, decode w = .ok i := by
  unfold unknownRenderer at hknown
  simp only [reservedSet, not_or, not_and, ne_eq, not_not] at hclear
  obtain ⟨formatZ, palbuild, bake, render, iscale, iwscale⟩ := hclear
  obtain hz | h1 | h2 | h3 | h5 | h6 : ((opField w).toNat = 0 ∨ (opField w).toNat = 4 ∨ (opField w).toNat = 7)
      ∨ (opField w).toNat = 1 ∨ (opField w).toNat = 2 ∨ (opField w).toNat = 3 ∨ (opField w).toNat = 5
      ∨ (opField w).toNat = 6 := by omega
  · obtain ⟨i, hdecode⟩ := decode_of_formatZ hz
    have h := formatZ (by omega)
    simp only [toNat_eq_zero_iff] at h
    exact ⟨i, by rw [hdecode, h.1, h.2.1, h.2.2, decodeZ_zero]⟩
  · have h := palbuild h1
    simp only [toNat_eq_zero_iff] at h
    obtain ⟨i, hi⟩ := decodePalbuild_ok (Nat.le_of_not_lt h.1)
    exact ⟨i, by rw [decode_of_palbuild h1, if_pos h.2, hi]⟩
  · have h := render h2
    rw [toNat_eq_zero_iff] at h
    obtain ⟨i, hi⟩ := decodeRender_ok (by omega) h.2
    exact ⟨i, by rw [decode_of_render h2 (by omega), if_pos h.1, hi]⟩
  · have h := bake h3
    simp only [toNat_eq_zero_iff] at h
    obtain ⟨i, hi⟩ := decodeBake_ok (sub := subField w) (by omega)
    exact ⟨i, by rw [decode_of_bake h3 (by omega), if_pos h, hi]⟩
  · exact ⟨_, by rw [decode_of_iscale h5, if_pos ((toNat_eq_zero_iff _).1 (iscale h5))]⟩
  · have h := iwscale h6
    simp only [toNat_eq_zero_iff] at h
    exact ⟨_, by rw [decode_of_iwscale h6, if_pos h]⟩

/-- The four outcomes of the decoder, each with the tests that lead to it (30_encoding R110). -/
theorem decode_cases (w : Word) :
    (8 ≤ (opField w).toNat ∧ decode w = .error .badOpcode) ∨
    ((opField w).toNat < 8 ∧ unknownRenderer (opField w).toNat (subField w).toNat
      ∧ decode w = .error .rendererNotFound) ∨
    ((opField w).toNat < 8 ∧ ¬ unknownRenderer (opField w).toNat (subField w).toNat
      ∧ reservedSet (opField w).toNat (subField w).toNat (arg0Field w).toNat (arg1Field w).toNat
      ∧ decode w = .error .reservedField) ∨
    ((opField w).toNat < 8 ∧ ¬ unknownRenderer (opField w).toNat (subField w).toNat
      ∧ ¬ reservedSet (opField w).toNat (subField w).toNat (arg0Field w).toNat (arg1Field w).toNat
      ∧ ∃ i, decode w = .ok i) := by
  by_cases hop : 8 ≤ (opField w).toNat
  · exact .inl ⟨hop, decode_badOpcode hop⟩
  have hop := Nat.lt_of_not_le hop
  by_cases hunknown : unknownRenderer (opField w).toNat (subField w).toNat
  · exact .inr (.inl ⟨hop, hunknown, decode_rendererNotFound hunknown⟩)
  by_cases hreserved : reservedSet (opField w).toNat (subField w).toNat (arg0Field w).toNat (arg1Field w).toNat
  · exact .inr (.inr (.inl ⟨hop, hunknown, hreserved, decode_reservedField_of_reservedSet hunknown hreserved⟩))
  · exact .inr (.inr (.inr ⟨hop, hunknown, hreserved, decode_ok_of_tests hop hunknown hreserved⟩))

/-- Settles O3: the tests of the four outcomes exclude each other, so each outcome gives its tests back. -/
theorem decodeErrorByFields : Obligations.DecodeErrorByFields := by
  intro w
  simp only [← opField_toNat, ← subField_toNat, ← arg0Field_toNat, ← arg1Field_toNat]
  change (decode w = .error .badOpcode ↔ _)
    ∧ (decode w = .error .rendererNotFound ↔ unknownRenderer (opField w).toNat (subField w).toNat)
    ∧ (decode w = .error .reservedField ↔ _ ∧ ¬ unknownRenderer (opField w).toNat (subField w).toNat
        ∧ reservedSet (opField w).toNat (subField w).toNat (arg0Field w).toNat (arg1Field w).toNat)
  have small (h : unknownRenderer (opField w).toNat (subField w).toNat) : (opField w).toNat < 8 := by
    unfold unknownRenderer at h
    omega
  rcases decode_cases w with ⟨hop, h⟩ | ⟨hop, hunknown, h⟩ | ⟨hop, hknown, hreserved, h⟩ |
    ⟨hop, hknown, hclear, i, h⟩
  · have known := mt small (Nat.not_lt.2 hop)
    simp [h, hop, known, Nat.not_lt.2 hop]
  · simp [h, hop, hunknown]
  · simp [h, hop, hknown, hreserved]
  · simp [h, hop, hknown, hclear]

end Sys2Proof
end

section
/-! The machine's invariant: it holds at reset and every step keeps it, whether the host acts or the command runs
(10_state R22, R26, R27, R39, R65, 20_memory R75). -/

namespace Sys2Proof.Machine

/-! ### The legal range of NREG (10_state R39) -/

/-- NREG is 1..256. -/
def Csrs.NregLegal (c : Csrs) : Prop := 1 ≤ c.nreg.toNat ∧ c.nreg.toNat ≤ 256

theorem nregLegal_reset : Csrs.reset.NregLegal := by
  unfold Csrs.NregLegal
  decide

/-- A PAL_CTRL write stores only a legal count. -/
theorem nregWrite_legal {old : BitVec 9} (h : 1 ≤ old.toNat ∧ old.toNat ≤ 256) (v : Word) :
    1 ≤ (nregWrite old v).toNat ∧ (nregWrite old v).toNat ≤ 256 := by
  unfold nregWrite
  simp only
  split
  · assumption
  · exact h

theorem writeConfig_nreg {r : ConfigReg} (h : r ≠ .palCtrl) (c : Csrs) (v : Word) :
    (writeConfig c v r).nreg = c.nreg := by
  cases r with
  | palCtrl => exact absurd rfl h
  | _ => rfl

theorem writeConfig_nregLegal {c : Csrs} (h : c.NregLegal) (v : Word) (r : ConfigReg) :
    (writeConfig c v r).NregLegal := by
  by_cases hr : r = .palCtrl
  · subst hr
    exact nregWrite_legal h v
  · rw [Csrs.NregLegal, writeConfig_nreg hr]
    exact h

/-- CSRs drawn anew after an engine write into the aperture keep the range as well (log 11). -/
theorem csrsOfWords_nregLegal (f : Nat → Word) : (csrsOfWords f).NregLegal := by
  have fold (rs : List ConfigReg) (c : Csrs) (h : c.NregLegal) :
      (rs.foldl (fun c r => writeConfig c (f r.offset) r) c).NregLegal := by
    induction rs generalizing c with
    | nil => exact h
    | cons r rs ih => exact ih _ (writeConfig_nregLegal h _ r)
  simp only [csrsOfWords, Csrs.NregLegal]
  exact fold ConfigReg.all Csrs.reset nregLegal_reset

/-! ### The work of a running command -/

theorem runningWork_some {s : State} {w : Work} (h : runningWork s = some w) :
    ∃ i, decode s.csr.lastCmd = .ok i ∧ (planOf i s).error = none ∧ w = (planOf i s).work := by
  cases hd : decode s.csr.lastCmd with
  | error e => simp [runningWork, hd] at h
  | ok i =>
    rw [runningWork_eq hd] at h
    split at h
    · exact ⟨i, rfl, ‹_›, (Option.some.inj h).symm⟩
    · cases h

/-- The write region of a command that does its work lies in the address space (20_memory R77). -/
theorem planOf_fill_wf {i : Instr} {s : State} (he : (planOf i s).error = none) {m : Memory} (h : m.wf)
    (f : Nat → Byte) : (m.fill (planOf i s).work.out.base (planOf i s).work.out.len f).wf :=
  Memory.fill_wf _ _ _ _ (planOf_fits i s he).inRange h

/-! ### The end of a command -/

/-- The two facts of the invariant that outlive a command's end. -/
def State.Sound (s : State) : Prop := s.mem.wf ∧ s.csr.NregLegal

theorem MachineInv.sound {s : State} (h : MachineInv s) : s.Sound := ⟨h.memory, h.nreg⟩

theorem endSuccess_inv {s : State} (h : s.Sound) : MachineInv (endSuccess s) where
  memory := h.1
  nreg := h.2
  oneEnd := by simp
  errCode := by simp
  running := by simp
  resting := by simp

theorem takeError_inv {s : State} (h : s.Sound) (e : ErrCode) (a : Option Nat) : MachineInv (takeError e a s) where
  memory := h.1
  nreg := h.2
  oneEnd := by simp
  errCode := by simp
  running := by simp
  resting := by simp

theorem acceptanceEffect_sound {s : State} (h : s.Sound) (i : Instr) : (acceptanceEffect i s).Sound := by
  cases i <;> exact h

theorem publish_sound {s : State} (h : s.Sound) (p : Option PaletteSet) (f : Option FontState) (n : Option Nat) :
    (publish p f n s).Sound := h

theorem store_sound {i : Instr} {s t : State} (he : (planOf i s).error = none) (h : t.Sound) (failed : Bool) :
    ((planOf i s).work.store t failed).Sound := by
  obtain ⟨hmem, hnreg⟩ := h
  refine ⟨?_, ?_⟩
  · rw [Work.store_mem]
    exact planOf_fill_wf he hmem _
  · rw [Work.store_csr]
    split
    · exact csrsOfWords_nregLegal _
    · exact hnreg

/-- A command's work ends in a state that keeps the invariant, with success or with BUS. -/
theorem complete_inv {i : Instr} {s t : State} (he : (planOf i s).error = none) (h : t.Sound) :
    MachineInv ((planOf i s).work.complete t) := by
  rcases (planOf i s).work.complete_cases t with ⟨_, hend⟩ | ⟨a, _, hend⟩
  · rw [hend]
    exact endSuccess_inv (publish_sound (store_sound he h false) _ _ _)
  · rw [hend]
    exact takeError_inv (publish_sound (store_sound he h true) _ _ _) _ _

theorem exec_inv {i : Instr} {s t : State} (h : MachineInv s) (hexec : exec i s = .next t) : MachineInv t := by
  have hsound := acceptanceEffect_sound h.sound i
  rcases exec_cases i s with ⟨e, _, hend⟩ | ⟨he, hend⟩
  · cases hexec.symm.trans hend
    exact takeError_inv hsound e none
  · cases hexec.symm.trans hend
    exact complete_inv he hsound

/-! ### The host's actions -/

/-- The invariant of a state that differs only in fields the invariant does not name. -/
theorem MachineInv.of_same {s t : State} (h : MachineInv s) (hmem : t.mem = s.mem) (hnreg : t.csr.nreg = s.csr.nreg)
    (hstatus : t.csr.status = s.csr.status) (hphase : t.phase = s.phase)
    (hown : t.runFor = s.runFor ∧ t.inTouched = s.inTouched ∧ t.outTouched = s.outTouched) : MachineInv t where
  memory := hmem ▸ h.memory
  nreg := hnreg ▸ h.nreg
  oneEnd := hstatus ▸ h.oneEnd
  errCode := hstatus ▸ h.errCode
  running := by rw [hstatus, hphase]; exact h.running
  resting := by rw [hphase, hown.1, hown.2.1, hown.2.2]; exact h.resting

theorem abortCommand_mem_wf {s : State} (h : s.mem.wf) : (abortCommand s).mem.wf := by
  unfold abortCommand
  split
  · exact h
  · split
    · exact h
    · rename_i w hw
      obtain ⟨i, _, he, rfl⟩ := runningWork_some hw
      unfold abortWork
      split <;> exact planOf_fill_wf he h _

theorem softReset_inv {s : State} (h : s.mem.wf) : MachineInv (softReset s) where
  memory := abortCommand_mem_wf h
  nreg := nregLegal_reset
  oneEnd := by simp [softReset, Csrs.reset]
  errCode := rfl
  running := by simp [softReset]
  resting := fun _ => ⟨rfl, rfl, rfl⟩

theorem powerCycle_inv {s : State} (h : s.mem.wf) : MachineInv (powerCycle s) :=
  (softReset_inv h).of_same rfl rfl rfl rfl ⟨rfl, rfl, rfl⟩

theorem accept_inv {s : State} (h : s.Sound) (w : Word) : MachineInv (accept w s) where
  memory := h.1
  nreg := h.2
  oneEnd := by simp
  errCode := by simp
  running := by simp
  resting := by simp

theorem acceptConfig_inv {s : State} (h : MachineInv s) (r : ConfigReg) (v : Word) :
    MachineInv (acceptConfig r v s) := by
  have written : MachineInv { s with csr := writeConfig s.csr v r } := by
    have hstatus : (writeConfig s.csr v r).status = s.csr.status := by cases r <;> rfl
    exact ⟨h.memory, writeConfig_nregLegal h.nreg v r, by rw [hstatus]; exact h.oneEnd,
      by rw [hstatus]; exact h.errCode, by rw [hstatus]; exact h.running, h.resting⟩
  unfold acceptConfig
  simp only
  split
  · exact written.of_same rfl rfl rfl rfl ⟨rfl, rfl, rfl⟩
  · exact written

theorem whenIdle_inv {s : State} (h : MachineInv s) {f : State → State} (hf : MachineInv (f s)) :
    MachineInv (whenIdle f s) := by
  cases hp : s.phase with
  | idle => rw [whenIdle_of_idle hp]; exact hf
  | run =>
    rw [whenIdle_of_run hp]
    exact ⟨h.memory, h.nreg, h.oneEnd, h.errCode, h.running, h.resting⟩

/-- The fields of STATUS after a write (10_state R27, 60_exceptions R217). -/
theorem writeStatus_status (c : Csrs) (v : Word) : (writeStatus c v).status =
    { done := c.status.done && !v.getLsbD 1
      err := c.status.err && !v.getLsbD 2
      wign := c.status.wign && !v.getLsbD 3
      errCode := if v.getLsbD 2 then none else c.status.errCode } := by
  unfold writeStatus clearError
  cases v.getLsbD 1 <;> cases v.getLsbD 2 <;> cases v.getLsbD 3 <;> simp

/-- A STATUS write leaves every other CSR alone. -/
theorem writeStatus_frame (c : Csrs) (v : Word) : writeStatus c v = { c with status := (writeStatus c v).status } := by
  unfold writeStatus clearError
  cases v.getLsbD 1 <;> cases v.getLsbD 2 <;> cases v.getLsbD 3 <;> rfl

theorem writeStatus_inv {s : State} (h : MachineInv s) (v : Word) :
    MachineInv { s with csr := writeStatus s.csr v } := by
  have hnreg : (writeStatus s.csr v).nreg = s.csr.nreg := by rw [writeStatus_frame]
  refine ⟨h.memory, by rw [hnreg]; exact h.nreg, ?oneEnd, ?errCode, ?running, h.resting⟩
  case oneEnd =>
    have := h.oneEnd
    simp only [writeStatus_status, Bool.and_eq_true]
    tauto
  case errCode =>
    have := h.errCode
    simp only [writeStatus_status]
    cases v.getLsbD 2 <;> simp [this]
  case running =>
    intro hrun
    obtain ⟨hdone, herr⟩ := h.running hrun
    simp [writeStatus_status, hdone, herr]

theorem writeCsr_inv {s : State} (h : MachineInv s) (r : CsrAt) (v : Word) : MachineInv (writeCsr r v s) := by
  cases r with
  | ctrl =>
    simp only [writeCsr]
    split
    · exact softReset_inv h.memory
    · exact h
  | cmd => exact whenIdle_inv h (accept_inv h.sound v)
  | status => exact writeStatus_inv h v
  | irqEn => exact h.of_same rfl rfl rfl rfl ⟨rfl, rfl, rfl⟩
  | config r => exact whenIdle_inv h (acceptConfig_inv h r v)
  | creg k => exact whenIdle_inv h (h.of_same rfl rfl rfl rfl ⟨rfl, rfl, rfl⟩)
  | id | lastCmd | errAddr | fontState | jmHits | ps | reserved => exact h

theorem hostWriteByte_inv {s : State} (h : MachineInv s) {a : Nat} (ha : a < 2 ^ 32) (v : Byte) :
    MachineInv (hostWriteByte s a v) := by
  unfold hostWriteByte
  split
  · exact h
  · split
    case h_1 => exact ⟨Memory.write_wf _ _ _ ha h.memory, h.nreg, h.oneEnd, h.errCode, h.running, h.resting⟩
    case h_2 hrun =>
      split
      · exact ⟨Memory.write_wf _ _ _ ha h.memory, h.nreg, h.oneEnd, h.errCode, h.running, h.resting⟩
      · refine ⟨Memory.write_wf _ _ _ ha h.memory, h.nreg, h.oneEnd, h.errCode, h.running, fun hidle => ?_⟩
        cases hidle.symm.trans hrun

theorem hostAct_inv {s : State} (h : MachineInv s) (a : HostAction) : MachineInv (hostAct a s) := by
  cases a with
  | writeCsr off size v =>
    simp only [hostAct]
    split
    · exact writeCsr_inv h _ v
    · exact h
  | writeMem a v => exact hostWriteByte_inv h a.isLt v
  | powerCycle => exact powerCycle_inv h.memory
  | readCsr | readMem | wait => exact h.of_same rfl rfl rfl rfl ⟨rfl, rfl, rfl⟩

theorem hostStep_inv {s : State} (h : MachineInv s) : MachineInv (hostStep s) := by
  unfold hostStep
  split
  · exact h
  · apply hostAct_inv
    refine ⟨h.memory, h.nreg, h.oneEnd, h.errCode, h.running, fun hidle => ?_⟩
    obtain ⟨hrunFor, htouched⟩ := h.resting hidle
    exact ⟨by simp [hrunFor], htouched⟩

/-! ### The obligations -/

/-- Settles O54: the empty memory is canonical and every flag is clear. -/
theorem invariantAtReset : Obligations.InvariantAtReset where
  memory := reset_memory_wf
  nreg := nregLegal_reset
  oneEnd := by simp [State.reset, Csrs.reset]
  errCode := rfl
  running := by simp [State.reset]
  resting := fun _ => ⟨rfl, rfl, rfl⟩

/-- Settles O55, by what a step can do: the host's action, a decode error's end, or the accepted command. -/
theorem stepKeepsInvariant : Obligations.StepKeepsInvariant := by
  intro s t h hstep
  rcases step_cases s with ⟨_, hhost⟩ | ⟨_, _, ⟨e, _, herror⟩ | ⟨i, _, hexec⟩⟩
  · cases hstep.symm.trans hhost
    exact hostStep_inv h
  · cases hstep.symm.trans herror
    exact takeError_inv h.sound _ none
  · exact exec_inv h (hexec.symm.trans hstep)

end Sys2Proof.Machine
end

section
/-! The family 70_reset_and_hazards: acceptance and the step that runs the command (10_state R26, R65), and that BUSY ends
(R247, R249). -/

namespace Sys2Proof.Machine

/-! ### The step that runs the command -/

/-- A command without duration left runs before any host action (log 3). -/
theorem hostActsFirst_of_runFor_zero {s : State} (h : s.runFor = 0) : hostActsFirst s = false := by
  unfold hostActsFirst
  split <;> simp [h]

/-- Storing the bits of a word is the acceptance of that word (log 2). -/
theorem withFetchWord_toNat (s : State) (w : Word) : s.withFetchWord 32 w.toNat = acceptWord w s := by
  rw [State.withFetchWord, Nat.mod_eq_of_lt w.isLt, BitVec.ofNat_toNat, BitVec.setWidth_eq]

theorem step_of_decode_ok {s : State} {i : Instr} (hrun : s.phase = .run) (hfirst : hostActsFirst s = false)
    (hdecode : decode s.csr.lastCmd = .ok i) : step s = exec i s := by
  simp [step, runCommand, hrun, hfirst, hdecode]

/-- Settles O5: the word of a well-formed command decodes to it, and acceptance leaves it no duration. -/
theorem stepRunsDecodedCommand : Obligations.StepRunsDecodedCommand := by
  refine ⟨fun s i hrun hfirst hdecode => step_of_decode_ok hrun hfirst hdecode, fun s i hwf => ?_⟩
  rw [withFetchWord_toNat]
  refine step_of_decode_ok (acceptWord_phase _ _) (hostActsFirst_of_runFor_zero (acceptWord_runFor _ _)) ?_
  rw [acceptWord_csr]
  exact decodeInvertsEncode i hwf

/-! ### Acceptance of a CMD write -/

theorem opField_eq_iff (w : Word) (b : Byte) : opField w = b ↔ w.toNat % 256 = b.toNat := by
  rw [← BitVec.toNat_inj, opField_toNat]

theorem hostStep_cons {s : State} {a : HostAction} {rest : List HostAction} (h : s.hostQ = a :: rest) :
    hostStep s = hostAct a { s with hostQ := rest, runFor := s.runFor - 1 } := by
  simp [hostStep, h]

theorem step_of_idle {s : State} (h : s.phase = .idle) : step s = .next (hostStep s) := by
  simp [step, h]

/-- Settles O6: in IDLE the step does the host's write, offset 0x008 is CMD, and an accepted word sets the fields of R26. -/
theorem commandAcceptance : Obligations.CommandAcceptance := by
  intro s w rest hidle hq
  have haccept : step s = .next (accept w { s with hostQ := rest, runFor := s.runFor - 1 }) := by
    rw [step_of_idle hidle, hostStep_cons hq, hostAct_writeCsr (by decide)]
    exact congrArg _ (whenIdle_of_idle (s := { s with hostQ := rest, runFor := s.runFor - 1 }) hidle (accept w))
  have hop (b : Byte) : (w.toNat % 256 = b.toNat) = (opField w = b) := propext (opField_eq_iff w b).symm
  refine ⟨Config.commandTime s.draws, s.draws + 1, haccept.trans ?_⟩
  simp only [accept, acceptWord, ← hop]
  rfl

/-! ### BUSY ends -/

/-- While a command runs, a host action resets the block, or leaves the command running with the duration it had. -/
theorem hostAct_phase {s : State} (hrun : s.phase = .run) (a : HostAction) :
    (hostAct a s).phase = .idle ∨ ((hostAct a s).phase = .run ∧ (hostAct a s).runFor = s.runFor) := by
  cases a with
  | writeCsr off size v =>
    simp only [hostAct]
    split
    · cases csrAt off.toNat with
      | ctrl =>
        simp only [writeCsr]
        split
        · exact .inl rfl
        · exact .inr ⟨hrun, rfl⟩
      | cmd | config | creg => exact .inr (by simp [writeCsr, whenIdle_of_run hrun, hrun])
      | id | lastCmd | errAddr | fontState | jmHits | ps | reserved | status | irqEn => exact .inr ⟨hrun, rfl⟩
    · exact .inr ⟨hrun, rfl⟩
  | writeMem a v =>
    simp only [hostAct, hostWriteByte]
    split
    · exact .inr ⟨hrun, rfl⟩
    · rw [hrun]
      simp only
      split <;> exact .inr ⟨rfl, rfl⟩
  | powerCycle => exact .inl rfl
  | readCsr | readMem | wait => exact .inr ⟨hrun, rfl⟩

/-- A host action that lands before the command's end takes one place of its duration (log 3). -/
theorem hostStep_phase {s : State} (hrun : s.phase = .run) (hfirst : hostActsFirst s = true) :
    0 < s.runFor ∧
      ((hostStep s).phase = .idle ∨ ((hostStep s).phase = .run ∧ (hostStep s).runFor = s.runFor - 1)) := by
  cases hq : s.hostQ with
  | nil => simp [hostActsFirst, hq] at hfirst
  | cons a rest =>
    refine ⟨?_, by rw [hostStep_cons hq]; exact hostAct_phase (s := { s with hostQ := rest, runFor := _ }) hrun a⟩
    by_contra hzero
    rw [hostActsFirst_of_runFor_zero (by omega)] at hfirst
    cases hfirst

/-- Every command ends in IDLE. -/
theorem exec_ends (i : Instr) (s : State) : ∃ t, exec i s = .next t ∧ t.phase = .idle := by
  rcases exec_cases i s with ⟨e, _, h⟩ | ⟨_, h⟩
  · exact ⟨_, h, rfl⟩
  · exact ⟨_, h, Work.complete_phase _ _⟩

/-- A step while BUSY ends the command, or uses up a place of its duration. -/
theorem step_of_run {s : State} (hrun : s.phase = .run) :
    ∃ t, step s = .next t ∧ (t.phase = .idle ∨ (t.phase = .run ∧ t.runFor + 1 = s.runFor)) := by
  rcases step_cases s with ⟨hidle | hfirst, h⟩ | ⟨_, _, ⟨e, _, h⟩ | ⟨i, _, h⟩⟩
  · cases hrun.symm.trans hidle
  · obtain ⟨hpos, hphase⟩ := hostStep_phase hrun hfirst
    exact ⟨_, h, hphase.imp_right fun ⟨hp, hr⟩ => ⟨hp, by omega⟩⟩
  · exact ⟨_, h, .inl rfl⟩
  · obtain ⟨t, hexec, hidle⟩ := exec_ends i s
    exact ⟨t, h.trans hexec, .inl hidle⟩

theorem core_run_succ {s t : State} (h : step s = .next t) (k : Nat) :
    Host.Core.run Sys2Proof.core (k + 1) s = Host.Core.run Sys2Proof.core k t := by
  have hcore : Sys2Proof.core.step s = .next t := h
  simp only [Host.Core.run, hcore]

/-- By induction on the duration: each step that does not end the command uses up one place of it. -/
theorem run_ends (n : Nat) : ∀ s : State, s.phase = .run → s.runFor = n →
    ∃ k t, 0 < k ∧ k ≤ n + 1 ∧ Host.Core.run Sys2Proof.core k s = .next t ∧ t.phase = .idle := by
  induction n with
  | zero =>
    intro s hrun hn
    obtain ⟨t, hstep, hidle | ⟨_, hfor⟩⟩ := step_of_run hrun
    · exact ⟨1, t, by omega, by omega, core_run_succ hstep 0, hidle⟩
    · omega
  | succ n ih =>
    intro s hrun hn
    obtain ⟨t, hstep, hidle | ⟨hrun', hfor⟩⟩ := step_of_run hrun
    · exact ⟨1, t, by omega, by omega, core_run_succ hstep 0, hidle⟩
    · obtain ⟨k, u, _, hk, hu, hidle⟩ := ih t hrun' (by omega)
      exact ⟨k + 1, u, by omega, by omega, (core_run_succ hstep k).trans hu, hidle⟩

/-- Settles O57, by induction on the duration. -/
theorem busyEndsInBoundedSteps : Obligations.BusyEndsInBoundedSteps := fun s hrun => run_ends s.runFor s hrun rfl

end Sys2Proof.Machine
end

section
/-! The family 60_exceptions, the ends of a command: the failed checks (R212..R215), success or BUS (R216), and what a command
leaves alone whatever its end (20_memory R76). -/

namespace Sys2Proof.Machine

/-! ### Failed checks -/

/-- Only BAKE and HARVEST do anything at their acceptance, and they have no factor, geometry or font to check. -/
theorem acceptanceEffect_of_scaleFails {c : Csrs} {i : Instr} (h : scaleFails c i = true) (s : State) :
    acceptanceEffect i s = s := by
  cases i with
  | bakeGr0 | bakeAntic4 | bakeGr12Upper | bakeGr12Lower | bakeApple | harvest => cases h
  | _ => rfl

theorem acceptanceEffect_of_geometryFails {c : Csrs} {i : Instr} (h : geometryFails c i = true) (s : State) :
    acceptanceEffect i s = s := by
  cases i with
  | bakeGr0 | bakeAntic4 | bakeGr12Upper | bakeGr12Lower | bakeApple | harvest => cases h
  | _ => rfl

/-- A well-formed command with a failing check ends with the first one's code (60_exceptions R214). -/
theorem exec_of_firstError {i : Instr} {s : State} {e : ErrCode} (hwf : i.wellFormed = true)
    (h : firstError (commandChecks s.csr i) = some e) : exec i s = .next ((acceptanceEffect i s).failedWith e) :=
  exec_error i s e ((planOf_error i s hwf).trans h)

/-- Settles O28: SCALE is the first check of R214. -/
theorem zeroFactorEndsInScale : Obligations.ZeroFactorEndsInScale := by
  intro s i hwf hscale
  have h := exec_of_firstError (s := s) (e := .scale) hwf (by simp [commandChecks, firstError_cons, hscale])
  rwa [acceptanceEffect_of_scaleFails hscale] at h

/-- Settles O29: GEOMETRY comes after SCALE. -/
theorem badGeometryEndsInGeometry : Obligations.BadGeometryEndsInGeometry := by
  intro s i hwf hscale hgeometry
  have h := exec_of_firstError (s := s) (e := .geometry) hwf
    (by simp [commandChecks, firstError_cons, hscale, hgeometry])
  rwa [acceptanceEffect_of_geometryFails hgeometry] at h

/-- Settles O30: FRENDER has no geometry check, so NO_FONT follows SCALE. -/
theorem frenderWithoutFontEndsInNoFont : Obligations.FrenderWithoutFontEndsInNoFont := by
  intro s hscale hvalid
  exact exec_of_firstError (i := .frender) rfl
    (by simp [commandChecks, firstError_cons, hscale, geometryFails, noFontFails, hvalid])

/-- Settles O31: RANGE follows the three checks of the CSRs alone. -/
theorem regionPastEndEndsInRange : Obligations.RegionPastEndEndsInRange := by
  intro s i hwf hscale hgeometry hfont hrange
  exact exec_of_firstError hwf (by simp [commandChecks, firstError_cons, hscale, hgeometry, hfont, hrange])

/-- Settles O32: OVERLAP is the last check. -/
theorem overlappingRegionsEndInOverlap : Obligations.OverlappingRegionsEndInOverlap := by
  intro s i hwf hscale hgeometry hfont hrange hoverlap
  exact exec_of_firstError hwf (by simp [commandChecks, firstError_cons, hscale, hgeometry, hfont, hrange, hoverlap])

/-- A well-formed command that fails no check does its work. -/
theorem planOf_error_none {i : Instr} {s : State} (hwf : i.wellFormed = true) (hscale : scaleFails s.csr i = false)
    (hgeometry : geometryFails s.csr i = false) (hfont : noFontFails s.csr i = false)
    (hrange : rangeFails s.csr i = false) (hoverlap : overlapFails s.csr i = false) : (planOf i s).error = none := by
  rw [planOf_error i s hwf]
  simp [commandChecks, firstError_cons, hscale, hgeometry, hfont, hrange, hoverlap]

theorem exec_of_planOf_none {i : Instr} {s : State} (he : (planOf i s).error = none) :
    exec i s = .next ((planOf i s).work.complete (acceptanceEffect i s)) := by
  rw [exec_eq_runPlan, runPlan_of_none he]

/-! ### Success or BUS -/

/-- How a command's work ends, in terms of its failing accesses (60_exceptions R216). -/
theorem complete_end (w : Work) (s : State) :
    (w.failing s = [] ∧ (w.complete s).csr.status.done = true ∧ (w.complete s).csr.status.err = false
      ∧ (w.complete s).csr.status.errCode = none) ∨
    (w.failing s ≠ [] ∧ (w.complete s).csr.status.done = false ∧ (w.complete s).csr.status.err = true
      ∧ (w.complete s).csr.status.errCode = some .bus) := by
  rcases w.complete_cases s with ⟨hf, h⟩ | ⟨a, ha, h⟩
  · rw [h]
    exact .inl ⟨hf, rfl, rfl, rfl⟩
  · rw [h]
    exact .inr ⟨List.ne_nil_of_mem ha, rfl, rfl, rfl⟩

/-- No access fails where no address of the command does. -/
theorem failing_eq_nil {i : Instr} {s : State} (he : (planOf i s).error = none) (h : ∀ a, ¬ s.failsAt i a) :
    (planOf i s).work.failing (acceptanceEffect i s) = [] := by
  refine List.eq_nil_iff_forall_not_mem.2 fun a ha => h a (failsAt_of_failing he ?_ ha)
  exact acceptanceEffect_platform i s

/-- Settles O56: a failed check, or the command's work with its two ends. -/
theorem everyCommandEnds : Obligations.EveryCommandEnds := by
  intro s i
  rcases exec_cases i s with ⟨e, he, h⟩ | ⟨he, h⟩
  · refine ⟨_, h, rfl, rfl, rfl, fun hwf hscale hgeometry hfont hrange hoverlap => ?_⟩
    cases he.symm.trans (planOf_error_none hwf hscale hgeometry hfont hrange hoverlap)
  · refine ⟨_, h, Work.complete_phase _ _, ?_⟩
    rcases complete_end (planOf i s).work (acceptanceEffect i s) with ⟨_, hdone, herr, hcode⟩ |
      ⟨hfail, hdone, herr, hcode⟩
    · simp [hdone, herr, hcode]
    · refine ⟨by simp [hdone, herr], by simp [herr, hcode], fun _ _ _ _ _ _ => ⟨.inr hcode, fun hnone => ?_⟩⟩
      exact absurd (failing_eq_nil he hnone) hfail

/-! ### What a command leaves alone -/

/-- The memory a command leaves: untouched after a failed check, else its write region filled. -/
theorem exec_mem {i : Instr} {s t : State} (h : exec i s = .next t) :
    ((∃ e, (planOf i s).error = some e) ∧ t.mem = s.mem) ∨
    ((planOf i s).error = none ∧ t.mem = s.mem.fill (planOf i s).work.out.base (planOf i s).work.out.len
      ((planOf i s).work.pendingByte s)) := by
  rcases exec_cases i s with ⟨e, he, hend⟩ | ⟨he, hend⟩
  · cases h.symm.trans hend
    exact .inl ⟨⟨e, he⟩, acceptanceEffect_mem i s⟩
  · cases h.symm.trans hend
    exact .inr ⟨he, by rw [Work.complete_mem, acceptanceEffect_mem, pendingByte_acceptanceEffect]⟩

/-- Outside its write region a command changes no byte (20_memory R76). -/
theorem exec_mem_outside {i : Instr} {s t : State} (h : exec i s = .next t) {a : Nat}
    (ha : (writeRegion s.csr i).has a = false) : t.mem.read a = s.mem.read a := by
  rcases exec_mem h with ⟨_, hmem⟩ | ⟨he, hmem⟩
  · rw [hmem]
  · rw [hmem]
    exact Memory.read_fill_outside _ _ _ _ _ ((planOf_fits i s he).sub a ha)

/-- The commands that clear FONT_STATE.VALID at their acceptance (10_state R47). -/
def bakes : List Instr := [.bakeGr0, .bakeAntic4, .bakeGr12Upper, .bakeGr12Lower, .bakeApple]

/-- The three acceptance effects (10_state R47, R53). -/
theorem acceptanceEffect_cases (i : Instr) (s : State) :
    (i ∈ bakes ∧ acceptanceEffect i s = clearFontValid s) ∨ (i = .harvest ∧ acceptanceEffect i s = clearHits s) ∨
    (i ∉ bakes ∧ i ≠ .harvest ∧ acceptanceEffect i s = s) := by
  cases i with
  | bakeGr0 | bakeAntic4 | bakeGr12Upper | bakeGr12Lower | bakeApple => exact .inl ⟨by decide, rfl⟩
  | harvest => exact .inr (.inl ⟨rfl, rfl⟩)
  | _ => exact .inr (.inr ⟨by simp [bakes], by simp, rfl⟩)

theorem acceptanceEffect_font {i : Instr} (h : i ∉ bakes) (s : State) :
    (acceptanceEffect i s).csr.font = s.csr.font := by
  rcases acceptanceEffect_cases i s with ⟨hb, _⟩ | ⟨_, he⟩ | ⟨_, _, he⟩
  · exact absurd hb h
  · rw [he]; rfl
  · rw [he]

theorem acceptanceEffect_jmHits {i : Instr} (h : i ≠ .harvest) (s : State) :
    (acceptanceEffect i s).csr.jmHits = s.csr.jmHits := by
  rcases acceptanceEffect_cases i s with ⟨_, he⟩ | ⟨hh, _⟩ | ⟨_, _, he⟩
  · rw [he]; rfl
  · exact absurd hh h
  · rw [he]

/-- `t` has ended a command of `s`: of its CSRs only the ones a command's end may write can differ. -/
def State.EndOf (s t : State) : Prop :=
  t = { s with
    phase := .idle, runFor := 0, inTouched := [], outTouched := []
    mem := t.mem
    ps := t.ps
    csr := { s.csr with
      status := { t.csr.status with wign := s.csr.status.wign }
      errAddr := t.csr.errAddr
      font := t.csr.font
      jmHits := t.csr.jmHits } }

theorem acceptanceEffect_endOf {i : Instr} {s t : State} (h : (acceptanceEffect i s).EndOf t) : s.EndOf t := by
  rcases acceptanceEffect_cases i s with ⟨_, he⟩ | ⟨_, he⟩ | ⟨_, _, he⟩ <;> rw [he] at h <;> exact h

theorem takeError_endOf (e : ErrCode) (a : Option Nat) (s : State) : s.EndOf (takeError e a s) := rfl

/-- A command's work that does not reach the CSRs ends it with its own state changes only. -/
theorem complete_endOf {w : Work} {s : State} (h : w.writesCsrs s = false) : s.EndOf (w.complete s) := by
  rcases w.complete_cases s with ⟨_, hend⟩ | ⟨a, _, hend⟩ <;> rw [hend, Work.store_of_no_aperture _ _ _ h] <;> rfl

theorem complete_ps {w : Work} {s : State} (h : w.writesCsrs s = false) : (w.complete s).ps = w.ps.getD s.ps := by
  rcases w.complete_cases s with ⟨_, hend⟩ | ⟨a, _, hend⟩ <;> rw [hend, Work.store_of_no_aperture _ _ _ h] <;> rfl

theorem complete_font {w : Work} {s : State} (h : w.writesCsrs s = false) (hf : w.font = none) :
    (w.complete s).csr.font = s.csr.font := by
  rcases w.complete_cases s with ⟨_, hend⟩ | ⟨a, _, hend⟩ <;>
    rw [hend, Work.store_of_no_aperture _ _ _ h, hf] <;> rfl

theorem complete_jmHits {w : Work} {s : State} (h : w.writesCsrs s = false) (hh : w.hits = none) :
    (w.complete s).csr.jmHits = s.csr.jmHits := by
  rcases w.complete_cases s with ⟨_, hend⟩ | ⟨a, _, hend⟩ <;>
    rw [hend, Work.store_of_no_aperture _ _ _ h, hh] <;> rfl

/-- Settles O58: a failed check changes the end's fields alone, and the work sets only the tables of its command. -/
theorem commandWritesOnlyItsRegion : Obligations.CommandWritesOnlyItsRegion := by
  intro s t i h
  refine ⟨fun a ha => exec_mem_outside h ha, fun haperture => ?_⟩
  rcases exec_cases i s with ⟨e, _, hend⟩ | ⟨he, hend⟩
  · cases h.symm.trans hend
    exact ⟨acceptanceEffect_endOf (takeError_endOf e none _), .inl (acceptanceEffect_ps i s),
      fun hb => acceptanceEffect_font hb s, fun hh => acceptanceEffect_jmHits hh s⟩
  · cases h.symm.trans hend
    have hcsrs : (planOf i s).work.writesCsrs (acceptanceEffect i s) = false := by
      rw [writesCsrs_acceptanceEffect]
      exact writesCsrs_off_aperture he haperture
    have keeps := planOf_keepsTo i s he
    refine ⟨acceptanceEffect_endOf (complete_endOf hcsrs), ?_, fun hb => ?_, fun hh => ?_⟩
    · rw [complete_ps hcsrs, keeps.ps, acceptanceEffect_ps]
      cases hsrc : paletteSourceOf i with
      | none => exact .inl rfl
      | some src => exact .inr ⟨src, rfl, rfl⟩
    · rw [complete_font hcsrs (keeps.font hb), acceptanceEffect_font hb]
    · rw [complete_jmHits hcsrs (keeps.hits hh), acceptanceEffect_jmHits hh]

end Sys2Proof.Machine
end

section
/-! Commands without an access: NOP, PALBUILD and the identity case of the scaler (40_utilities R116, R117, 41_palette
R124, R128..R131). -/

namespace Sys2Proof.Machine

/-! ### Work that makes no access -/

@[simp] theorem Memory.fill_empty (m : Memory) (base : Nat) (f : Nat → Byte) : m.fill base 0 f = m := rfl

/-- Work without an access succeeds whatever the platform and the host do, and sets its tables alone. -/
theorem Work.complete_of_noAccess {w : Work} (hreads : w.reads = []) (hwrites : w.writes = [])
    (hout : w.out = Region.empty) (s : State) :
    w.complete s = s.succeeded s.mem (w.ps.getD s.ps) (w.font.getD s.csr.font)
      (match w.hits with | some n => BitVec.ofNat 16 n | Option.none => s.csr.jmHits) := by
  have hfail : w.failing s = [] := by simp [Work.failing, hreads, hwrites]
  have hcsrs : w.writesCsrs s = false := by simp [Work.writesCsrs, hwrites]
  have hend : w.complete s = endSuccess (publish w.ps w.font w.hits (w.store s false)) := by
    simp [Work.complete, hfail]
  rw [hend, Work.store_of_no_aperture _ _ _ hcsrs, hout]
  rfl

/-- Settles O8: NOP has no check and no access. -/
theorem nopSetsDone : Obligations.NopSetsDone := by
  intro s
  rw [exec_of_planOf_none (i := .nop) rfl]
  exact congrArg _ (Work.complete_of_noAccess rfl rfl rfl s)

/-- Settles O26: in the identity case the output is the source, so the range check is the source's, and there is no
access. -/
theorem scalerIdentityChangesNothing : Obligations.ScalerIdentityChangesNothing := by
  intro s i hidentity hsource
  have scaler (sh sw : Nat) (hsh : sh = 1) (hsw : sw = 1) (hbase : s.csr.outBase = s.csr.srcBase) :
      runPlan (scalerPlan sh sw s) s = .next (s.succeeded s.mem s.ps s.csr.font s.csr.jmHits) := by
    have hout : scalerOut s.csr sh sw = sourceRegion s.csr := by
      simp [scalerOut, outRegion, sourceRegion, hsh, hsw, hbase]
    have he : (scalerPlan sh sw s).error = none := (scalerPlan_error_eq_none sh sw s).2
      ⟨by omega, by omega, hsource, by rwa [hout], .inl ⟨hsh, hsw, hbase⟩⟩
    have hwork : (scalerPlan sh sw s).work = Work.none := by simp [scalerPlan, hsh, hsw, hbase]
    rw [runPlan_of_none he, hwork]
    exact congrArg _ (Work.complete_of_noAccess rfl rfl rfl s)
  cases i with
  | iscale sh sw =>
    simp only [scalerIdentity, Bool.and_eq_true, decide_eq_true_eq] at hidentity
    obtain ⟨⟨rfl, rfl⟩, hbase⟩ := hidentity
    exact scaler _ _ rfl rfl hbase
  | iwscale sw =>
    simp only [scalerIdentity, Bool.and_eq_true, decide_eq_true_eq] at hidentity
    obtain ⟨rfl, hbase⟩ := hidentity
    exact scaler _ _ rfl rfl hbase
  | _ => cases hidentity

/-! ### PALBUILD -/

theorem runPlan_palbuild (src : PaletteSource) (s : State) :
    runPlan (palbuildPlan src s) s = .next (s.succeeded s.mem (buildPalettes s src) s.csr.font s.csr.jmHits) := by
  rw [runPlan_of_none (p := palbuildPlan src s) rfl]
  exact congrArg _ (Work.complete_of_noAccess rfl rfl rfl s)

/-- The five banks of an entry below the count hold the styled versions of its source colour (41_palette R124). -/
theorem buildPalettes_below {s : State} {src : PaletteSource} {k : Byte} (h : k.toNat < sourceCount s.csr src)
    (c : StyleClass) :
    Table.get ((buildPalettes s src).bank c) k = styledColour s.csr (sourceColour s src k.toNat) c := by
  rw [buildPalettes_get, if_pos h]

theorem buildPalettes_above {s : State} {src : PaletteSource} {k : Byte} (h : ¬ k.toNat < sourceCount s.csr src)
    (c : StyleClass) : Table.get ((buildPalettes s src).bank c) k = .black := by
  rw [buildPalettes_get, if_neg h]

/-- The five banks of the palette set hold the normal colour `n` of entry k, blended or dimmed (41_palette R124). -/
def PaletteSet.HoldsStyled (p : PaletteSet) (c : Csrs) (k : Byte) (n : RGB) : Prop :=
  Table.get p.normal k = n ∧ Table.get p.highlight k = blend n c.highlightBg
    ∧ Table.get p.matched k = blend n c.matchBg ∧ Table.get p.comment k = blend n c.commentBg
    ∧ Table.get p.data k = dim n c.background c.dataBg

theorem buildPalettes_holdsStyled {s : State} {src : PaletteSource} {k : Byte} {n : RGB}
    (h : k.toNat < sourceCount s.csr src) (hn : sourceColour s src k.toNat = n) :
    (buildPalettes s src).HoldsStyled s.csr k n := by
  have bank := buildPalettes_below h
  rw [hn] at bank
  exact ⟨bank .normal, bank .highlight, bank .matched, bank .comment, bank .data⟩

theorem sourceColour_direct (s : State) (k : Byte) : sourceColour s .direct k.toNat = Table.get s.creg k := by
  simp [sourceColour]

theorem sourceColour_antic (s : State) {k : Byte} (h : k.toNat < 9) :
    sourceColour s .antic k.toNat = standardColour s s.csr.antic[k.toNat] := by
  have hk : (Fin.ofNat 9 k.toNat : Fin 9).val = k.toNat := Nat.mod_eq_of_lt h
  simp only [sourceColour, anticByte, Fin.getElem_fin, hk]

/-- Two nibbles that share no bit are one byte (41_palette R130, R131). -/
theorem nibbles_or (hi lo : Nat) (hlo : lo < 16) {a b : Byte} (ha : a.toNat = hi * 16)
    (hb : b.toNat = lo) : a ||| b = BitVec.ofNat 8 (hi * 16 + lo) := by
  apply BitVec.eq_of_toNat_eq
  have hor : 16 * hi + lo = 16 * hi ||| lo := Nat.two_pow_add_eq_or_of_lt (i := 4) hlo hi
  rw [BitVec.toNat_or, ha, hb, BitVec.toNat_ofNat, Nat.mul_comm hi 16]
  omega

theorem and_lowNibble_toNat (b : Byte) : (b &&& 0x0F).toNat = b.toNat % 16 := by
  rw [BitVec.toNat_and]
  exact Nat.and_two_pow_sub_one_eq_mod b.toNat 4

theorem sourceColour_gtia9 (s : State) {k : Byte} (h : k.toNat < 16) :
    sourceColour s .gtia9 k.toNat =
      standardColour s (BitVec.ofNat 8 (s.csr.antic[8].toNat / 16 * 16 + k.toNat)) := by
  simp only [sourceColour]
  exact congrArg _ (nibbles_or _ _ h (and_ignoreMask_toNat _) (by simp))

theorem sourceColour_gtia11 (s : State) {k : Byte} (h : k.toNat < 16) :
    sourceColour s .gtia11 k.toNat =
      standardColour s (BitVec.ofNat 8 (k.toNat * 16 + s.csr.antic[8].toNat % 16)) := by
  simp only [sourceColour]
  refine congrArg _ (nibbles_or _ _ (Nat.mod_lt _ (by decide)) ?_ (and_lowNibble_toNat _))
  rw [BitVec.toNat_shiftLeft, Nat.shiftLeft_eq, BitVec.ofNat_toNat, BitVec.setWidth_eq]
  omega

/-- Settles O9: a PALBUILD has no check and no access, and each source's entries are its normal colours. -/
theorem palbuildFillsPalettes : Obligations.PalbuildFillsPalettes := by
  intro s k
  refine ⟨⟨_, runPlan_palbuild .direct s, ?direct⟩, ⟨_, runPlan_palbuild .antic s, ?antic⟩,
    ⟨_, runPlan_palbuild .gtia9 s, ?gtia9⟩, ⟨_, runPlan_palbuild .gtia11 s, ?gtia11⟩⟩
  case direct =>
    split
    case isTrue h => exact buildPalettes_holdsStyled h (sourceColour_direct s k)
    case isFalse h => exact buildPalettes_above h
  case antic =>
    split
    case isTrue h => exact buildPalettes_holdsStyled h (sourceColour_antic s h)
    case isFalse h => exact buildPalettes_above h
  case gtia9 =>
    split
    case isTrue h => exact buildPalettes_holdsStyled h (sourceColour_gtia9 s h)
    case isFalse h => exact buildPalettes_above h
  case gtia11 =>
    split
    case isTrue h => exact buildPalettes_holdsStyled h (sourceColour_gtia11 s h)
    case isFalse h => exact buildPalettes_above h

end Sys2Proof.Machine
end

section
/-! The family 43_bitmap_renderers: the bits of each Unpack as numbers (R159..R177), and the picture of every renderer in an
undisturbed run (R153). -/

namespace Sys2Proof.Machine

/-! ### Bits of a byte as numbers -/

theorem bitOf_toNat (b : Byte) (i : Nat) : (bitOf b i).toNat = b.toNat / 2 ^ i % 2 := by
  rw [bitOf, BitVec.toNat_and, BitVec.toNat_ushiftRight, Nat.shiftRight_eq_div_pow]
  exact Nat.and_two_pow_sub_one_eq_mod _ 1

theorem oneBit_toNat (b : Byte) (x : Nat) : (oneBit b x).toNat = b.toNat / 2 ^ (7 - x % 8) % 2 := bitOf_toNat b _

/-- A two-bit field of a byte (43_bitmap_renderers R160, 42_font_baker R142). -/
theorem shiftRight_and_three_toNat (b : Byte) (k : Nat) : ((b >>> k) &&& 3).toNat = b.toNat / 2 ^ k % 4 := by
  rw [BitVec.toNat_and, BitVec.toNat_ushiftRight, Nat.shiftRight_eq_div_pow]
  exact Nat.and_two_pow_sub_one_eq_mod _ 2

theorem twoBits_toNat (b : Byte) (x : Nat) : (twoBits b x).toNat = b.toNat / 2 ^ (6 - 2 * (x % 4)) % 4 :=
  shiftRight_and_three_toNat b _

theorem nibble_toNat (b : Byte) (x : Nat) :
    (nibble b x).toNat = if x % 2 = 0 then b.toNat / 16 else b.toNat % 16 := by
  unfold nibble
  split
  · rw [BitVec.toNat_ushiftRight, Nat.shiftRight_eq_div_pow]
  · exact and_lowNibble_toNat b

/-- In the reversed byte bit 7 - i stands at place i (40_utilities R113). -/
theorem bitOf_bitReverse_toNat (b : Byte) {i : Nat} (hi : i < 8) :
    (bitOf (bitReverse b) (7 - i)).toNat = b.toNat / 2 ^ i % 2 := by
  have hbit : bitOf (bitReverse b) (7 - i) = bitOf b i := by
    apply BitVec.eq_of_getLsbD_eq
    intro j _
    rw [bitOf_getLsbD, bitOf_getLsbD, bitReverse_getLsbD b (by omega), show 7 - (7 - i) = i by omega]
  rw [hbit, bitOf_toNat]

theorem sevenBit_toNat (b : Byte) (x : Nat) : (sevenBit b x).toNat = b.toNat / 2 ^ (x % 7) % 2 :=
  bitOf_bitReverse_toNat b (by omega)

theorem anticOneBitRegister_toNat (v : Byte) : (anticOneBitRegister v).toNat = if v.toNat = 0 then 8 else 4 := by
  simp only [anticOneBitRegister, apply_ite BitVec.toNat, toNat_eq_zero_iff]
  rfl

theorem anticTwoBitRegister_toNat {v : Byte} (hv : v.toNat < 4) :
    (anticTwoBitRegister v).toNat = [8, 4, 5, 6].getD v.toNat 0 := by
  obtain rfl | rfl | rfl | rfl : v = 0 ∨ v = 1 ∨ v = 2 ∨ v = 3 := by bv_omega
  all_goals rfl

/-! ### What memory holds is a byte -/

theorem State.dataAt_lt (s : State) (i : Nat) : s.dataAt i < 256 := by
  unfold State.dataAt
  split
  · exact BitVec.isLt _
  · decide

@[simp] theorem State.ofNat_dataAt_toNat (s : State) (i : Nat) : (BitVec.ofNat 8 (s.dataAt i)).toNat = s.dataAt i := by
  rw [BitVec.toNat_ofNat, Nat.mod_eq_of_lt (s.dataAt_lt i)]

/-! ### The picture of a renderer, by its Unpack -/

theorem renders_of_unpack {i : Instr} {m : RenderMode} {s : State} {own : (y x : Nat) → Nat} {style : (y x : Nat) → Byte}
    {register : (y x : Nat) → Nat} (hexec : exec i s = runPlan (renderPlan m s) s) (hgeometry : m.geometryOk = true)
    (h : s.RenderReady m.width) (hown : ∀ y x, (m.unpack y x).own = own y x)
    (hstyle : ∀ y x, ((m.unpack y x).styleIdx.map s.styleAt).foldl (· ||| ·) 0 = style y x)
    (hregister : ∀ y x, ((m.unpack y x).colour
      ((m.unpack y x).dataIdx.map fun j => BitVec.ofNat 8 (s.dataAt j))).toNat = register y x) :
    s.Renders i m.source m.width own style register := by
  obtain ⟨mem, hrun, himage⟩ := renderPlan_quiet hgeometry h
  exact ⟨mem, hexec.trans hrun, himage.congr fun y x _ _ => by simp only [hown, hstyle, hregister]⟩

/-- A renderer whose pixels each come from one byte. -/
theorem rendersByte_of_single {i : Instr} {m : RenderMode} {s : State} {own : (y x : Nat) → Nat}
    {pixel : (x : Nat) → Byte → Byte} {register : (byte x : Nat) → Nat}
    (hexec : exec i s = runPlan (renderPlan m s) s) (hgeometry : m.geometryOk = true) (h : s.RenderReady m.width)
    (hunpack : ∀ y x, m.unpack y x = .single (own y x) (pixel x))
    (hpixel : ∀ x b, (pixel x b).toNat = register b.toNat x) : s.RendersByte i m.source m.width own register := by
  refine renders_of_unpack hexec hgeometry h (fun y x => ?own) (fun y x => ?style) fun y x => ?register
  case own => rw [hunpack]; rfl
  case style => simp [hunpack, Unpacked.single]
  case register =>
    simp only [hunpack, Unpacked.single, List.map_cons, List.headD_cons, hpixel, State.ofNat_dataAt_toNat]

/-! ### One byte, several pixels -/

/-- Settles O10: the three Unpacks are the bit fields of their byte. -/
theorem renderPackedPixels : Obligations.RenderPackedPixels := fun _ =>
  ⟨fun h => rendersByte_of_single (m := modeBw1 _) rfl rfl h (fun _ _ => rfl) fun x b => oneBit_toNat b x,
    fun h => rendersByte_of_single (m := modeBpp2 _) rfl rfl h (fun _ _ => rfl) fun x b => twoBits_toNat b x,
    fun h => rendersByte_of_single (m := modeBpp4 _) rfl rfl h (fun _ _ => rfl) fun x b => nibble_toNat b x⟩

/-- Settles O11: modes B and C, and modes D and E, share an Unpack. -/
theorem renderAnticModes : Obligations.RenderAnticModes := by
  intro s
  have oneBitRegister (x : Nat) (b : Byte) : (anticOneBitRegister (oneBit b x)).toNat =
      if b.toNat / 2 ^ (7 - x % 8) % 2 = 0 then 8 else 4 := by
    rw [anticOneBitRegister_toNat, oneBit_toNat]
  have twoBitRegister (x : Nat) (b : Byte) : (anticTwoBitRegister (twoBits b x)).toNat =
      [8, 4, 5, 6].getD (b.toNat / 2 ^ (6 - 2 * (x % 4)) % 4) 0 := by
    have hlt : (twoBits b x).toNat < 4 := by
      rw [twoBits_toNat]
      exact Nat.mod_lt _ (by decide)
    rw [anticTwoBitRegister_toNat hlt, twoBits_toNat]
  simp only [List.forall_mem_cons, List.not_mem_nil, false_imp_iff, implies_true, and_true]
  exact ⟨⟨fun h => rendersByte_of_single (m := modeAnticB _) rfl rfl h (fun _ _ => rfl) oneBitRegister,
      fun h => rendersByte_of_single (m := modeAnticC _) rfl rfl h (fun _ _ => rfl) oneBitRegister⟩,
    fun h => rendersByte_of_single (m := modeAnticD _) rfl rfl h (fun _ _ => rfl) twoBitRegister,
    fun h => rendersByte_of_single (m := modeAnticE _) rfl rfl h (fun _ _ => rfl) twoBitRegister⟩

/-- Settles O12. -/
theorem renderAppleHires : Obligations.RenderAppleHires := fun _ h =>
  rendersByte_of_single (m := modeA2Hires _) rfl rfl h (fun _ _ => rfl) fun x b => sevenBit_toNat b x

/-- Settles O15: one Unpack, three palette sources. -/
theorem renderGtiaModes : Obligations.RenderGtiaModes := fun _ h =>
  ⟨rendersByte_of_single (m := modeGtia9 _) rfl rfl h (fun _ _ => rfl) fun x b => nibble_toNat b x,
    rendersByte_of_single (m := modeGtia10 _) rfl rfl h (fun _ _ => rfl) fun x b => nibble_toNat b x,
    rendersByte_of_single (m := modeGtia11 _) rfl rfl h (fun _ _ => rfl) fun x b => nibble_toNat b x⟩

/-- Settles O18. -/
theorem renderBytePixels : Obligations.RenderBytePixels := by
  intro s
  simp only [List.forall_mem_cons, List.not_mem_nil, false_imp_iff, implies_true, and_true]
  exact ⟨fun h => rendersByte_of_single (m := modeJumpman _) rfl rfl h (fun _ _ => rfl) fun _ _ => rfl,
    fun h => rendersByte_of_single (m := modeMemmap _) rfl rfl h (fun _ _ => rfl) fun _ _ => rfl,
    fun h => rendersByte_of_single (m := modeHeatmap _) rfl rfl h (fun _ _ => rfl) fun _ _ => rfl⟩

/-! ### The Apple ][ screen order -/

/-- The two remainders of R168 are the middle and low bits of the line number. -/
theorem screenRowOffset_eq (y : Nat) : screenRowOffset y = 1024 * (y % 8) + 128 * (y / 8 % 8) + 40 * (y / 64) := by
  simp only [screenRowOffset]
  omega

/-- Settles O51: a byte's offset gives back its line in the block of 1024, its block of 128 and its third of the 120 bytes
used there. -/
theorem screenRowOffsets : Obligations.ScreenRowOffsets := by
  refine ⟨fun y _ => screenRowOffset_eq y, by decide, fun y z i j hy hz hi hj h => ?_⟩
  rw [screenRowOffset_eq, screenRowOffset_eq] at h
  have hthirds : y / 64 ≤ 2 ∧ z / 64 ≤ 2 := by omega
  have hlow : y % 8 = z % 8 := by omega
  have hmiddle : y / 8 % 8 = z / 8 % 8 := by omega
  have hhigh : y / 64 = z / 64 := by omega
  omega

/-- Settles O13: the geometry check passes, and the rows are in screen order. -/
theorem renderAppleScreenOrder : Obligations.RenderAppleScreenOrder := by
  intro s hbpr hrows h
  have hgeometry : (modeA2HiresScreen (bytesPerRow s) s.csr.numRows.toNat).geometryOk = true := by
    simp [modeA2HiresScreen, bytesPerRow, hbpr, hrows]
  have hwidth : (modeA2HiresScreen (bytesPerRow s) s.csr.numRows.toNat).width = 280 := by
    simp only [modeA2HiresScreen, bytesPerRow, hbpr]
  rw [← hwidth] at h ⊢
  refine rendersByte_of_single rfl hgeometry h (fun y x => ?_) fun x b => sevenBit_toNat b x
  simp only [modeA2HiresScreen, screenRowOffset_eq]

/-! ### Apple ][ artifact colours -/

/-- The register of a sub-pair (e, o) with the high bit `warm`, as numbers (43_bitmap_renderers R170). -/
def artifactRegister (e o warm : Nat) : Nat :=
  match e, o with
  | 0, 0 => 0
  | 0, _ => if warm = 0 then 3 else 5
  | _, 0 => if warm = 0 then 2 else 4
  | _, _ => 1

theorem artifactRegister_eq (e o warm : Nat) : artifactRegister e o warm =
    if e = 0 then (if o = 0 then 0 else if warm = 0 then 3 else 5)
    else (if o = 0 then (if warm = 0 then 2 else 4) else 1) := by
  cases e <;> cases o <;> rfl

theorem artifactColour_toNat (e o h : Byte) :
    (artifactColour e o h).toNat = artifactRegister e.toNat o.toNat h.toNat := by
  simp only [artifactColour, artifactRegister_eq, apply_ite BitVec.toNat, toNat_eq_zero_iff]
  rfl

/-- Sub-bit k of the pair of bytes b0, b1, as numbers (43_bitmap_renderers R169). -/
def subBit (b0 b1 k : Nat) : Nat := if k < 7 then b0 / 2 ^ k % 2 else b1 / 2 ^ (k - 7) % 2

theorem artifactSubBit_toNat (b0 b1 : Byte) (k : Nat) :
    (artifactSubBit b0 b1 k).toNat = subBit b0.toNat b1.toNat k := by
  simp only [artifactSubBit, subBit, apply_ite BitVec.toNat, bitOf_toNat]

/-- The high bit of a byte is its quotient by 128. -/
theorem bitOf_seven_toNat (b : Byte) : (bitOf b 7).toNat = b.toNat / 128 := by
  rw [bitOf_toNat]
  omega

theorem artifactIndex_toNat (b0 b1 : Byte) (u : Nat) :
    (artifactIndex b0 b1 u).toNat =
      artifactRegister (subBit b0.toNat b1.toNat (2 * (u / 2))) (subBit b0.toNat b1.toNat (2 * (u / 2) + 1))
        ((if u / 2 ≤ 3 then b0.toNat else b1.toNat) / 128) := by
  have hhigh : (if u / 2 ≤ 3 then bitOf b0 7 else bitOf b1 7).toNat =
      (if u / 2 ≤ 3 then b0.toNat else b1.toNat) / 128 := by
    split <;> exact bitOf_seven_toNat _
  simp only [artifactIndex, artifactColour_toNat, artifactSubBit_toNat, hhigh]

/-- Settles O14: the pair of bytes is read by the row's even column, the style by the pixel's own byte. -/
theorem renderAppleArtifact : Obligations.RenderAppleArtifact := by
  intro s h
  refine renders_of_unpack (m := modeA2Artifact _) rfl rfl h (fun _ _ => rfl) (fun y x => ?style) fun y x => ?register
  case style => simp [modeA2Artifact]
  case register =>
    by_cases hpair : 2 * (x / 14) + 1 < s.csr.bpr.toNat
    · simp only [modeA2Artifact, hpair, if_true, List.map_cons, List.map_nil, List.getD_cons_zero,
        List.getD_cons_succ, artifactIndex_toNat, State.ofNat_dataAt_toNat]
      rfl
    · simp only [modeA2Artifact, hpair, if_false, List.map_cons, List.map_nil, List.getD_cons_zero,
        List.getD_cons_succ, List.getD_nil, artifactIndex_toNat, State.ofNat_dataAt_toNat]
      rfl

end Sys2Proof.Machine
end

section
/-! The family 43_bitmap_renderers, bitplanes (R174..R177): the register number gathered bit by bit is the sum of its bits. -/

namespace Sys2Proof.Machine

/-! ### Bits at distinct places -/

/-- Setting a clear bit adds its value. -/
theorem or_twoPow_of_testBit_eq_false {a w : Nat} (h : a.testBit w = false) : a ||| 2 ^ w = a + 2 ^ w := by
  have hclear : a / 2 ^ w % 2 = 0 := by
    simp only [Nat.testBit_eq_decide_div_mod_eq, decide_eq_false_iff_not] at h
    omega
  have hpow : (2 : Nat) ^ (w + 1) = 2 ^ w * 2 := Nat.pow_succ 2 w
  have hlow : a % 2 ^ (w + 1) = a % 2 ^ w := by rw [hpow, Nat.mod_mul, hclear, Nat.mul_zero, Nat.add_zero]
  have hr : a % 2 ^ w < 2 ^ w := Nat.mod_lt _ (Nat.two_pow_pos w)
  have hbit : 2 ^ w + a % 2 ^ w = 2 ^ w ||| a % 2 ^ w := by simpa using Nat.two_pow_add_eq_or_of_lt hr 1
  have hsplit : 2 ^ (w + 1) * (a / 2 ^ (w + 1)) + a % 2 ^ w = a := by rw [← hlow]; exact Nat.div_add_mod _ _
  calc a ||| 2 ^ w
      = (2 ^ (w + 1) * (a / 2 ^ (w + 1)) ||| a % 2 ^ w) ||| 2 ^ w := by
        rw [← Nat.two_pow_add_eq_or_of_lt (by omega), hsplit]
    _ = 2 ^ (w + 1) * (a / 2 ^ (w + 1)) ||| (2 ^ w + a % 2 ^ w) := by rw [Nat.or_assoc, Nat.or_comm _ (2 ^ w), hbit]
    _ = 2 ^ (w + 1) * (a / 2 ^ (w + 1)) + (2 ^ w + a % 2 ^ w) := (Nat.two_pow_add_eq_or_of_lt (by omega) _).symm
    _ = a + 2 ^ w := by omega

/-- A bit put at a clear place of a byte adds its value. -/
theorem or_bitOf_toNat {acc : Byte} (b : Byte) (i : Nat) {w : Nat} (hw : w < 8) (hclear : acc.getLsbD w = false) :
    (acc ||| bitOf b i <<< w).toNat = acc.toNat + b.toNat / 2 ^ i % 2 * 2 ^ w := by
  have hpow : 2 ^ w < 2 ^ 8 := Nat.pow_lt_pow_right (by decide) hw
  rw [BitVec.toNat_or, BitVec.toNat_shiftLeft, Nat.shiftLeft_eq, bitOf_toNat]
  obtain hbit | hbit : b.toNat / 2 ^ i % 2 = 0 ∨ b.toNat / 2 ^ i % 2 = 1 := by omega
  · simp [hbit]
  · rw [hbit, Nat.one_mul, Nat.mod_eq_of_lt hpow]
    exact or_twoPow_of_testBit_eq_false hclear

/-- The bits of n planes, each at a place of its own, as a number: by induction on the planes gathered. -/
theorem gathered_toNat (g weight : Nat → Nat) (t n : Nat) (hw : ∀ p, p < n → weight p < 8)
    (hinj : ∀ p q, p < q → q < n → weight p ≠ weight q) :
    ((List.range n).foldl (fun acc p => acc ||| bitOf (BitVec.ofNat 8 (g p)) t <<< weight p) (0 : Byte)).toNat =
      ((List.range n).map fun p => (BitVec.ofNat 8 (g p)).toNat / 2 ^ t % 2 * 2 ^ weight p).sum := by
  induction n with
  | zero => rfl
  | succ n ih =>
    have hclear : ((List.range n).foldl (fun acc p => acc ||| bitOf (BitVec.ofNat 8 (g p)) t <<< weight p)
        (0 : Byte)).getLsbD (weight n) = false := by
      have hstart : (0 : Byte).getLsbD (weight n) = false := BitVec.getLsbD_zero
      rw [foldl_or_getLsbD, hstart, Bool.false_or, List.any_eq_false]
      intro p hp
      have hne := hinj p n (List.mem_range.1 hp) (Nat.lt_succ_self n)
      rw [BitVec.getLsbD_shiftLeft, bitOf_getLsbD]
      simp only [Bool.and_eq_true, Bool.not_eq_true', decide_eq_true_eq, decide_eq_false_iff_not]
      omega
    rw [List.range_succ, List.foldl_append, List.map_append, List.sum_append, List.foldl_cons, List.foldl_nil,
      or_bitOf_toNat _ _ (hw n (Nat.lt_succ_self n)) hclear,
      ih (fun p hp => hw p (by omega)) fun p q hpq hq => hinj p q hpq (by omega)]
    simp

theorem zipIdx_map_range {α : Type} (g : Nat → α) (n : Nat) :
    ((List.range n).map g).zipIdx = (List.range n).map fun p => (g p, p) := by
  apply List.ext_getElem
  · simp
  · intro p _ _
    simp

/-- The register of a bitplane pixel (43_bitmap_renderers R174, R175). -/
theorem planeIndex_toNat (g weight : Nat → Nat) (t n : Nat) (hg : ∀ p, g p < 256) (hw : ∀ p, p < n → weight p < 8)
    (hinj : ∀ p q, p < q → q < n → weight p ≠ weight q) :
    (planeIndex weight t ((List.range n).map fun p => BitVec.ofNat 8 (g p))).toNat =
      ((List.range n).map fun p => g p / 2 ^ (7 - t) % 2 * 2 ^ weight p).sum := by
  have hbyte (p : Nat) : (BitVec.ofNat 8 (g p)).toNat = g p := by rw [BitVec.toNat_ofNat, Nat.mod_eq_of_lt (hg p)]
  rw [planeIndex, zipIdx_map_range, List.map_map, List.foldl_map]
  have hsum := gathered_toNat g weight (7 - t) n hw hinj
  simp only [hbyte] at hsum
  exact hsum

/-! ### The four bitplane renderers -/

/-- A bitplane renderer with a legal plane count that divides the row, by its byte layout. -/
theorem rendersPlanes_of_layout {i : Instr} {n : Byte} {s : State} {layout : (rs g p : Nat) → Nat} {weight : Nat → Nat}
    (hexec : exec i s = runPlan (planesPlan n (modePlanes n.toNat (bytesPerRow s) layout weight) s) s)
    (hn : 1 ≤ n.toNat ∧ n.toNat ≤ 4) (hdiv : s.csr.bpr.toNat % n.toNat = 0)
    (h : s.RenderReady (8 * s.csr.bpr.toNat / n.toNat)) (hw : ∀ p, p < n.toNat → weight p < 8)
    (hinj : ∀ p q, p < q → q < n.toNat → weight p ≠ weight q) :
    s.RendersPlanes i n.toNat (fun y g p => layout (y * s.csr.bpr.toNat) g p) weight := by
  have hlegal : legalPlanes n = true := by simp [legalPlanes, hn]
  have hplan : exec i s = runPlan (renderPlan (modePlanes n.toNat (bytesPerRow s) layout weight) s) s := by
    rw [hexec, planesPlan, if_pos hlegal]
  refine renders_of_unpack hplan (decide_eq_true hdiv) h (fun y x => rfl) (fun y x => ?style) fun y x => ?register
  case style => simp only [modePlanes, bytesPerRow, List.map_map, List.foldl_map, Function.comp_def]
  case register =>
    simp only [modePlanes, bytesPerRow, List.map_map, Function.comp_def]
    exact planeIndex_toNat (fun p => s.dataAt (layout (y * s.csr.bpr.toNat) (x / 8) p)) weight (x % 8) n.toNat
      (fun p => s.dataAt_lt _) hw hinj

/-- Settles O16: the planes of a group adjacent, and the weights rising or falling. -/
theorem renderAdjacentPlanes : Obligations.RenderAdjacentPlanes := fun _ n hlo hhi hdiv h =>
  ⟨rendersPlanes_of_layout (i := .renderBplLe n) (layout := fun rs g p => rs + g * n.toNat + p) rfl ⟨hlo, hhi⟩ hdiv h
      (fun p hp => by omega) fun p q hpq _ => by omega,
    rendersPlanes_of_layout (i := .renderBplBe n) (layout := fun rs g p => rs + g * n.toNat + p) rfl ⟨hlo, hhi⟩ hdiv h
      (fun p hp => by omega) fun p q hpq _ => by omega⟩

/-- Settles O17: the planes in strips of the row. -/
theorem renderInterleavedPlanes : Obligations.RenderInterleavedPlanes := fun s n hlo hhi hdiv h =>
  ⟨rendersPlanes_of_layout (i := .renderBplIlLe n) (layout := fun rs g p => rs + p * (s.csr.bpr.toNat / n.toNat) + g) rfl
      ⟨hlo, hhi⟩ hdiv h (fun p hp => by omega) fun p q hpq _ => by omega,
    rendersPlanes_of_layout (i := .renderBplIlBe n) (layout := fun rs g p => rs + p * (s.csr.bpr.toNat / n.toNat) + g) rfl
      ⟨hlo, hhi⟩ hdiv h (fun p hp => by omega) fun p q hpq _ => by omega⟩

end Sys2Proof.Machine
end

section
/-! The family 42_font_baker: the tables of each BAKE mode (R141..R146) and its two frames (R147). -/

namespace Sys2Proof.Machine

/-! ### Glyph bytes and their bits -/

theorem State.glyphAt_lt (s : State) (glyphs i : Nat) : s.glyphAt glyphs i < 256 := by
  unfold State.glyphAt
  split
  · exact BitVec.isLt _
  · decide

@[simp] theorem State.ofNat_glyphAt_toNat (s : State) (glyphs i : Nat) :
    (BitVec.ofNat 8 (s.glyphAt glyphs i)).toNat = s.glyphAt glyphs i := by
  rw [BitVec.toNat_ofNat, Nat.mod_eq_of_lt (s.glyphAt_lt glyphs i)]

theorem bitOf_eq_one_iff (b : Byte) (i : Nat) : bitOf b i = 1 ↔ b.toNat / 2 ^ i % 2 = 1 := by
  rw [← BitVec.toNat_inj, bitOf_toNat]
  rfl

theorem bitOf_bitReverse_eq_one_iff (b : Byte) {i : Nat} (hi : i < 8) :
    bitOf (bitReverse b) (7 - i) = 1 ↔ b.toNat / 2 ^ i % 2 = 1 := by
  rw [← BitVec.toNat_inj, bitOf_bitReverse_toNat b hi]
  rfl

/-- A complement, as the rules and the code write it. -/
theorem xor_iff_ne {a b : Bool} {p q : Prop} (ha : a = true ↔ p) (hb : b = true ↔ q) : (a ^^ b) = true ↔ p ≠ q := by
  rw [← propext ha, ← propext hb]
  cases a <;> cases b <;> simp

/-- Two registers chosen by a test, whichever way the test is written. -/
theorem register_ite {b : Bool} {q : Prop} [Decidable q] (h : b = true ↔ q) (pal : Nat → RGB) (x y : Nat) :
    (if b = true then pal x else pal y) = pal (if q then x else y) := by
  rw [apply_ite pal]
  exact if_congr h rfl rfl

/-! ### The tables of a mode, by its pixel -/

/-- A BAKE whose every pixel shows one register of its class (42_font_baker R137). -/
theorem bakes_of_pixel {i : Instr} {m : BakeMode} {s : State} {register : (f slot row col : Nat) → Nat}
    (hexec : exec i s = runPlan (bakePlan m s) (clearFontValid s)) (h : s.BakeReady m.glyphs (cellWidth m.cell7))
    (hpixel : ∀ (pal : Nat → RGB) (f slot row col : Nat), f < 2 → slot < 256 → row < 8 → col < cellWidth m.cell7 →
      m.pixel (fun k => pal k.toNat) f slot col (BitVec.ofNat 8 (s.glyphAt m.glyphs (8 * m.glyphOf slot + row))) =
        pal (register f slot row col)) :
    s.Bakes i m.source (cellWidth m.cell7) m.fontState register := by
  obtain ⟨mem, hrun, htables, hframe⟩ := bakePlan_quiet h
  refine ⟨mem, hexec.trans hrun, fun c f slot row col hf hslot hrow hcol => ?_, hframe⟩
  have hpal : paletteEntry (buildPalettes s m.source) (sourceCount s.csr m.source) c =
      fun k => s.registerColour m.source c k.toNat := funext fun k => paletteEntry_byte s m.source c k
  rw [htables c f slot row col hf hslot hrow hcol, hpal]
  exact hpixel _ f slot row col hf hslot hrow hcol

/-- Settles O19. -/
theorem bakeGr0Tables : Obligations.BakeGr0Tables := by
  intro s h
  refine bakes_of_pixel (m := modeBakeGr0 s.csr) rfl h fun pal f slot row col _ _ _ _ => ?_
  have hinverse := xor_iff_ne (decide_eq_true_iff (p := 128 ≤ slot)) (Iff.refl (s.csr.reverse = true))
  have hbit := bitOf_eq_one_iff (BitVec.ofNat 8 (s.glyphAt 128 (8 * (slot % 128) + row))) (7 - col)
  rw [State.ofNat_glyphAt_toNat] at hbit
  exact register_ite (xor_iff_ne (decide_eq_true_iff.trans hbit) hinverse) pal 5 6

/-- Settles O20: the four values of a pair, each doubled. -/
theorem bakeAntic4Tables : Obligations.BakeAntic4Tables := by
  intro s h
  refine bakes_of_pixel (m := modeBakeAntic4 s.csr) rfl h fun pal f slot row col _ _ _ _ => ?_
  have hinverse := xor_iff_ne (decide_eq_true_iff (p := 128 ≤ slot)) (Iff.refl (s.csr.reverse = true))
  simp only [modeBakeAntic4, widthScale, scaleImage, shiftRight_and_three_toNat, State.ofNat_glyphAt_toNat]
  have hpair : s.glyphAt 128 (8 * (slot % 128) + row) / 2 ^ (6 - 2 * (col / 2)) % 4 < 4 := Nat.mod_lt _ (by decide)
  generalize s.glyphAt 128 (8 * (slot % 128) + row) / 2 ^ (6 - 2 * (col / 2)) % 4 = pair at hpair ⊢
  obtain rfl | rfl | rfl | rfl : pair = 0 ∨ pair = 1 ∨ pair = 2 ∨ pair = 3 := by omega
  · rfl
  · rfl
  · rfl
  · exact register_ite hinverse pal 7 6

/-- The pixel of the GR.1/GR.2 modes (42_font_baker R143). -/
theorem gr12Pixel_eq (c : Csrs) (pal : Nat → RGB) {slot : Nat} (hslot : slot < 256) (col : Nat) (b : Byte) :
    gr12Pixel c (fun k => pal k.toNat) slot col b =
      pal (if (b.toNat / 2 ^ (7 - col) % 2 = 1) ≠ (c.reverse = true) then 4 + slot / 64 else 8) := by
  have hband : (BitVec.ofNat 8 (4 + slot / 64)).toNat = 4 + slot / 64 := by
    rw [BitVec.toNat_ofNat]
    omega
  have hshown := xor_iff_ne (decide_eq_true_iff.trans (bitOf_eq_one_iff b (7 - col))) (Iff.refl (c.reverse = true))
  rw [gr12Pixel, playfield, hband]
  exact register_ite hshown pal (4 + slot / 64) 8

/-- Settles O21: the two halves of the font. -/
theorem bakeGr12Tables : Obligations.BakeGr12Tables := by
  intro s h
  refine ⟨bakes_of_pixel (m := modeBakeGr12Upper s.csr) rfl h fun pal f slot row col _ hslot _ _ => ?_,
    bakes_of_pixel (m := modeBakeGr12Lower s.csr) rfl h fun pal f slot row col _ hslot _ _ => ?_⟩
  · simp only [modeBakeGr12Upper, gr12Pixel_eq s.csr pal hslot, State.ofNat_glyphAt_toNat, Nat.add_zero]
  · simp only [modeBakeGr12Lower, gr12Pixel_eq s.csr pal hslot, State.ofNat_glyphAt_toNat]

/-- The inverse slots of an Apple ][ font before REVERSE (42_font_baker R145, R147). -/
theorem appleInverse_iff (c : Csrs) (f slot : Nat) : appleInverse c f slot = true ↔
    c.glyphs256 = false ∧ (slot < 64 ∨ (slot < 128 ∧ c.hasBlink = true ∧ f = 0)) := by
  unfold appleInverse
  split
  · simp [*]
  · split
    · simp [*]
    · split
      · simp_all
      · simp_all

/-- Settles O22. -/
theorem bakeAppleTables : Obligations.BakeAppleTables := by
  intro s glyphs h
  have hglyph (slot : Nat) (hslot : slot < 256) :
      (if s.csr.glyphs256 then slot else slot % 128) = slot % glyphs := by
    simp only [glyphs]
    split
    · exact (Nat.mod_eq_of_lt hslot).symm
    · rfl
  refine bakes_of_pixel (m := modeBakeApple s.csr) rfl h fun pal f slot row col _ hslot _ hcol => ?_
  have hcol : col < 8 := Nat.lt_trans (m := 7) hcol (by decide)
  have hinverse := xor_iff_ne (appleInverse_iff s.csr f slot) (Iff.refl (s.csr.reverse = true))
  have hbit := bitOf_bitReverse_eq_one_iff (BitVec.ofNat 8 (s.glyphAt glyphs (8 * (slot % glyphs) + row))) hcol
  rw [State.ofNat_glyphAt_toNat] at hbit
  simp only [modeBakeApple, hglyph slot hslot]
  exact register_ite (xor_iff_ne (decide_eq_true_iff.trans hbit) hinverse) pal 1 0

/-! ### The two frames -/

/-- What a BAKE's tables say of one pixel in both frames, of the state it leaves. -/
theorem bakes_pixels {s : State} {i : Instr} {src : PaletteSource} {cw : Nat} {font : FontState}
    {register : (f slot row col : Nat) → Nat} (h : s.Bakes i src cw font register) (c : StyleClass) {slot row col : Nat}
    (hslot : slot < 256) (hrow : row < 8) (hcol : col < cw) :
    ∃ t, exec i s = .next t ∧ t.csr.status.done = true ∧ ∀ f, f < 2 →
      t.mem.colourAt (s.csr.bakeBase.toNat + 3 * ((((c.index * 2 + f) * 256 + slot) * 8 + row) * cw + col)) =
        s.registerColour src c (register f slot row col) := by
  obtain ⟨m, hexec, htables, _⟩ := h
  exact ⟨_, hexec, rfl, fun f hf => htables c f slot row col hf hslot hrow hcol⟩

/-- An Atari mode's register does not depend on the frame. -/
theorem frames_alike {s : State} {i : Instr} {src : PaletteSource} {cw : Nat} {font : FontState}
    {register : (slot row col : Nat) → Nat} (h : s.Bakes i src cw font fun _ => register) (c : StyleClass)
    {slot row col : Nat} (hslot : slot < 256) (hrow : row < 8) (hcol : col < cw) :
    ∃ t, exec i s = .next t ∧ t.csr.status.done = true ∧
      t.mem.colourAt (s.csr.bakeBase.toNat + 3 * ((((c.index * 2 + 1) * 256 + slot) * 8 + row) * cw + col)) =
      t.mem.colourAt (s.csr.bakeBase.toNat + 3 * ((((c.index * 2 + 0) * 256 + slot) * 8 + row) * cw + col)) := by
  obtain ⟨t, hexec, hdone, hpixel⟩ := bakes_pixels h c hslot hrow hcol
  exact ⟨t, hexec, hdone, (hpixel 1 (by decide)).trans (hpixel 0 (by decide)).symm⟩

/-- The register of an Apple ][ pixel with the given glyph byte (42_font_baker R145..R147). -/
def appleRegister (c : Csrs) (glyph f slot col : Nat) : Nat :=
  let bit := glyph / 2 ^ col % 2 = 1
  let base := c.glyphs256 = false ∧ (slot < 64 ∨ (slot < 128 ∧ c.hasBlink = true ∧ f = 0))
  if bit ≠ (base ≠ (c.reverse = true)) then 1 else 0

/-- A blinking slot shows the two registers swapped (42_font_baker R147). -/
theorem appleRegister_blinking {c : Csrs} {slot : Nat} (hfont : c.glyphs256 = false) (hblink : c.hasBlink = true)
    (hlo : 64 ≤ slot) (hhi : slot < 128) (glyph col : Nat) :
    (appleRegister c glyph 0 slot col = 0 ∧ appleRegister c glyph 1 slot col = 1) ∨
    (appleRegister c glyph 0 slot col = 1 ∧ appleRegister c glyph 1 slot col = 0) := by
  have hslot : ¬ slot < 64 := Nat.not_lt.2 hlo
  by_cases hbit : glyph / 2 ^ col % 2 = 1 <;> cases hreverse : c.reverse <;>
    simp [appleRegister, hfont, hblink, hslot, hhi, hbit, hreverse]

/-- Any other slot shows the same register in both frames. -/
theorem appleRegister_steady {c : Csrs} {slot : Nat}
    (h : ¬ (c.glyphs256 = false ∧ c.hasBlink = true ∧ 64 ≤ slot ∧ slot < 128)) (glyph col : Nat) :
    appleRegister c glyph 1 slot col = appleRegister c glyph 0 slot col := by
  have hbase : (c.glyphs256 = false ∧ (slot < 64 ∨ (slot < 128 ∧ c.hasBlink = true ∧ 1 = 0))) =
      (c.glyphs256 = false ∧ (slot < 64 ∨ (slot < 128 ∧ c.hasBlink = true ∧ 0 = 0))) := by
    refine propext (and_congr_right fun hfont => ⟨?_, ?_⟩)
    · rintro (hinverse | ⟨_, _, hframe⟩)
      · exact .inl hinverse
      · cases hframe
    · rintro (hinverse | ⟨hhi, hblink, _⟩)
      · exact .inl hinverse
      · exact .inl (Nat.lt_of_not_le fun hlo => h ⟨hfont, hblink, hlo, hhi⟩)
  simp only [appleRegister, hbase]

/-- One pixel of an Apple ][ table in both frames. -/
theorem bakeApple_pixels {s : State} (h : s.BakeReady (if s.csr.glyphs256 then 256 else 128) 7) (c : StyleClass)
    {slot row col : Nat} (hslot : slot < 256) (hrow : row < 8) (hcol : col < 7) :
    ∃ t glyph, exec .bakeApple s = .next t ∧ t.csr.status.done = true ∧ ∀ f, f < 2 →
      t.mem.colourAt (s.csr.bakeBase.toNat + 3 * ((((c.index * 2 + f) * 256 + slot) * 8 + row) * 7 + col)) =
        s.registerColour .direct c (appleRegister s.csr glyph f slot col) := by
  obtain ⟨t, hexec, hdone, hpixel⟩ := bakes_pixels (bakeAppleTables s h) c hslot hrow hcol
  exact ⟨t, _, hexec, hdone, hpixel⟩

/-- Settles O23: only an Apple font's register depends on the frame, and there by the inverse of a blinking slot. -/
theorem blinkFramesDifferOnlyInBlinkSlots : Obligations.BlinkFramesDifferOnlyInBlinkSlots := by
  intro s i c slot row col apple cw glyphs hi h hslot hrow hcol
  simp only [List.mem_cons, List.not_mem_nil, or_false] at hi
  rcases hi with rfl | rfl | rfl | rfl | rfl
  case inr.inr.inr.inr =>
    have hglyphs : glyphs = if s.csr.glyphs256 then 256 else 128 := by simp [glyphs, apple]
    rw [hglyphs] at h
    obtain ⟨t, glyph, hexec, hdone, hpixel⟩ := bakeApple_pixels h c hslot hrow hcol
    have hzero := hpixel 0 (by decide)
    have hone := hpixel 1 (by decide)
    refine ⟨t, hexec, hdone, ?_⟩
    split
    case isTrue hblink =>
      obtain ⟨_, hfont, hblink, hlo, hhi⟩ := hblink
      rcases appleRegister_blinking hfont hblink hlo hhi glyph col with ⟨h0, h1⟩ | ⟨h0, h1⟩
      · exact .inl ⟨hzero.trans (congrArg _ h0), hone.trans (congrArg _ h1)⟩
      · exact .inr ⟨hzero.trans (congrArg _ h0), hone.trans (congrArg _ h1)⟩
    case isFalse hsteady =>
      have hsame := appleRegister_steady (fun hb => hsteady ⟨rfl, hb⟩) glyph col
      exact hone.trans ((congrArg _ hsame).trans hzero.symm)
  · exact frames_alike (bakeGr0Tables s h) c hslot hrow hcol
  · exact frames_alike (bakeAntic4Tables s h) c hslot hrow hcol
  · exact frames_alike (bakeGr12Tables s h).1 c hslot hrow hcol
  · exact frames_alike (bakeGr12Tables s h).2 c hslot hrow hcol

end Sys2Proof.Machine
end

section
/-! FRENDER, the scaler and HARVEST in an undisturbed run (44_font_renderer R190..R193, 40_utilities R114..R119,
46_jumpman R204..R207). -/

namespace Sys2Proof.Machine

/-! ### FRENDER -/

/-- The baked pixel of a cell, by the parts of its address (44_font_renderer R190, 42_font_baker R138). -/
theorem glyphPixelAddr_eq (s : State) (cw : Nat) (d t : Byte) (r u : Nat) :
    glyphPixelAddr s cw d t r u = s.csr.bakeBase.toNat
      + 3 * (((((styleClass t).index * 2 + if s.csr.frame then 1 else 0) * 256
        + (Table.get (if s.csr.cmapAtascii then s.platform.cmapAtascii else s.platform.cmapInternal) d).toNat) * 8 + r)
          * cw + u) := by
  have hframe : s.csr.frame.toNat = if s.csr.frame then 1 else 0 := by cases s.csr.frame <;> rfl
  have hslot : mapCharacter s d =
      Table.get (if s.csr.cmapAtascii then s.platform.cmapAtascii else s.platform.cmapInternal) d := by
    unfold mapCharacter
    split <;> rfl
  rw [glyphPixelAddr, bakeOffset, hframe, hslot]

/-- Settles O24. -/
theorem frenderDrawsText : Obligations.FrenderDrawsText := by
  intro s h
  obtain ⟨m, hexec, himage⟩ := planFrender_quiet h
  exact ⟨m, hexec, himage.congr fun Y X _ _ => by simp only [glyphPixelAddr_eq]; rfl⟩

/-! ### The scaler -/

/-- Settles O48: dividing by two factors in turn divides by their product. -/
theorem scalingLaws : Obligations.ScalingLaws := by
  intro pre
  refine ⟨?identity, fun s1 t1 s2 t2 => ?composition, fun sh sw y x dy dx hy hx => ?block, fun sw y x => ?widthOnly⟩
  case identity =>
    funext y x
    simp only [scaleImage, Nat.div_one]
  case composition =>
    funext y x
    simp only [scaleImage, Nat.div_div_eq_div_mul, Nat.mul_comm]
  case block =>
    have quotient (q d n : Nat) (hd : d < n) : (q * n + d) / n = q := by
      rw [Nat.mul_comm, Nat.mul_add_div (by omega), Nat.div_eq_of_lt hd, Nat.add_zero]
    simp only [scaleImage, quotient y dy sh hy, quotient x dx sw hx]
  case widthOnly => simp only [widthScale, scaleImage, Nat.div_one]

/-- Settles O25. -/
theorem scalerCopiesBlocks : Obligations.ScalerCopiesBlocks := by
  intro s sh sw
  refine ⟨fun h hid => scalerPlan_quiet h ?_, fun h hid => scalerPlan_quiet h ?_⟩
  · rintro ⟨hsh, hsw, hbase⟩
    rw [byte_toNat_eq_one] at hsh hsw
    simp [scalerIdentity, hsh, hsw, hbase] at hid
  · rintro ⟨_, hsw, hbase⟩
    rw [byte_toNat_eq_one] at hsw
    simp [scalerIdentity, hsw, hbase] at hid

/-! ### HARVEST -/

/-- A marked record of an undisturbed list names offset k of the plane (46_jumpman R205). -/
def State.names (s : State) (k : Nat) : Prop :=
  ∃ n, n < s.csr.jmCount.toNat ∧ s.marks n = true
    ∧ s.recordByte n 3 * s.csr.bpr.toNat + s.recordByte n 2 = k

theorem peanutOffset_quiet {s : State} (hl : s.readable (listRegion s.csr)) (hq : s.inTouched = []) {n : Nat}
    (hn : n < s.csr.jmCount.toNat) :
    peanutOffset s.csr (peanut s n) = s.recordByte n 3 * s.csr.bpr.toNat + s.recordByte n 2 := by
  rw [peanut_quiet hl hq hn]
  rfl

theorem hitRecords_any_iff {s : State} (hl : s.readable (listRegion s.csr)) (hq : s.inTouched = []) (k : Nat) :
    ((hitRecords s).any fun n => peanutOffset s.csr (peanut s n) == k) = true ↔ s.names k := by
  rw [hitRecords_quiet hl hq, List.any_eq_true]
  simp only [List.mem_filter, List.mem_range, beq_iff_eq, and_assoc]
  refine exists_congr fun n => and_congr_right fun hn => and_congr_right fun _ => ?_
  rw [peanutOffset_quiet hl hq hn]

/-- The plane byte at an offset after an undisturbed HARVEST. -/
theorem harvestByte_of_names {s : State} (hl : s.readable (listRegion s.csr)) (hq : s.inTouched = []) {k : Nat}
    (h : s.names k) : harvestByte s k = s.mem.read (s.csr.styleBase.toNat + k) ||| 0x20 := by
  simp only [harvestByte]
  rw [if_pos ((hitRecords_any_iff hl hq k).2 h)]

theorem harvestByte_of_not_names {s : State} (hl : s.readable (listRegion s.csr)) (hq : s.inTouched = []) {k : Nat}
    (h : ¬ s.names k) : harvestByte s k = s.mem.read (s.csr.styleBase.toNat + k) := by
  simp only [harvestByte]
  rw [if_neg (mt (hitRecords_any_iff hl hq k).1 h)]

theorem hitRecords_length {s : State} (hl : s.readable (listRegion s.csr)) (hq : s.inTouched = []) :
    (hitRecords s).length = (List.range s.csr.jmCount.toNat).countP s.marks := by
  rw [hitRecords_quiet hl hq, List.countP_eq_length_filter]

/-- Settles O27: the plane is filled with the marked bytes, and the records that mark are counted. -/
theorem harvestMarksInvalidCells : Obligations.HarvestMarksInvalidCells := by
  intro s h
  obtain ⟨hquiet, _⟩ := h.host
  refine ⟨s.mem.fill s.csr.styleBase.toNat (s.csr.bpr.toNat * s.csr.numRows.toNat) (harvestByte s), ?exec,
    fun k hk => ⟨fun hnames => ?named, fun hnames => ?unnamed⟩,
    fun a ha => ?outside⟩
  case exec =>
    rw [← hitRecords_length h.listRead hquiet]
    exact planHarvest_quiet h
  case named => exact (Memory.read_fill_inside _ _ _ _ _ hk).trans (harvestByte_of_names h.listRead hquiet hnames)
  case unnamed => exact (Memory.read_fill_inside _ _ _ _ _ hk).trans (harvestByte_of_not_names h.listRead hquiet hnames)
  case outside => exact Memory.read_fill_outside _ _ _ _ _ ha

end Sys2Proof.Machine
end

section
/-! The family 60_exceptions, BUS: the end of a command one of whose accesses fails (R213, R216). -/

namespace Sys2Proof.Machine

/-- The state of a BUS end that did not reach the CSRs: the error response, ERR_ADDR, the tables of the command and the
memory of its write region (60_exceptions R216). -/
theorem complete_bus {w : Work} {s : State} (hfail : w.failing s ≠ []) (hcsrs : w.writesCsrs s = false) :
    ∃ m b, b ∈ w.failing s ∧ w.complete s =
      { s.failedWith .bus with
        mem := m
        ps := w.ps.getD s.ps
        csr := { (s.failedWith .bus).csr with
          errAddr := BitVec.ofNat 32 b
          font := (w.font.map fun _ => invalidFont s).getD s.csr.font
          jmHits := (w.hits.map fun _ => BitVec.ofNat 16 s.unspecifiedHits).getD s.csr.jmHits } } := by
  rcases w.complete_cases s with ⟨hnone, _⟩ | ⟨b, hb, hend⟩
  · exact absurd hnone hfail
  · refine ⟨s.mem.fill w.out.base w.out.len (w.finalByte s true), b, hb, ?_⟩
    rw [hend, Work.store_of_no_aperture _ _ _ hcsrs]
    cases w.hits <;> rfl

/-- A BAKE has cleared VALID at its acceptance already. -/
theorem invalidFont_acceptanceEffect {i : Instr} (h : i ∈ bakes) (s : State) :
    invalidFont (acceptanceEffect i s) = (acceptanceEffect i s).csr.font := by
  rcases acceptanceEffect_cases i s with ⟨_, he⟩ | ⟨rfl, _⟩ | ⟨hb, _⟩
  · rw [he]; rfl
  · exact absurd h (by decide)
  · exact absurd h hb

theorem keepsTo_font {i : Instr} {s : State} {w : Work} (k : KeepsTo w i s) :
    (w.font.map fun _ => invalidFont (acceptanceEffect i s)).getD (acceptanceEffect i s).csr.font =
      (acceptanceEffect i s).csr.font := by
  by_cases hb : i ∈ bakes
  · rw [invalidFont_acceptanceEffect hb]
    cases w.font <;> rfl
  · rw [k.font hb]
    rfl

theorem keepsTo_palettes {i : Instr} {s : State} {w : Work} (k : KeepsTo w i s) : w.ps.getD s.ps = s.palettesAfter i := by
  rw [k.ps, State.palettesAfter]
  cases paletteSourceOf i <;> rfl

/-- An access that the rule makes and the platform fails is one of the work's failing accesses. -/
theorem failing_ne_nil {i : Instr} {s : State} {d : Dir} {a : Nat} (he : (planOf i s).error = none)
    (haccess : s.accesses i d a) (hbus : s.busError d a = true) :
    (planOf i s).work.failing (acceptanceEffect i s) ≠ [] := by
  rw [failing_acceptanceEffect]
  refine List.ne_nil_of_mem (a := a) (Work.mem_failing.2 ?_)
  cases d with
  | read => exact .inl ⟨mem_reads_of_readsAt he haccess, hbus⟩
  | write =>
    refine .inr ⟨?_, hbus⟩
    simp only [State.accesses] at haccess
    split at haccess
    case isTrue hharvest =>
      subst hharvest
      exact mem_markedAddrs_of_marksAt haccess
    case isFalse hharvest =>
      obtain ⟨hid, ha⟩ := haccess
      have regions := planOf_hasRegions i s he hid
      rw [regions.writes hharvest, regions.out]
      exact (Region.mem_addrs _ _).2 ha

/-- Settles O33. -/
theorem failingAccessEndsInBus : Obligations.FailingAccessEndsInBus := by
  intro s i d a hwf hscale hgeometry hfont hrange hoverlap hharvest haperture haccess hbus
  have he := planOf_error_none hwf hscale hgeometry hfont hrange hoverlap
  have keeps := planOf_keepsTo i s he
  have hcsrs : (planOf i s).work.writesCsrs (acceptanceEffect i s) = false := by
    rw [writesCsrs_acceptanceEffect]
    exact writesCsrs_off_aperture he haperture
  obtain ⟨m, b, hb, hend⟩ := complete_bus (failing_ne_nil he haccess hbus) hcsrs
  rw [keepsTo_font keeps, keeps.hits hharvest, acceptanceEffect_ps, keepsTo_palettes keeps] at hend
  have hexec := (exec_of_planOf_none he).trans (congrArg _ hend)
  exact ⟨m, b, hexec, failsAt_of_failing he (acceptanceEffect_platform i s) hb, fun x hx => exec_mem_outside hexec hx⟩

theorem unspecifiedHits_le (s : State) : (BitVec.ofNat 16 s.unspecifiedHits).toNat ≤ s.csr.jmCount.toNat := by
  have hlt : s.unspecifiedHits < s.csr.jmCount.toNat + 1 := Nat.mod_lt _ (Nat.succ_pos _)
  rw [BitVec.toNat_ofNat]
  omega

/-- Settles O34: HARVEST sets no palette and no font, and JM_HITS is drawn from 0..JM_COUNT. -/
theorem failingAccessEndsHarvestInBus : Obligations.FailingAccessEndsHarvestInBus := by
  intro s d a hrange hoverlap haperture haccess hbus
  have he : (planOf .harvest s).error = none := planOf_error_none rfl rfl rfl rfl hrange hoverlap
  have hcsrs : (planOf .harvest s).work.writesCsrs (acceptanceEffect .harvest s) = false := by
    rw [writesCsrs_acceptanceEffect]
    exact writesCsrs_off_aperture he haperture
  obtain ⟨m, b, hb, hend⟩ := complete_bus (failing_ne_nil he haccess hbus) hcsrs
  have hexec := (exec_of_planOf_none he).trans (congrArg _ hend)
  exact ⟨m, b, _, hexec, failsAt_of_failing he rfl hb, unspecifiedHits_le (clearHits s),
    fun x hx => exec_mem_outside hexec hx⟩

end Sys2Proof.Machine
end

section
/-! The family 10_state, words: the fields of a CSR word as numbers (00_scope R13, 10_state R27..R56). -/

namespace Sys2Proof.Machine

/-! ### Words put together from fields -/

theorem append_toNat {m n : Nat} (x : BitVec m) (y : BitVec n) : (x ++ y).toNat = x.toNat * 2 ^ n + y.toNat := by
  rw [BitVec.toNat_append, ← Nat.shiftLeft_add_eq_or_of_lt y.isLt, Nat.shiftLeft_eq]

/-- A field put above the bits of a word adds its value at its place. -/
theorem or_shiftLeft_toNat {x y : Word} (k : Nat) (hx : x.toNat < 2 ^ k) (hy : y.toNat * 2 ^ k < 2 ^ 32) :
    (x ||| y <<< k).toNat = x.toNat + y.toNat * 2 ^ k := by
  rw [BitVec.toNat_or, BitVec.toNat_shiftLeft, Nat.shiftLeft_eq, Nat.mod_eq_of_lt hy, Nat.or_comm, Nat.mul_comm,
    ← Nat.two_pow_add_eq_or_of_lt hx, Nat.add_comm]

theorem bitWord_toNat (b : Bool) : (bitWord b).toNat = if b then 1 else 0 := by
  cases b <;> rfl

theorem bitWord_lt (b : Bool) : (bitWord b).toNat < 2 := by
  cases b <;> decide

theorem packRgb_toNat (c : RGB) : (packRgb c).toNat = 65536 * c.r.toNat + 256 * c.g.toNat + c.b.toNat := by
  simp only [packRgb, append_toNat, BitVec.toNat_ofNat]
  omega

/-! ### Fields taken from a word -/

theorem extractLsb'_eq_ofNat (v : Word) (k n : Nat) : v.extractLsb' k n = BitVec.ofNat n (v.toNat / 2 ^ k) := by
  rw [← Nat.shiftRight_eq_div_pow]
  rfl

theorem getLsbD_eq_decide (v : Word) (k : Nat) : v.getLsbD k = decide (v.toNat / 2 ^ k % 2 = 1) := by
  rw [← BitVec.testBit_toNat, Nat.testBit_eq_decide_div_mod_eq]

theorem unpackRgb_eq (v : Word) : unpackRgb v =
    { r := BitVec.ofNat 8 (v.toNat / 2 ^ 16), g := BitVec.ofNat 8 (v.toNat / 2 ^ 8), b := BitVec.ofNat 8 (v.toNat / 2 ^ 0) } := by
  simp only [unpackRgb, extractLsb'_eq_ofNat]

/-- A mask of the low n bits is a remainder. -/
theorem and_lowMask_toNat (v : Word) {n : Nat} (hn : n ≤ 32) :
    (v &&& BitVec.ofNat 32 (2 ^ n - 1)).toNat = v.toNat % 2 ^ n := by
  have hpow : 2 ^ n ≤ 2 ^ 32 := Nat.pow_le_pow_right (by decide) hn
  have hpos : 0 < 2 ^ n := Nat.two_pow_pos n
  rw [BitVec.toNat_and, BitVec.toNat_ofNat, Nat.mod_eq_of_lt (by omega), Nat.and_two_pow_sub_one_eq_mod]

/-- A word whose value is the low n bits of another is that word under the mask. -/
theorem eq_and_lowMask {u v : Word} (n : Nat) (hn : n ≤ 32) (h : u.toNat = v.toNat % 2 ^ n) :
    u = v &&& BitVec.ofNat 32 (2 ^ n - 1) := by
  apply BitVec.eq_of_toNat_eq
  rw [and_lowMask_toNat v hn, h]

/-- A bit put back at its own place. -/
theorem bitWord_getLsbD_shiftLeft (v : Word) {k : Nat} : bitWord (v.getLsbD k) <<< k = v &&& BitVec.twoPow 32 k := by
  rw [BitVec.and_twoPow]
  cases v.getLsbD k with
  | false => simp [bitWord]
  | true => simp [bitWord, BitVec.twoPow]

/-- A colour register keeps bits [23:0] (00_scope R13). -/
theorem packRgb_unpackRgb (v : Word) : packRgb (unpackRgb v) = v &&& 0x00FFFFFF := by
  refine eq_and_lowMask 24 (by decide) ?_
  rw [packRgb_toNat, unpackRgb_eq]
  simp only [BitVec.toNat_ofNat]
  omega

/-! ### STATUS -/

theorem errCodeField_lt (e : Option ErrCode) : (errCodeField e).toNat < 16 := (errCodeField e).isLt

/-- The STATUS word by its fields (10_state R27). -/
theorem statusWord_toNat (s : State) : (statusWord s).toNat =
    (if s.busy then 1 else 0) + (if s.csr.status.done then 2 else 0) + (if s.csr.status.err then 4 else 0)
      + (if s.csr.status.wign then 8 else 0) + 256 * (errCodeField s.csr.status.errCode).toNat := by
  have hbusy := bitWord_lt s.busy
  have hdone := bitWord_lt s.csr.status.done
  have herr := bitWord_lt s.csr.status.err
  have hwign := bitWord_lt s.csr.status.wign
  have hcode := errCodeField_lt s.csr.status.errCode
  have hwide : ((errCodeField s.csr.status.errCode).setWidth 32).toNat = (errCodeField s.csr.status.errCode).toNat := by
    rw [BitVec.toNat_setWidth]
    omega
  have e1 := or_shiftLeft_toNat 1 (x := bitWord s.busy) (y := bitWord s.csr.status.done) (by omega) (by omega)
  have e2 := or_shiftLeft_toNat 2 (y := bitWord s.csr.status.err) (e1.trans_lt (by omega)) (by omega)
  have e3 := or_shiftLeft_toNat 3 (y := bitWord s.csr.status.wign) (e2.trans_lt (by omega)) (by omega)
  have e4 := or_shiftLeft_toNat 8 (y := (errCodeField s.csr.status.errCode).setWidth 32) (e3.trans_lt (by omega)) (by omega)
  have two (b : Bool) (n : Nat) : (if b then n else 0) = (bitWord b).toNat * n := by cases b <;> simp [bitWord]
  rw [statusWord, e4, hwide, e3, e2, e1, two _ 1, two _ 2, two _ 4, two _ 8]
  omega

/-- Settles O40: the word by its fields, and the write by the fields it clears. -/
theorem statusReadsAndClears : Obligations.StatusReadsAndClears := by
  intro s v
  refine ⟨?read, ?write⟩
  case read =>
    have hbusy : (if s.busy then 1 else 0) = if s.phase = .run then 1 else 0 := by
      cases hphase : s.phase <;> simp [State.busy, hphase]
    refine (statusWord_toNat s).trans ?_
    rw [hbusy]
    congr 2
    cases s.csr.status.errCode with
    | none => rfl
    | some e => cases e <;> rfl
  case write =>
    rw [hostAct_writeCsr (by decide)]
    show { s with csr := writeStatus s.csr v } = _
    rw [writeStatus_frame, writeStatus_status]

/-! ### FONT_STATE and the interrupt line -/

/-- Settles O41: each write of the IDLE host keeps FONT_STATE, but for the clear of R47. -/
theorem bakeInputWritesInvalidateFont : Obligations.BakeInputWritesInvalidateFont := by
  intro s r k v hidle
  refine ⟨?_, ?_⟩
  · have hkeep : (writeConfig s.csr v r).font = s.csr.font := by cases r <;> rfl
    rw [hostAct_writeConfig, whenIdle_of_idle hidle, acceptConfig]
    simp only [← ConfigReg.clearsFont_iff]
    split
    · rw [clearFontValid_csr, hkeep]
    · exact hkeep
  · rw [hostAct_writeCreg, whenIdle_of_idle hidle]
    rfl

theorem irqLine_iff (s : State) : irqLine s = true ↔ (s.csr.status.done = true ∧ s.csr.irqEn.doneIe = true)
    ∨ (s.csr.status.err = true ∧ s.csr.irqEn.errIe = true) := by
  simp only [irqLine, Bool.or_eq_true, Bool.and_eq_true]

/-- Settles O42: an accepted command has no end recorded that the line could report. -/
theorem interruptLineFollowsStatus : Obligations.InterruptLineFollowsStatus := by
  intro s v
  refine ⟨irqLine_iff s, ?_, fun hidle => ?_⟩
  · rw [hostAct_writeCsr (by decide)]
    rfl
  · rw [hostAct_writeCsr (by decide)]
    show irqLine (whenIdle (accept v) s) = false
    rw [whenIdle_of_idle hidle]
    rfl

/-! ### CREG -/

/-- Settles O36. -/
theorem cregWindowReadsBack : Obligations.CregWindowReadsBack := by
  intro s k v hidle off t byte
  have hk := k.isLt
  have hoff : off.toNat = 0x400 + 4 * k.toNat := by
    simp only [off, BitVec.toNat_ofNat]
    omega
  have ht : t = clearFontValid { s with creg := Table.put s.creg k (unpackRgb v) } := by
    simp only [t, off]
    rw [hostAct_writeCreg, whenIdle_of_idle hidle]
    rfl
  have hsame : Table.get t.creg k = unpackRgb v := by rw [ht]; exact Table.get_put_same _ _ _
  refine ⟨hsame.trans (unpackRgb_eq v), ?_, fun j hj => ?_, by rw [ht]; rfl, by rw [ht]; rfl⟩
  · rw [hostAct_readCsr (by omega), hoff, csrAt_creg]
    show packRgb (Table.get t.creg k) = _
    rw [hsame, packRgb_unpackRgb]
  · rw [ht]
    exact Table.get_put_other _ _ _ _ hj

/-! ### Writes while BUSY -/

/-- Settles O37: each of these offsets takes a write in IDLE only. -/
theorem busyWritesOnlySetWign : Obligations.BusyWritesOnlySetWign := by
  intro s off v hrun halign hoff
  rw [hostAct_writeCsr halign]
  rcases hoff with hcmd | hconfig | hcreg
  · rw [hcmd]
    exact whenIdle_of_run hrun _
  · obtain ⟨r, hr⟩ := csrAt_configWindow hconfig halign
    rw [hr]
    exact whenIdle_of_run hrun _
  · obtain ⟨k, hk⟩ := csrAt_cregWindow (off := off.toNat) (by omega)
    rw [hk]
    exact whenIdle_of_run hrun _

/-! ### Read-only, write-only and reserved offsets -/

theorem csrAt_high {off : Nat} (h : 0x800 ≤ off) : csrAt off = .reserved ∨ ∃ c k, csrAt off = .ps c k := by
  by_cases htop : 0x1C00 ≤ off
  · exact .inl (csrAt_reserved (.inr htop))
  · exact .inr (csrAt_psWindow (by omega))

theorem readData_readCsr {off : BitVec 13} (h : off.toNat % 4 = 0) (s : State) :
    (hostAct (.readCsr off .word) s).readData = readCsr (csrAt off.toNat) s := by
  rw [hostAct_readCsr h]

theorem irqEnWord_toNat (c : Csrs) :
    (irqEnWord c).toNat = (if c.irqEn.doneIe then 1 else 0) + 2 * (if c.irqEn.errIe then 1 else 0) := by
  have hdone := bitWord_lt c.irqEn.doneIe
  have herr := bitWord_lt c.irqEn.errIe
  rw [irqEnWord, or_shiftLeft_toNat 1 (by omega) (by omega), bitWord_toNat, bitWord_toNat]
  omega

theorem fontStateWord_toNat (c : Csrs) : (fontStateWord c).toNat =
    (if c.font.valid then 1 else 0) + 2 * (if c.font.cw7 then 1 else 0) + 16 * c.font.bmode.toNat := by
  have hvalid := bitWord_lt c.font.valid
  have hcw7 := bitWord_lt c.font.cw7
  have hbmode : c.font.bmode.toNat < 8 := c.font.bmode.isLt
  have hwide : (c.font.bmode.setWidth 32).toNat = c.font.bmode.toNat := by
    rw [BitVec.toNat_setWidth]
    omega
  have e1 := or_shiftLeft_toNat 1 (x := bitWord c.font.valid) (y := bitWord c.font.cw7) (by omega) (by omega)
  have e2 := or_shiftLeft_toNat 4 (y := c.font.bmode.setWidth 32) (e1.trans_lt (by omega)) (by omega)
  rw [fontStateWord, e2, e1, hwide, bitWord_toNat, bitWord_toNat]
  omega

/-- Settles O38. -/
theorem readOnlyAndReservedOffsets : Obligations.ReadOnlyAndReservedOffsets := by
  intro s read bit
  refine ⟨fun off v halign hoff => ?ignored, fun off halign hoff => ?reserved, ?id, ?ctrl, ?cmd, ?irqEn, ?lastCmd, ?errAddr,
    ?fontState, ?jmHits, fun off c k hoff hidle => ?ps⟩
  case ignored =>
    rw [hostAct_writeCsr halign]
    rcases hoff with hlist | hgap | hhigh
    · simp only [List.mem_cons, List.not_mem_nil, or_false] at hlist
      rcases hlist with h | h | h | h | h <;> rw [h] <;> rfl
    · rw [csrAt_reserved (.inl hgap)]
      rfl
    · rcases csrAt_high hhigh with h | ⟨c, k, h⟩ <;> rw [h] <;> rfl
  case reserved =>
    simp only [read, readData_readCsr halign]
    rw [csrAt_reserved hoff]
    rfl
  case id | ctrl | cmd | lastCmd | errAddr =>
    exact readData_readCsr (by decide) s
  case irqEn => exact (congrArg _ (readData_readCsr (by decide) s)).trans (irqEnWord_toNat s.csr)
  case fontState => exact (congrArg _ (readData_readCsr (by decide) s)).trans (fontStateWord_toNat s.csr)
  case jmHits =>
    refine (congrArg _ (readData_readCsr (by decide) s)).trans ?_
    show (s.csr.jmHits.setWidth 32).toNat = _
    have hlt : s.csr.jmHits.toNat < 2 ^ 16 := s.csr.jmHits.isLt
    rw [BitVec.toNat_setWidth]
    omega
  case ps =>
    simp only [read, readData_readCsr (off := off) (by omega)]
    rw [hoff, csrAt_ps]
    simp only [readCsr, readPs, hidle]
    exact packRgb_toNat _

end Sys2Proof.Machine
end

section
/-! The family 10_state, the configuration registers: a write sets the fields of one register, and a read returns them
(10_state R32..R52, R56). -/

namespace Sys2Proof.Machine

/-! ### What the register just written reads -/

/-- The two fields of a register that holds two half words. -/
theorem halves_eq_and_mask (v : Word) : (v.extractLsb' 16 16 ++ v.extractLsb' 0 16 : Word) = v &&& 0xFFFFFFFF := by
  refine eq_and_lowMask 32 (by decide) ?_
  simp only [append_toNat, extractLsb'_eq_ofNat, BitVec.toNat_ofNat]
  omega

/-- The four fields of a register that holds four bytes. -/
theorem bytes_eq_and_mask (v : Word) :
    (v.extractLsb' 24 8 ++ v.extractLsb' 16 8 ++ v.extractLsb' 8 8 ++ v.extractLsb' 0 8 : Word) = v &&& 0xFFFFFFFF := by
  refine eq_and_lowMask 32 (by decide) ?_
  simp only [append_toNat, extractLsb'_eq_ofNat, BitVec.toNat_ofNat]
  omega

/-- The low n bits, widened again. -/
theorem setWidth_extractLsb'_eq_and_mask (v : Word) {n : Nat} (hn : n ≤ 32) :
    (v.extractLsb' 0 n).setWidth 32 = v &&& BitVec.ofNat 32 (2 ^ n - 1) := by
  have hpow : 2 ^ n ≤ 2 ^ 32 := Nat.pow_le_pow_right (by decide) hn
  have hlt := Nat.mod_lt v.toNat (Nat.two_pow_pos n)
  refine eq_and_lowMask n hn ?_
  rw [BitVec.toNat_setWidth, extractLsb'_eq_ofNat, BitVec.toNat_ofNat, Nat.pow_zero, Nat.div_one,
    Nat.mod_eq_of_lt (by omega)]

theorem bitWord_getLsbD_zero (v : Word) : bitWord (v.getLsbD 0) = v &&& BitVec.twoPow 32 0 := by
  rw [← bitWord_getLsbD_shiftLeft, BitVec.shiftLeft_zero]

theorem nregIllegal_eq_false_iff (v : Word) : nregIllegal v = false ↔ 1 ≤ v.toNat % 512 ∧ v.toNat % 512 ≤ 256 := by
  simp only [nregIllegal, Bool.or_eq_false_iff, decide_eq_false_iff_not]
  omega

/-- The rule of R39 by the value of the field. -/
theorem nregWrite_eq (old : BitVec 9) (v : Word) : nregWrite old v =
    if 1 ≤ v.toNat % 512 ∧ v.toNat % 512 ≤ 256 then BitVec.ofNat 9 (v.toNat % 512) else old := by
  have hfield : v.extractLsb' 0 9 = BitVec.ofNat 9 (v.toNat % 512) := by
    rw [extractLsb'_eq_ofNat]
    apply BitVec.eq_of_toNat_eq
    simp only [BitVec.toNat_ofNat]
    omega
  have hnat : (v.extractLsb' 0 9).toNat = v.toNat % 512 := by
    rw [hfield, BitVec.toNat_ofNat]
    omega
  simp only [nregWrite, hnat]
  rw [hfield]

theorem readConfig_palCtrl (c : Csrs) :
    readConfig c .palCtrl = (if c.cstd = .pal then 0x00010000 else 0) ||| c.nreg.setWidth 32 := by
  cases h : c.cstd <;> simp [readConfig, h]

theorem cstdWord_eq (v : Word) :
    (if (if v.getLsbD 16 then ColourStandard.pal else .ntsc) = .pal then 0x00010000 else 0 : Word) = v &&& 0x00010000 := by
  have h := BitVec.and_twoPow v 16
  change v &&& 0x00010000 = _ at h
  rw [h]
  cases v.getLsbD 16 <;> rfl

/-- A PAL_CTRL read, by whether the NREG field was legal. -/
theorem readConfig_writeConfig_palCtrl (c : Csrs) (v : Word) : readConfig (writeConfig c v .palCtrl) .palCtrl =
    if nregIllegal v = true then (v &&& 0x00010000) ||| c.nreg.setWidth 32 else v &&& 0x000101FF := by
  have hread : readConfig (writeConfig c v .palCtrl) .palCtrl = (v &&& 0x00010000) ||| (nregWrite c.nreg v).setWidth 32 :=
    (readConfig_palCtrl _).trans (congrArg (· ||| _) (cstdWord_eq v))
  rw [hread]
  split
  case isTrue h =>
    have hbad : ¬ (1 ≤ v.toNat % 512 ∧ v.toNat % 512 ≤ 256) := by rw [← nregIllegal_eq_false_iff, h]; decide
    rw [nregWrite_eq, if_neg hbad]
  case isFalse h =>
    have hgood := (nregIllegal_eq_false_iff v).1 (Bool.eq_false_iff.2 h)
    have hfield : (nregWrite c.nreg v).setWidth 32 = v &&& 0x000001FF := by
      refine eq_and_lowMask 9 (by decide) ?_
      rw [nregWrite_eq, if_pos hgood, BitVec.toNat_setWidth, BitVec.toNat_ofNat]
      omega
    rw [hfield, ← BitVec.and_or_distrib_left]
    rfl

/-- A register reads back the bits it stores (00_scope R13). -/
theorem readConfig_writeConfig_same {r : ConfigReg} (h : r ≠ .palCtrl) (c : Csrs) (v : Word) :
    readConfig (writeConfig c v r) r = v &&& r.mask := by
  cases r with
  | palCtrl => exact absurd rfl h
  | dataBase | styleBase | dataLen | count | outBase | fontBase | fontLen | bakeBase | srcBase | jmList =>
    exact (BitVec.and_allOnes (x := v)).symm
  | geom | srcDim => exact halves_eq_and_mask v
  | scale =>
    refine eq_and_lowMask 24 (by decide) ?_
    simp only [readConfig, writeConfig, append_toNat, extractLsb'_eq_ofNat, BitVec.toNat_ofNat]
    omega
  | highlightBg | matchBg | commentBg | background | dataBg | emptyBg => exact packRgb_unpackRgb v
  | anticPm | anticPf =>
    refine Eq.trans ?_ (bytes_eq_and_mask v)
    simp [readConfig, writeConfig]
  | anticBk =>
    refine Eq.trans ?_ (setWidth_extractLsb'_eq_and_mask v (n := 8) (by decide))
    simp [readConfig, writeConfig]
  | fontCtrl =>
    simp only [readConfig, writeConfig, bitWord_getLsbD_shiftLeft, bitWord_getLsbD_zero, ← BitVec.and_or_distrib_left]
    rfl
  | fontSel =>
    simp only [readConfig, writeConfig, bitWord_getLsbD_shiftLeft, bitWord_getLsbD_zero, ← BitVec.and_or_distrib_left]
    rfl
  | jmOffs =>
    refine eq_and_lowMask 16 (by decide) ?_
    simp only [readConfig, writeConfig, BitVec.toNat_setWidth, append_toNat, extractLsb'_eq_ofNat, BitVec.toNat_ofNat]
    omega
  | jmCount => exact setWidth_extractLsb'_eq_and_mask v (n := 16) (by decide)

/-! ### What the other registers read -/

theorem readConfig_with_font (q : ConfigReg) (c : Csrs) (f : FontState) :
    readConfig { c with font := f } q = readConfig c q := by cases q <;> rfl

/-- No two registers share a field: the three of the ANTIC table hold different entries of it. -/
theorem readConfig_writeConfig_other {q r : ConfigReg} (h : q ≠ r) (c : Csrs) (v : Word) :
    readConfig (writeConfig c v r) q = readConfig c q := by
  cases r with
  | anticPm | anticPf | anticBk =>
    cases q with
    | anticPm | anticPf | anticBk => simp [readConfig, writeConfig] at h ⊢
    | _ => rfl
  | _ => cases q <;> first | exact absurd rfl h | rfl

/-! ### The write -/

/-- A configuration write in IDLE sets the register's fields; FONT_STATE apart, which R47 may clear. -/
theorem hostAct_writeConfig_of_idle {s : State} (h : s.phase = .idle) (r : ConfigReg) (v : Word) :
    ∃ f : FontState, hostAct (.writeCsr (BitVec.ofNat 13 r.offset) .word v) s =
      { s with csr := { writeConfig s.csr v r with font := f } } := by
  rw [hostAct_writeConfig, whenIdle_of_idle h, acceptConfig]
  cases r.clearsFont
  · exact ⟨(writeConfig s.csr v r).font, rfl⟩
  · exact ⟨{ (writeConfig s.csr v r).font with valid := false }, rfl⟩

theorem writeConfig_status (c : Csrs) (v : Word) (r : ConfigReg) : (writeConfig c v r).status = c.status := by
  cases r <;> rfl

/-- The ANTIC table after an ANTIC_PM write, by its entries. -/
theorem antic_set_pm (t : Vector Byte 9) (x y z w : Byte) :
    (((t.set 0 x).set 1 y).set 2 z).set 3 w = #v[x, y, z, w, t[4], t[5], t[6], t[7], t[8]] := by
  refine Vector.ext fun k hk => ?_
  interval_cases k <;> simp

/-- The ANTIC table after an ANTIC_PF write. -/
theorem antic_set_pf (t : Vector Byte 9) (x y z w : Byte) :
    (((t.set 4 x).set 5 y).set 6 z).set 7 w = #v[t[0], t[1], t[2], t[3], x, y, z, w, t[8]] := by
  refine Vector.ext fun k hk => ?_
  interval_cases k <;> simp

/-- The ANTIC table after an ANTIC_BK write. -/
theorem antic_set_bk (t : Vector Byte 9) (x : Byte) :
    t.set 8 x = #v[t[0], t[1], t[2], t[3], t[4], t[5], t[6], t[7], x] := by
  refine Vector.ext fun k hk => ?_
  interval_cases k <;> simp

/-- Settles O35. -/
theorem configReadsBackWhatWasWritten : Obligations.ConfigReadsBackWhatWasWritten := by
  intro s r v hidle off t byte half bit colour c n a
  have hoff : off = BitVec.ofNat 13 r.offset := by cases r <;> rfl
  obtain ⟨f, ht⟩ := hostAct_writeConfig_of_idle hidle r v
  rw [← hoff] at ht
  change t = _ at ht
  have hcsr : t.csr = { writeConfig s.csr v r with font := f } := by rw [ht]
  have hc : c = { s.csr with font := f } := by
    show ({ s.csr with font := t.csr.font } : Csrs) = _
    rw [hcsr]
  refine ⟨?fields, ?same, fun q hq => ?other, by rw [ht], by rw [ht], by rw [ht], by rw [ht]; exact hidle, ?status⟩
  case fields =>
    rw [hcsr, hc]
    cases r with
    | dataBase | styleBase | dataLen | count | outBase | fontBase | fontLen | bakeBase | srcBase | jmList => rfl
    | highlightBg | matchBg | commentBg | background | dataBg | emptyBg =>
      simp only [writeConfig, unpackRgb_eq, colour, byte]
    | geom | srcDim | jmCount => simp only [writeConfig, extractLsb'_eq_ofNat, half]
    | scale | jmOffs => simp only [writeConfig, extractLsb'_eq_ofNat, byte]
    | palCtrl => simp only [writeConfig, nregWrite_eq, getLsbD_eq_decide, n, bit]
    | fontCtrl | fontSel => simp only [writeConfig, getLsbD_eq_decide, bit]
    | anticPm => simp only [writeConfig, antic_set_pm, extractLsb'_eq_ofNat, byte, a]; rfl
    | anticPf => simp only [writeConfig, antic_set_pf, extractLsb'_eq_ofNat, byte, a]; rfl
    | anticBk => simp only [writeConfig, antic_set_bk, extractLsb'_eq_ofNat, byte, a]; rfl
  case same =>
    rw [readData_readCsr (by rw [hoff, r.offset_toNat]; cases r <;> rfl), hoff, r.offset_toNat, csrAt_config]
    show readConfig t.csr r = _
    rw [hcsr, readConfig_with_font]
    by_cases hr : r = .palCtrl
    · rw [hr, readConfig_writeConfig_palCtrl]
      simp [ConfigReg.mask]
    · rw [readConfig_writeConfig_same hr, if_neg (fun h => hr h.1)]
  case other => rw [hcsr, readConfig_with_font, readConfig_writeConfig_other hq]
  case status =>
    rw [hcsr]
    exact writeConfig_status _ _ _

end Sys2Proof.Machine
end

section
/-! The host's memory accesses (20_memory R79, R85, R89) and the soft reset (70_reset R233..R235). -/

namespace Sys2Proof.Machine

/-! ### The write region at the command's end -/

theorem Work.Fits.has {w : Work} {r : Region} (h : w.Fits r) {a : Nat} (ha : w.out.has a = true) : r.has a = true := by
  rw [Region.has_iff] at ha
  by_contra hr
  have := h.sub a (Bool.eq_false_iff.2 hr)
  omega

/-- Inside its write region a command leaves the byte that was pending (70_reset R235). -/
theorem exec_mem_inside {i : Instr} {s t : State} (h : exec i s = .next t) (he : (planOf i s).error = none) {a : Nat}
    (ha : (planOf i s).work.out.has a = true) :
    t.mem.read a = (planOf i s).work.pendingByte s (a - (planOf i s).work.out.base) := by
  rw [Region.has_iff] at ha
  rcases exec_mem h with ⟨⟨e, hfail⟩, _⟩ | ⟨_, hmem⟩
  · cases he.symm.trans hfail
  · conv_lhs => rw [hmem, show a = (planOf i s).work.out.base + (a - (planOf i s).work.out.base) by omega]
    exact Memory.read_fill_inside _ _ _ _ _ (by omega)

/-! ### Host reads and writes of memory -/

theorem readData_readMem (a : Word) (s : State) :
    (hostAct (.readMem a) s).readData = (hostReadByte s a.toNat).setWidth 32 := rfl

theorem hostReadByte_of_aperture {s : State} {a : Nat} (h : s.inAperture a = true) : hostReadByte s a = 0 := by
  simp [hostReadByte, h]

theorem hostReadByte_of_idle {s : State} (hidle : s.phase = .idle) {a : Nat} (h : s.inAperture a = false) :
    hostReadByte s a = s.mem.read a := by
  simp [hostReadByte, h, hidle]

theorem hostWriteByte_of_aperture {s : State} {a : Nat} (h : s.inAperture a = true) (v : Byte) :
    hostWriteByte s a v = s := by
  simp [hostWriteByte, h]

theorem hostWriteByte_of_idle {s : State} (hidle : s.phase = .idle) {a : Nat} (h : s.inAperture a = false) (v : Byte) :
    hostWriteByte s a v = { s with mem := s.mem.write a v } := by
  simp [hostWriteByte, h, hidle]

/-- Settles O43: memory is canonical, so the byte written is the byte read. -/
theorem hostMemoryReadsBack : Obligations.HostMemoryReadsBack := by
  intro s a v hinv hidle t
  split
  case isTrue haperture =>
    refine ⟨hostWriteByte_of_aperture haperture v, ?_⟩
    rw [readData_readMem, hostReadByte_of_aperture haperture]
    rfl
  case isFalse haperture =>
    have hoff := Bool.eq_false_iff.2 haperture
    have ht : t = { s with mem := s.mem.write a.toNat v } := hostWriteByte_of_idle hidle hoff v
    refine ⟨?_, fun b hb => ?_, by rw [ht]⟩
    · have hread : hostReadByte t a.toNat = v := by
        rw [ht]
        exact (hostReadByte_of_idle (s := { s with mem := s.mem.write a.toNat v }) hidle hoff).trans
          (Memory.read_write_same _ _ _ hinv.memory.1)
      rw [readData_readMem, hread]
    · rw [ht]
      exact Memory.read_write_other _ _ _ _ hb

/-- A read during a command returns the byte as it stands, or, in the write region, as the command leaves it
(20_memory R89). -/
theorem hostReadByte_running {s t : State} {i : Instr} (hrun : s.phase = .run) (hdecode : decode s.csr.lastCmd = .ok i)
    (hexec : exec i s = .next t) {a : Nat} (h : s.inAperture a = false) :
    hostReadByte s a = s.mem.read a ∨ ((writeRegion s.csr i).has a = true ∧ hostReadByte s a = t.mem.read a) := by
  simp only [hostReadByte, h, hrun, runningWork_eq hdecode]
  by_cases he : (planOf i s).error = none
  · by_cases hnew : ((planOf i s).work.out.has a && !Config.keepsOld s.draws a) = true
    · have hout := (Bool.and_eq_true_iff.1 hnew).1
      exact .inr ⟨(planOf_fits i s he).has hout, by simp [he, hnew, exec_mem_inside hexec he hout]⟩
    · exact .inl (by simp [he, hnew])
  · exact .inl (by simp [he])

/-- Settles O44. -/
theorem inFlightReadIsOldOrFinal : Obligations.InFlightReadIsOldOrFinal := by
  intro s t i a hrun hdecode hexec haperture r
  rcases hostReadByte_running hrun hdecode hexec haperture with hold | ⟨hin, hfinal⟩
  · have hr : r = (s.mem.read a.toNat).setWidth 32 := congrArg (BitVec.setWidth 32) hold
    exact ⟨.inl hr, fun _ => hr⟩
  · exact ⟨.inr (congrArg (BitVec.setWidth 32) hfinal), fun hout => absurd (hin.symm.trans hout) (by decide)⟩

/-! ### Aborting the running command -/

theorem abortWork_mem (w : Work) (s : State) : (abortWork w s).mem = s.mem.fill w.out.base w.out.len fun k =>
    if Config.keepsOld s.draws (w.out.base + k) then s.mem.read (w.out.base + k) else w.pendingByte s k := by
  unfold abortWork
  split <;> rfl

theorem abortWork_creg {w : Work} {s : State} (h : w.writesCsrs s = false) : (abortWork w s).creg = s.creg := by
  simp [abortWork, h]

/-- Only a command whose checks have passed leaves work to abort (60_exceptions R215). -/
theorem abortCommand_cases (s : State) : abortCommand s = s ∨ ∃ i, s.phase = .run ∧ decode s.csr.lastCmd = .ok i
    ∧ (planOf i s).error = none ∧ abortCommand s = abortWork (planOf i s).work s := by
  unfold abortCommand
  cases hphase : s.phase with
  | idle => exact .inl rfl
  | run =>
    cases hwork : runningWork s with
    | none => exact .inl rfl
    | some w =>
      obtain ⟨i, hdecode, he, rfl⟩ := runningWork_some hwork
      exact .inr ⟨i, rfl, hdecode, he, rfl⟩

/-- An abort leaves each byte as it stood or as the command would have left it (70_reset R235). -/
theorem abortCommand_mem {s t : State} {i : Instr} (hdecode : decode s.csr.lastCmd = .ok i) (hexec : exec i s = .next t)
    (a : Nat) : (abortCommand s).mem.read a = s.mem.read a ∨ (abortCommand s).mem.read a = t.mem.read a := by
  rcases abortCommand_cases s with hsame | ⟨j, _, hj, he, habort⟩
  · exact .inl (by rw [hsame])
  · cases hdecode.symm.trans hj
    rw [habort, abortWork_mem]
    by_cases hout : (planOf i s).work.out.has a = true
    · rw [exec_mem_inside hexec he hout]
      rw [Region.has_iff] at hout
      obtain ⟨k, rfl⟩ := Nat.exists_eq_add_of_le hout.1
      rw [Memory.read_fill_inside _ _ _ _ _ (by omega), Nat.add_sub_cancel_left]
      split
      · exact .inl rfl
      · exact .inr rfl
    · exact .inl (Memory.read_fill_outside _ _ _ _ _ ((Region.not_has_iff _ _).1 (Bool.eq_false_iff.2 hout)))

/-- An abort keeps CREG, unless the command writes into the aperture (20_memory R75). -/
theorem abortCommand_creg {s : State} (h : ∀ i a, s.phase = .run → decode s.csr.lastCmd = .ok i →
    (writeRegion s.csr i).has a = true → s.inAperture a = false) : (abortCommand s).creg = s.creg := by
  rcases abortCommand_cases s with hsame | ⟨i, hrun, hdecode, he, habort⟩
  · rw [hsame]
  · rw [habort]
    exact abortWork_creg (writesCsrs_off_aperture he fun a ha => h i a hrun hdecode ha)

/-! ### The soft reset -/

theorem hostAct_softReset (s : State) {v : Word} (h : v.getLsbD 0 = true) :
    hostAct (.writeCsr 0x004 .word v) s = softReset s := by
  rw [hostAct_writeCsr (by decide)]
  exact if_pos h

theorem softReset_mem (s : State) : (softReset s).mem = (abortCommand s).mem := rfl

theorem softReset_creg (s : State) : (softReset s).creg = (abortCommand s).creg := rfl

/-- Settles O45: with no work to abort the reset leaves memory alone. -/
theorem softResetRestoresCsrs : Obligations.SoftResetRestoresCsrs := by
  intro s v hv t
  have ht : t = softReset s := hostAct_softReset s hv
  rw [ht]
  refine ⟨rfl, rfl, rfl, fun h => ?creg, fun h => ?mem⟩
  case creg =>
    rw [softReset_creg]
    exact abortCommand_creg h
  case mem =>
    rw [softReset_mem]
    rcases abortCommand_cases s with hsame | ⟨i, hrun, hdecode, _, _⟩
    · rw [hsame]
    · rcases h with hidle | ⟨e, herror⟩
      · cases hrun.symm.trans hidle
      · cases hdecode.symm.trans herror

/-- Settles O46. -/
theorem softResetStopsCommandAnywhere : Obligations.SoftResetStopsCommandAnywhere := by
  intro s t i v hrun hv hdecode hexec haperture r
  have hr : r = softReset s := hostAct_softReset s hv
  rw [hr]
  refine ⟨rfl, rfl, rfl, abortCommand_creg fun j a _ hj ha => ?_, fun a => abortCommand_mem hdecode hexec a⟩
  cases hdecode.symm.trans hj
  exact haperture a ha

end Sys2Proof.Machine
end

section
/-! Two runs of one command whose plans are the same (20_memory R76). -/

namespace Sys2Proof.Machine

/-! ### Plans that are the same end the same way -/

theorem SamePlan.failing {p q : Plan} (h : SamePlan p q) {s t : State} (hp : t.platform = s.platform) :
    p.work.failing t = q.work.failing s := by
  have hbus (d : Dir) : t.busError d = s.busError d := funext fun a => State.busError_congr hp d a
  simp only [Work.failing, h.reads, h.writes, hbus]

theorem SamePlan.writesCsrs {p q : Plan} (h : SamePlan p q) {s t : State} (hp : t.platform = s.platform) :
    p.work.writesCsrs t = q.work.writesCsrs s := by
  have haperture : t.inAperture = s.inAperture := funext fun a => State.inAperture_congr hp a
  have hbus : t.busError .write = s.busError .write := funext fun a => State.busError_congr hp .write a
  simp only [Work.writesCsrs, h.writes, haperture, hbus]

theorem complete_of_failing_nil {w : Work} {s : State} (h : w.failing s = []) :
    w.complete s = endSuccess (publish w.ps w.font w.hits (w.store s false)) := by
  simp [Work.complete, h]

/-- Two successes with one plan leave the same CSRs, where their writes leave the same. -/
theorem SamePlan.complete_csr {p q : Plan} (h : SamePlan p q) {s t : State} (hp : p.work.failing t = [])
    (hq : q.work.failing s = []) (hstore : (p.work.store t false).csr = (q.work.store s false).csr) :
    (p.work.complete t).csr = (q.work.complete s).csr := by
  rw [complete_of_failing_nil hp, complete_of_failing_nil hq]
  simp only [endSuccess_csr, publish_csr, h.font, h.hits, hstore]

theorem SamePlan.complete_ps {p q : Plan} (h : SamePlan p q) {s t : State} (hp : p.work.failing t = [])
    (hq : q.work.failing s = []) (hstore : (p.work.store t false).ps = (q.work.store s false).ps) :
    (p.work.complete t).ps = (q.work.complete s).ps := by
  rw [complete_of_failing_nil hp, complete_of_failing_nil hq]
  simp only [endSuccess_ps, publish_ps, h.ps, hstore]

theorem SamePlan.complete_creg {p q : Plan} {s t : State} (hp : p.work.failing t = [])
    (hq : q.work.failing s = []) (hstore : (p.work.store t false).creg = (q.work.store s false).creg) :
    (p.work.complete t).creg = (q.work.complete s).creg := by
  rw [complete_of_failing_nil hp, complete_of_failing_nil hq]
  simp only [endSuccess_creg, publish_creg, hstore]

/-- Off the aperture the byte that a command leaves is its own or UNSPECIFIED (70_reset R240, 20_memory R86). -/
theorem pendingByte_eq {w : Work} {s : State} {k : Nat} (ha : s.inAperture (w.out.base + k) = false) :
    w.pendingByte s k = if w.unspecified s (!(w.failing s).isEmpty) (w.out.base + k)
      then Config.freeByte s.draws (w.out.base + k) else w.byteAt k := by
  simp [Work.pendingByte, Work.finalByte, ha]

/-- Off the aperture a byte of the write region is the same in states that differ in memory alone. -/
theorem SamePlan.pendingByte {p q : Plan} (h : SamePlan p q) {s : State} {m : Memory} {k : Nat}
    (hk : k < q.work.out.len) (ha : s.inAperture (q.work.out.base + k) = false) :
    p.work.pendingByte { s with mem := m } k = q.work.pendingByte s k := by
  have hfail : p.work.failing { s with mem := m } = q.work.failing s := h.failing rfl
  have ha' : State.inAperture { s with mem := m } (p.work.out.base + k) = false := by rw [h.out]; exact ha
  have hunspec (b : Bool) (a : Nat) : p.work.unspecified { s with mem := m } b a = q.work.unspecified s b a := by
    simp only [Work.unspecified, h.writes]
  rw [pendingByte_eq ha', pendingByte_eq ha, hfail, hunspec, h.out, h.byteAt k hk]

/-! ### The identity case of the scaler -/

theorem planOf_work_of_identity {i : Instr} {s : State} (h : scalerIdentity s.csr i = true) :
    (planOf i s).work = Work.none := by
  cases i with
  | iscale sh sw =>
    simp only [scalerIdentity, Bool.and_eq_true, decide_eq_true_eq] at h
    simp [planOf, planIscale, scalerPlan, h]
  | iwscale sw =>
    simp only [scalerIdentity, Bool.and_eq_true, decide_eq_true_eq] at h
    simp [planOf, planIwscale, scalerPlan, h]
  | _ => cases h

/-- There the output is the source (40_utilities R117). -/
theorem writeRegion_mem_readRegions_of_identity {c : Csrs} {i : Instr} (h : scalerIdentity c i = true) :
    writeRegion c i ∈ readRegions c i := by
  cases i with
  | iscale sh sw =>
    simp only [scalerIdentity, Bool.and_eq_true, decide_eq_true_eq] at h
    simp [writeRegion, readRegions, scalerOut, outRegion, sourceRegion, h]
  | iwscale sw =>
    simp only [scalerIdentity, Bool.and_eq_true, decide_eq_true_eq] at h
    simp [writeRegion, readRegions, scalerOut, outRegion, sourceRegion, h]
  | _ => cases h

/-! ### What a success depends on -/

/-- A command that ends with DONE passed its checks, and no access of it failed. -/
theorem exec_of_done {i : Instr} {s t : State} (h : exec i s = .next t) (hdone : t.csr.status.done = true) :
    (planOf i s).error = none ∧ (planOf i s).work.failing s = []
      ∧ t = (planOf i s).work.complete (acceptanceEffect i s) := by
  rcases exec_cases i s with ⟨e, _, hend⟩ | ⟨he, hend⟩
  · cases h.symm.trans hend
    cases hdone
  · cases h.symm.trans hend
    refine ⟨he, ?_, rfl⟩
    rcases complete_end (planOf i s).work (acceptanceEffect i s) with ⟨hfail, _⟩ | ⟨_, hnot, _⟩
    · rwa [failing_acceptanceEffect] at hfail
    · cases hdone.symm.trans hnot

theorem acceptanceEffect_with_mem (i : Instr) (s : State) (m : Memory) :
    acceptanceEffect i { s with mem := m } = { acceptanceEffect i s with mem := m } := by cases i <;> rfl

/-- The byte that a command leaves in its write region depends on its read regions alone; in the scaler's identity case
the write region is a read region that it leaves alone. -/
theorem exec_mem_same {s t u : State} {i : Instr} {m : Memory}
    (hm : ∀ r ∈ readRegions s.csr i, ∀ a, r.has a = true → m.read a = s.mem.read a)
    (he : (planOf i s).error = none) (ht : exec i s = .next t) (hu : exec i { s with mem := m } = .next u) {a : Nat}
    (ha : (writeRegion s.csr i).has a = true) (haperture : s.inAperture a = false) : u.mem.read a = t.mem.read a := by
  have same := planOf_same i (AgreeOn.of_mem hm)
  have he' := same.error.trans he
  cases hid : scalerIdentity s.csr i with
  | true =>
    have keeps {s t : State} (hid : scalerIdentity s.csr i = true) (h : exec i s = .next t) : t.mem = s.mem := by
      rcases exec_mem h with ⟨_, hmem⟩ | ⟨_, hmem⟩
      · exact hmem
      · rw [hmem, planOf_work_of_identity hid]
        rfl
    rw [keeps hid ht, keeps (s := { s with mem := m }) hid hu]
    exact hm _ (writeRegion_mem_readRegions_of_identity hid) a ha
  | false =>
    have hout : (planOf i s).work.out.has a = true := by rwa [(planOf_hasRegions i s he hid).out]
    have hout' : (planOf i { s with mem := m }).work.out.has a = true := by rwa [same.out]
    rw [exec_mem_inside ht he hout, exec_mem_inside hu he' hout', same.out]
    rw [Region.has_iff] at hout
    exact same.pendingByte (by omega) (by rwa [Nat.add_sub_cancel' hout.1])

/-- Settles O59: the two runs have one plan, the same failing accesses and the same draws. -/
theorem outputDependsOnlyOnReadRegions : Obligations.OutputDependsOnlyOnReadRegions := by
  intro s t u i m hm ht hdone hu
  have same := planOf_same i (AgreeOn.of_mem hm)
  obtain ⟨he, hfail, htend⟩ := exec_of_done ht hdone
  have hq : (planOf i s).work.failing (acceptanceEffect i s) = [] := by rw [failing_acceptanceEffect, hfail]
  have hp : (planOf i { s with mem := m }).work.failing { acceptanceEffect i s with mem := m } = [] :=
    (same.failing rfl).trans hq
  have huend : u = (planOf i { s with mem := m }).work.complete { acceptanceEffect i s with mem := m } := by
    have hexec := exec_of_planOf_none (same.error.trans he)
    rw [acceptanceEffect_with_mem] at hexec
    cases hu.symm.trans hexec
    rfl
  have hcsrs : (planOf i { s with mem := m }).work.writesCsrs { acceptanceEffect i s with mem := m } =
      (planOf i s).work.writesCsrs (acceptanceEffect i s) := same.writesCsrs rfl
  refine ⟨?csr, ?creg, ?ps, fun a ha haperture => exec_mem_same hm he ht hu ha haperture⟩
  case csr =>
    rw [htend, huend]
    exact same.complete_csr hp hq (by simp only [Work.store_csr, hcsrs])
  case creg =>
    rw [htend, huend]
    exact SamePlan.complete_creg hp hq (by simp only [Work.store_creg, hcsrs])
  case ps =>
    rw [htend, huend]
    exact same.complete_ps hp hq (by simp only [Work.store_ps, hcsrs])

end Sys2Proof.Machine
end

section
/-! The family 70_reset_and_hazards, the host's writes during a command (20_memory R86, 70_reset R239, R240). -/

namespace Sys2Proof.Machine

/-! ### The byte a command leaves after the host has written -/

/-- A byte of the write region off the aperture at a command's end. -/
theorem exec_byte {i : Instr} {t u : State} (hexec : exec i t = .next u) (he : (planOf i t).error = none) {x : Nat}
    (hx : (planOf i t).work.out.has x = true) (haperture : t.inAperture x = false) :
    u.mem.read x = if (planOf i t).work.unspecified t (!((planOf i t).work.failing t).isEmpty) x
      then Config.freeByte t.draws x else (planOf i t).work.byteAt (x - (planOf i t).work.out.base) := by
  have hbase : (planOf i t).work.out.base + (x - (planOf i t).work.out.base) = x :=
    Nat.add_sub_cancel' ((Region.has_iff _ _).1 hx).1
  rw [exec_mem_inside hexec he hx, pendingByte_eq (by rwa [hbase]), hbase]

theorem unspecified_of_outTouched {s : State} {a : Nat} (h : a ∈ s.outTouched) (w : Work) (failed : Bool) :
    w.unspecified s failed a = true := by
  simp [Work.unspecified, h]

theorem unspecified_of_inTouched {w : Work} {s : State} {a : Nat} (hin : s.inTouched ≠ []) (ha : a ∈ w.writes)
    (failed : Bool) : w.unspecified s failed a = true := by
  simp [Work.unspecified, hin, ha]

/-- What it takes for a byte to be specified. -/
theorem unspecified_eq_false_iff {w : Work} {s : State} {failed : Bool} {a : Nat} : w.unspecified s failed a = false ↔
    failed = false ∧ a ∉ s.outTouched ∧ (s.inTouched = [] ∨ a ∉ w.writes) := by
  simp only [Work.unspecified, Bool.or_eq_false_iff, Bool.and_eq_false_iff, Bool.not_eq_false', List.isEmpty_iff,
    List.contains_eq_mem, decide_eq_false_iff_not, and_assoc]

/-- A byte of the output that the host wrote is UNSPECIFIED (70_reset R240). -/
theorem exec_byte_of_outTouched {i : Instr} {t u : State} (hexec : exec i t = .next u) (he : (planOf i t).error = none)
    {x : Nat} (hx : (planOf i t).work.out.has x = true) (haperture : t.inAperture x = false)
    (htouched : x ∈ t.outTouched) : u.mem.read x = Config.freeByte t.draws x := by
  rw [exec_byte hexec he hx haperture, if_pos (unspecified_of_outTouched htouched _ _)]

/-- Where the host wrote an input, every byte that the command writes is UNSPECIFIED (20_memory R86). -/
theorem exec_byte_of_inTouched {i : Instr} {t u : State} (hexec : exec i t = .next u) (he : (planOf i t).error = none)
    {x : Nat} (hx : (planOf i t).work.out.has x = true) (haperture : t.inAperture x = false) (htouched : t.inTouched ≠ [])
    (hwrites : x ∈ (planOf i t).work.writes) : u.mem.read x = Config.freeByte t.draws x := by
  rw [exec_byte hexec he hx haperture, if_pos (unspecified_of_inTouched htouched hwrites _)]

/-- A byte of the output that neither the host nor the platform disturbs is the command's. -/
theorem exec_byte_of_quiet {i : Instr} {t u : State} (hexec : exec i t = .next u) (he : (planOf i t).error = none)
    {x : Nat} (hx : (planOf i t).work.out.has x = true) (haperture : t.inAperture x = false)
    (hfail : (planOf i t).work.failing t = []) (hin : t.inTouched = []) (hout : x ∉ t.outTouched) :
    u.mem.read x = (planOf i t).work.byteAt (x - (planOf i t).work.out.base) := by
  have hspec : (planOf i t).work.unspecified t false x = false := unspecified_eq_false_iff.2 ⟨rfl, hout, .inl hin⟩
  rw [exec_byte hexec he hx haperture, hfail, List.isEmpty_nil, Bool.not_true, hspec, if_neg Bool.false_ne_true]

/-! ### HARVEST after the host has written -/

/-- A plane byte at which HARVEST makes no access keeps its value, where no access fails. -/
theorem harvestByte_of_not_marked {t : State} (hfail : (planHarvest t).work.failing t = []) {x : Nat}
    (hx : t.csr.styleBase.toNat ≤ x) (h : x ∉ markedAddrs t) :
    harvestByte t (x - t.csr.styleBase.toNat) = t.mem.read x := by
  obtain ⟨k, rfl⟩ := Nat.exists_eq_add_of_le hx
  rw [Nat.add_sub_cancel_left]
  refine if_neg fun hany => h ?_
  obtain ⟨n, hn, hoffset⟩ := List.any_eq_true.1 hany
  refine List.mem_map.2 ⟨n, List.mem_filter.2 ⟨hn, ?_⟩, by rw [beq_iff_eq.1 hoffset]⟩
  simp only [Bool.not_eq_true', List.any_eq_false]
  intro b hb hbus
  have hread : b ∈ (planHarvest t).work.reads :=
    List.mem_append_left _ (List.mem_flatMap.2 ⟨n, (List.mem_filter.1 hn).1, hb⟩)
  have hmem : b ∈ (planHarvest t).work.failing t := Work.mem_failing.2 (.inl ⟨hread, hbus⟩)
  rw [hfail] at hmem
  cases hmem

/-- A byte of the style plane at the end of a HARVEST. -/
theorem execHarvest_byte {t u : State} (hexec : exec .harvest t = .next u) (he : (planOf .harvest t).error = none)
    {x : Nat} (hx : (planeRegion t.csr).has x = true) (haperture : t.inAperture x = false) :
    u.mem.read x = if (planHarvest t).work.unspecified t (!((planHarvest t).work.failing t).isEmpty) x
      then Config.freeByte t.draws x else harvestByte t (x - t.csr.styleBase.toNat) :=
  exec_byte hexec he hx haperture

/-- Each plane byte of a HARVEST whose input the host wrote keeps its value or is UNSPECIFIED (log 12). -/
theorem execHarvest_byte_of_inTouched {t u : State} (hexec : exec .harvest t = .next u)
    (he : (planOf .harvest t).error = none) {x : Nat} (hx : (planeRegion t.csr).has x = true)
    (haperture : t.inAperture x = false) (htouched : t.inTouched ≠ []) :
    u.mem.read x = t.mem.read x ∨ u.mem.read x = Config.freeByte t.draws x := by
  rw [execHarvest_byte hexec he hx haperture]
  split
  case isTrue => exact .inr rfl
  case isFalse h =>
    obtain ⟨hfail, _, hwrites⟩ := unspecified_eq_false_iff.1 (Bool.eq_false_iff.2 h)
    have hnil : (planHarvest t).work.failing t = [] := List.isEmpty_iff.1 (by simpa using hfail)
    exact .inl (harvestByte_of_not_marked hnil ((Region.has_iff _ _).1 hx).1 (hwrites.resolve_left htouched))

/-- The records are what the list says, so states that agree on the list have the same. -/
theorem AgreeOn.peanut {s t : State} {rs : List Region} (h : AgreeOn s t rs) (hl : listRegion s.csr ∈ rs) {n : Nat}
    (hn : n < s.csr.jmCount.toNat) : peanut t n = peanut s n := by
  have hread : ∀ b ∈ peanutAddrs s.csr n, ∀ occ, t.engineRead occ b = s.engineRead occ b :=
    fun b hb occ => h.engineRead hl (mem_peanutAddrs hn hb) occ
  simp only [peanutAddrs, List.mem_cons, List.not_mem_nil, or_false, forall_eq_or_imp, forall_eq] at hread
  simp only [Sys2Proof.Machine.peanut, h.csr, hread]

theorem AgreeOn.hitRecords {s t : State} {rs : List Region} (h : AgreeOn s t rs) (hl : listRegion s.csr ∈ rs) :
    hitRecords t = hitRecords s := by
  simp only [Sys2Proof.Machine.hitRecords, h.csr]
  exact List.filter_congr fun n hn => by rw [h.peanut hl (List.mem_range.1 hn)]

theorem AgreeOn.markedAddrs {s t : State} {rs : List Region} (h : AgreeOn s t rs) (hl : listRegion s.csr ∈ rs) :
    markedAddrs t = markedAddrs s := by
  simp only [Sys2Proof.Machine.markedAddrs, markingRecords, h.hitRecords hl, h.csr, h.busError]
  refine List.map_congr_left fun n hn => ?_
  rw [h.peanut hl (List.mem_range.1 (List.mem_filter.1 (List.mem_filter.1 hn).1).1)]

/-- HARVEST's marking accesses are the bytes its rule marks, where nothing disturbs the list (46_jumpman R205). -/
theorem mem_markedAddrs_iff {s : State} (hl : s.readable (listRegion s.csr)) (hh : s.hostKeptOff) (x : Nat) :
    x ∈ markedAddrs s ↔ s.marksAt x := by
  refine ⟨fun h => ?_, mem_markedAddrs_of_marksAt⟩
  obtain ⟨n, hn, rfl⟩ := List.mem_map.1 h
  have hhit := (List.mem_filter.1 hn).1
  rw [hitRecords_quiet hl hh.1] at hhit
  obtain ⟨hrange, hmarks⟩ := List.mem_filter.1 hhit
  have hlt := List.mem_range.1 hrange
  exact ⟨hl, hh, n, hlt, hmarks, by rw [peanutOffset_quiet hl hh.1 hlt]⟩

/-- HARVEST's accesses succeed where the platform leaves its regions alone. -/
theorem planHarvest_failing {t : State} (hplane : t.readable (planeRegion t.csr)) (hwrite : t.writable (planeRegion t.csr))
    (hlist : t.readable (listRegion t.csr)) : (planHarvest t).work.failing t = [] := by
  refine Work.failing_eq_nil (fun b hb => ?_) fun b hb => (hwrite b (mem_markedAddrs hb)).1
  rcases List.mem_append.1 hb with hb | hb
  · obtain ⟨n, hn, hb⟩ := List.mem_flatMap.1 hb
    exact (hlist b (mem_peanutAddrs (List.mem_range.1 hn) hb)).1
  · exact (hplane b (mem_markedAddrs hb)).1

end Sys2Proof.Machine
end

section
/-! The state after a host write during a command, and the command's end from there (20_memory R86, 70_reset R239, R240). -/

namespace Sys2Proof.Machine

/-! ### The host's write -/

/-- The state after the host's write of `v` at `a` while command `i` does its work (logs 12 and 13). -/
def State.wroteDuring (s : State) (i : Instr) (a : Nat) (v : Byte) : State :=
  { s with
    mem := s.mem.write a (if (writeRegion s.csr i).has a then Config.freeByte s.draws a else v)
    inTouched := if (readRegions s.csr i).any (·.has a) then (a, s.mem.read a) :: s.inTouched else s.inTouched
    outTouched := if (writeRegion s.csr i).has a then a :: s.outTouched else s.outTouched
    draws := s.draws + 1 }

theorem hostAct_writeMem_running {s : State} {i : Instr} (hrun : s.phase = .run) (hdecode : decode s.csr.lastCmd = .ok i)
    (he : (planOf i s).error = none) (hid : scalerIdentity s.csr i = false) {a : Word}
    (haperture : s.inAperture a.toNat = false) (v : Byte) :
    hostAct (.writeMem a v) s = s.wroteDuring i a.toNat v := by
  have hwork : runningWork s = some (planOf i s).work := by rw [runningWork_eq hdecode, if_pos he]
  have regions := planOf_hasRegions i s he hid
  show hostWriteByte s a.toNat v = _
  rw [hostWriteByte_running hrun hwork haperture v, regions.out, regions.reads]
  rfl

theorem wroteDuring_inTouched_of_input {s : State} {i : Instr} {a : Nat}
    (h : ∃ r ∈ readRegions s.csr i, r.has a = true) (v : Byte) :
    (s.wroteDuring i a v).inTouched = (a, s.mem.read a) :: s.inTouched :=
  if_pos (List.any_eq_true.2 h)

theorem wroteDuring_inTouched_of_not_input {s : State} {i : Instr} {a : Nat}
    (h : ¬ ∃ r ∈ readRegions s.csr i, r.has a = true) (v : Byte) : (s.wroteDuring i a v).inTouched = s.inTouched :=
  if_neg (mt List.any_eq_true.1 h)

theorem wroteDuring_outTouched_of_output {s : State} {i : Instr} {a : Nat} (h : (writeRegion s.csr i).has a = true)
    (v : Byte) : (s.wroteDuring i a v).outTouched = a :: s.outTouched :=
  if_pos h

theorem wroteDuring_outTouched_of_not_output {s : State} {i : Instr} {a : Nat} (h : ¬ (writeRegion s.csr i).has a = true)
    (v : Byte) : (s.wroteDuring i a v).outTouched = s.outTouched :=
  if_neg h

/-- A byte that is none of the command's is just written. -/
theorem wroteDuring_of_apart {s : State} {i : Instr} {a : Nat} (hi : ¬ ∃ r ∈ readRegions s.csr i, r.has a = true)
    (ho : ¬ (writeRegion s.csr i).has a = true) (v : Byte) :
    s.wroteDuring i a v = { s with mem := (s.wroteDuring i a v).mem, draws := s.draws + 1 } := by
  simp only [State.wroteDuring, if_neg ho, if_neg (mt List.any_eq_true.1 hi)]

theorem wroteDuring_read_other {s : State} {i : Instr} {a x : Nat} (h : x ≠ a) (v : Byte) :
    (s.wroteDuring i a v).mem.read x = s.mem.read x :=
  Memory.read_write_other _ _ _ _ h

theorem wroteDuring_read_same {s : State} {i : Instr} {a : Nat} (hm : s.mem.wf)
    (h : ¬ (writeRegion s.csr i).has a = true) (v : Byte) : (s.wroteDuring i a v).mem.read a = v :=
  (Memory.read_write_same _ _ _ hm.1).trans (if_neg h)

/-- A byte that the host kept off still has only the value it holds. -/
theorem wroteDuring_heldBefore {s : State} {i : Instr} {a b : Nat} (h : s.inTouched = []) (hb : b ≠ a) (v : Byte) :
    (s.wroteDuring i a v).heldBefore b = [] := by
  by_cases hin : ∃ r ∈ readRegions s.csr i, r.has a = true
  · simp [State.heldBefore, wroteDuring_inTouched_of_input hin, h, hb.symm]
  · simp [State.heldBefore, wroteDuring_inTouched_of_not_input hin, h]

/-- The host's write changes nothing that the engine reads in regions off it. -/
theorem agreeOn_wroteDuring {s : State} {i : Instr} {a : Nat} {v : Byte} {rs : List Region} (hh : s.inTouched = [])
    (hr : ∀ r ∈ rs, s.readable r) (hoff : ∀ r ∈ rs, r.has a = false) : AgreeOn s (s.wroteDuring i a v) rs := by
  have hne (r : Region) (hmem : r ∈ rs) (b : Nat) (hb : r.has b = true) : b ≠ a := by
    rintro rfl
    exact absurd ((hoff r hmem).symm.trans hb) (by decide)
  refine AgreeOn.of_quiet rfl rfl rfl (fun r hmem b hb => (hr r hmem b hb).2) (fun r hmem b hb => ⟨?_, ?_⟩)
    fun r hmem b hb => wroteDuring_read_other (hne r hmem b hb) v
  · simp [State.heldBefore, hh]
  · exact wroteDuring_heldBefore hh (hne r hmem b hb) v

/-! ### A write to the output -/

/-- A command other than HARVEST does not read what it writes (20_memory R78). -/
theorem not_has_readRegions_of_output {c : Csrs} {i : Instr} (hoverlap : overlapFails c i = false)
    (hid : scalerIdentity c i = false) (hi : i ≠ .harvest) {a : Nat} (ha : (writeRegion c i).has a = true) :
    ∀ r ∈ readRegions c i, r.has a = false := by
  intro r hr
  simp only [overlapFails, checkedReads, hid, if_neg hi, Bool.not_false, Bool.true_and, List.any_eq_false,
    Bool.not_eq_true] at hoverlap
  by_contra hin
  have := Region.not_has_of_apart (hoverlap r hr) (Bool.of_not_eq_false hin)
  exact absurd (this.symm.trans ha) (by decide)

theorem acceptanceEffect_csr_congr {s t : State} (h : t.csr = s.csr) (i : Instr) :
    (acceptanceEffect i t).csr = (acceptanceEffect i s).csr := by
  cases i <;> simp [acceptanceEffect, h]

/-- Where a command's regions are readable and writable, none of its accesses fails. -/
theorem failing_of_ready {i : Instr} {s : State} (he : (planOf i s).error = none) (hw : s.writable (writeRegion s.csr i))
    (hr : ∀ r ∈ readRegions s.csr i, s.readable r) : (planOf i s).work.failing s = [] := by
  have keeps := planOf_keepsTo i s he
  refine Work.failing_eq_nil (fun b hb => ?_) fun b hb => (hw b (keeps.writes b hb)).1
  obtain ⟨r, hmem, hin⟩ := keeps.reads b hb
  exact (hr r hmem b hin).1

/-- A host write of an output byte costs that byte alone (70_reset R240). -/
theorem exec_wroteDuring_output {s u w : State} {i : Instr} {a : Nat} {v : Byte} (he : (planOf i s).error = none)
    (hid : scalerIdentity s.csr i = false) (hoff : ∀ r ∈ readRegions s.csr i, r.has a = false) (hh : s.hostKeptOff)
    (hw : s.writable (writeRegion s.csr i)) (hr : ∀ r ∈ readRegions s.csr i, s.readable r)
    (hu : exec i (s.wroteDuring i a v) = .next u) (hexec : exec i s = .next w) :
    u.csr = w.csr ∧ ∀ x, x ≠ a → u.mem.read x = w.mem.read x := by
  have hnot : ¬ ∃ r ∈ readRegions s.csr i, r.has a = true := by
    rintro ⟨r, hmem, hin⟩
    exact absurd ((hoff r hmem).symm.trans hin) (by decide)
  have same := planOf_same i (agreeOn_wroteDuring (i := i) (v := v) hh.1 hr hoff)
  have het := same.error.trans he
  have hq := failing_of_ready he hw hr
  have hp : (planOf i (s.wroteDuring i a v)).work.failing (s.wroteDuring i a v) = [] := (same.failing rfl).trans hq
  have hcsrs : (planOf i s).work.writesCsrs s = false := writesCsrs_off_aperture he fun b hb => (hw b hb).2
  have hcsrs' : (planOf i (s.wroteDuring i a v)).work.writesCsrs (s.wroteDuring i a v) = false :=
    (same.writesCsrs rfl).trans hcsrs
  refine ⟨?csr, fun x hx => ?mem⟩
  case csr =>
    cases hu.symm.trans (exec_of_planOf_none het)
    cases hexec.symm.trans (exec_of_planOf_none he)
    refine same.complete_csr ((failing_acceptanceEffect _ _ _).trans hp) ((failing_acceptanceEffect _ _ _).trans hq) ?_
    rw [Work.store_csr, Work.store_csr, writesCsrs_acceptanceEffect, writesCsrs_acceptanceEffect, hcsrs, hcsrs',
      if_neg Bool.false_ne_true, if_neg Bool.false_ne_true]
    exact acceptanceEffect_csr_congr (s := s) (t := s.wroteDuring i a v) rfl i
  case mem =>
    by_cases hin : (writeRegion s.csr i).has x = true
    · have hout : (planOf i s).work.out.has x = true := by rwa [(planOf_hasRegions i s he hid).out]
      have haperture := (hw x hin).2
      have htouched : x ∉ (s.wroteDuring i a v).outTouched := by
        show x ∉ (if _ then _ else _)
        split <;> simp [hh.2, hx]
      rw [exec_byte_of_quiet hexec he hout haperture hq hh.1 (by simp [hh.2]),
        exec_byte_of_quiet hu het (by rwa [same.out]) haperture hp ((wroteDuring_inTouched_of_not_input hnot v).trans hh.1)
          htouched, same.out]
      rw [Region.has_iff] at hout
      exact same.byteAt _ (by omega)
    · have hnotin := Bool.eq_false_iff.2 hin
      rw [exec_mem_outside hu hnotin, exec_mem_outside hexec hnotin]
      exact wroteDuring_read_other hx v

/-! ### A write to HARVEST's plane -/

/-- A HARVEST none of whose accesses fails ends with DONE and counts its records (46_jumpman R205, R207). -/
theorem execHarvest_end {t u : State} (hexec : exec .harvest t = .next u) (he : (planOf .harvest t).error = none)
    (hfail : (planHarvest t).work.failing t = []) :
    u.csr.status.done = true ∧ u.csr.jmHits = BitVec.ofNat 16 (hitRecords t).length := by
  have hfail' : (planOf .harvest t).work.failing (acceptanceEffect .harvest t) = [] :=
    (failing_acceptanceEffect _ _ _).trans hfail
  cases hexec.symm.trans (exec_of_planOf_none he)
  rw [complete_of_failing_nil hfail']
  exact ⟨rfl, rfl⟩

theorem execHarvest_byte_of_marked {t u : State} (hexec : exec .harvest t = .next u)
    (he : (planOf .harvest t).error = none) (hin : t.inTouched ≠ []) {x : Nat} (hx : (planeRegion t.csr).has x = true)
    (haperture : t.inAperture x = false) (hmark : x ∈ markedAddrs t) : u.mem.read x = Config.freeByte t.draws x :=
  exec_byte_of_inTouched hexec he hx haperture hin hmark

theorem execHarvest_byte_of_not_marked {t u : State} (hexec : exec .harvest t = .next u)
    (he : (planOf .harvest t).error = none) (hfail : (planHarvest t).work.failing t = []) {x : Nat}
    (hx : (planeRegion t.csr).has x = true) (haperture : t.inAperture x = false) (hout : x ∉ t.outTouched)
    (hmark : x ∉ markedAddrs t) : u.mem.read x = t.mem.read x := by
  have hspec : (planHarvest t).work.unspecified t false x = false := unspecified_eq_false_iff.2 ⟨rfl, hout, .inr hmark⟩
  rw [execHarvest_byte hexec he hx haperture, hfail, List.isEmpty_nil, Bool.not_true, hspec, if_neg Bool.false_ne_true]
  exact harvestByte_of_not_marked hfail ((Region.has_iff _ _).1 hx).1 hmark

/-- A host write of a plane byte leaves the records, the bytes they mark and the other bytes of an undisturbed HARVEST as
they were. -/
theorem execHarvest_wroteDuring {s u : State} {a : Nat} {v : Byte} (h : s.HarvestReady)
    (ha : (planeRegion s.csr).has a = true) (hu : exec .harvest (s.wroteDuring .harvest a v) = .next u) :
    u.csr.status.done = true
      ∧ u.csr.jmHits = BitVec.ofNat 16 ((List.range s.csr.jmCount.toNat).countP s.marks)
      ∧ ∀ x, x ≠ a → (planeRegion s.csr).has x = true →
          (s.marksAt x → u.mem.read x = Config.freeByte (s.draws + 1) x)
          ∧ (¬ s.marksAt x → u.mem.read x = s.mem.read x) := by
  have hlist : (listRegion s.csr).has a = false := by
    by_contra hin
    have := Region.not_has_of_apart h.offList (Bool.of_not_eq_false hin)
    exact absurd (this.symm.trans ha) (by decide)
  have agree : AgreeOn s (s.wroteDuring .harvest a v) [listRegion s.csr] :=
    agreeOn_wroteDuring h.host.1 (by simpa using h.listRead) (by simpa using hlist)
  have hmem : listRegion s.csr ∈ [listRegion s.csr] := List.mem_singleton_self _
  have hmark (x : Nat) : x ∈ markedAddrs (s.wroteDuring .harvest a v) ↔ s.marksAt x := by
    rw [agree.markedAddrs hmem, mem_markedAddrs_iff h.listRead h.host]
  have he : (planOf .harvest (s.wroteDuring .harvest a v)).error = none :=
    (planHarvest_error_eq_none _).2 ⟨h.planeIn, h.listIn, h.offList⟩
  have hfail : (planHarvest (s.wroteDuring .harvest a v)).work.failing (s.wroteDuring .harvest a v) = [] :=
    planHarvest_failing h.planeRead h.planeWrite h.listRead
  have hin : (s.wroteDuring .harvest a v).inTouched ≠ [] := by
    rw [wroteDuring_inTouched_of_input ⟨_, List.mem_cons_self, ha⟩]
    exact List.cons_ne_nil _ _
  have hout : (s.wroteDuring .harvest a v).outTouched = [a] := by
    rw [wroteDuring_outTouched_of_output (i := .harvest) ha, h.host.2]
  obtain ⟨hdone, hhits⟩ := execHarvest_end hu he hfail
  refine ⟨hdone, ?_, fun x hx hplane => ⟨fun hm => ?_, fun hm => ?_⟩⟩
  · rw [hhits, agree.hitRecords hmem, hitRecords_length h.listRead h.host.1]
  · exact execHarvest_byte_of_marked hu he hin hplane (h.planeRead x hplane).2 ((hmark x).2 hm)
  · have hnot : x ∉ (s.wroteDuring .harvest a v).outTouched := by simpa [hout] using hx
    exact (execHarvest_byte_of_not_marked hu he hfail hplane (h.planeRead x hplane).2 hnot (mt (hmark x).1 hm)).trans
      (wroteDuring_read_other hx v)

/-! ### The obligation -/

/-- Settles O60, by the region of the command that the host writes. -/
theorem hostWritesDuringCommand : Obligations.HostWritesDuringCommand := by
  intro s i a v hinv hrun hdecode hscale hgeometry hfont hrange hoverlap hid haperture t input output free
  obtain ⟨hwf, _⟩ := everyCommandHasOneWord _ _ hdecode
  have he := planOf_error_none hwf hscale hgeometry hfont hrange hoverlap
  have ht : t = s.wroteDuring i a.toNat v := hostAct_writeMem_running hrun hdecode he hid haperture v
  have het : (planOf i t).error = none := by
    rw [ht]
    exact planOf_error_none hwf hscale hgeometry hfont hrange hoverlap
  have regions : HasRegions (planOf i t).work i t := planOf_hasRegions i t het (by rw [ht]; exact hid)
  have hout {x : Nat} (hx : (writeRegion s.csr i).has x = true) : (planOf i t).work.out.has x = true := by
    rw [regions.out, ht]
    exact hx
  have hoff {x : Nat} (hx : s.inAperture x = false) : t.inAperture x = false := by
    rw [ht]
    exact hx
  have htouched (h : input) : t.inTouched ≠ [] := by
    rw [ht, wroteDuring_inTouched_of_input h]
    exact List.cons_ne_nil _ _
  obtain ⟨u, hu, hidle⟩ := exec_ends i t
  refine ⟨fun x hx => ?other, fun ho => ?lands, fun ho hi => ?frame, u, hu, hidle, fun ho => ?outByte,
    fun ho hne hh hw hr => ?outRest, fun hi hne x hx hxa => ?inAll, fun hi hharvest x hx hxa => ?inHarvest,
    fun ho hharvest hready => ?outHarvest⟩
  case other =>
    rw [ht]
    exact wroteDuring_read_other hx v
  case lands =>
    rw [ht]
    exact wroteDuring_read_same hinv.memory ho v
  case frame =>
    rw [ht]
    exact wroteDuring_of_apart hi ho v
  case outByte =>
    refine exec_byte_of_outTouched hu het (hout ho) (hoff haperture) ?_
    rw [ht, wroteDuring_outTouched_of_output ho]
    exact List.mem_cons_self
  case outRest =>
    obtain ⟨w, hexec, _⟩ := exec_ends i s
    rw [ht] at hu
    have hapart := not_has_readRegions_of_output hoverlap hid hne ho
    exact ⟨w, hexec, exec_wroteDuring_output he hid hapart hh hw hr hu hexec⟩
  case inAll =>
    refine exec_byte_of_inTouched hu het (hout hx) (hoff hxa) (htouched hi) ?_
    rw [regions.writes hne]
    exact (Region.mem_addrs _ _).2 (hout hx)
  case inHarvest =>
    subst hharvest
    exact execHarvest_byte_of_inTouched hu het (by rw [ht]; exact hx) (hoff hxa) (htouched hi)
  case outHarvest =>
    subst hharvest
    have hdraws : free = Config.freeByte (s.draws + 1) := by
      show Config.freeByte t.draws = _
      rw [ht]
      rfl
    rw [ht] at hu
    rw [hdraws]
    exact execHarvest_wroteDuring hready ho hu

end Sys2Proof.Machine
end
